-- ==== Sys2Proof/Word.lean ====
section
/-! DEFINITION. The machine's word types (00_scope.md R9, R10). -/

namespace Sys2Proof

/-- A byte of the data memory, the program store or a mapping slot. -/
abbrev Byte := BitVec 8

/-- A 16-bit data-memory or program-store address, a return-stack entry, or the `pc` (R9). -/
abbrev Addr := BitVec 16

/-- The 32-bit pattern of a u32, of a rational, or of the `status` register (R9, R202). -/
abbrev Word := BitVec 32

end Sys2Proof
end

