-- ==== Sys2Proof/Config.lean ====
section
/-! DEFINITION. The implementation parameters of 00_scope.md R8, each a field of `Params`, which every state carries
and every rule reads (log 4). `PID_TICK` is OPEN and is a free input of the model (log 19). -/

namespace Sys2Proof.Config

/-- The most slots a mapping table can have: an id field has 4 bits (R8, R9). -/
abbrev maxSlots : Nat := 16

/-- The most controllers a PID bank can have (R8, R9). -/
abbrev maxPid : Nat := 16

/-- The parameters of R8, in the order of its table; their legal ranges are `Params.legal`. -/
structure Params where
  /-- `MEM_CAP` (C): bytes of data memory. -/
  memCap : Nat
  /-- `PROG_CAP` (P): bytes of program store. -/
  progCap : Nat
  /-- `MAP_SLOTS` (M): slots of the mapping table. -/
  mapSlots : Nat
  /-- `STACK_DEPTH` (S): entries of the return stack. -/
  stackDepth : Nat
  /-- `N_PID` (N): PID controllers. -/
  nPid : Nat
  /-- `RAT_BYTES`: bytes of a rational. -/
  ratBytes : Nat
  /-- `RAT_FRAC`: fraction bits of a rational. -/
  ratFrac : Nat
  /-- `PID_MIN_SAMPLE_MS`: the floor on a sample period in ms, of the width of a sample period (R46). -/
  pidMinSampleMs : BitVec 16
  /-- `TIMEOUT_SCALE`: µs per unit of a COMPARETIME timeout. -/
  timeoutScale : Nat
  /-- `NO_MAPPING`: the sentinel of an unused address field (R44). -/
  noMapping : Addr
  /-- `ERR_404`: the status bit the network actor uses for "not found". -/
  err404 : Byte
deriving DecidableEq, Repr

/-- `DONE`: bit 0 of a slot's status (R41). -/
abbrev statusDone : Byte := 0x01

/-- `ERR_MASK`: the error bits 6:1 of a slot's status (R41). -/
abbrev errMask : Byte := 0x7E

/-- `NO_MAPPING_FLAG`: bit 7 of a slot's status, the slot is wholly unused (R41). -/
abbrev noMappingFlag : Byte := 0x80

/-- The legal ranges of R8. One that R8 calls fixed has the one value; `ERR_404` is a subset of `ERR_MASK`. -/
def Params.legal (c : Params) : Prop :=
  (1 ≤ c.memCap ∧ c.memCap ≤ 65535) ∧ (1 ≤ c.progCap ∧ c.progCap ≤ 65536) ∧
    (1 ≤ c.mapSlots ∧ c.mapSlots ≤ maxSlots) ∧ (1 ≤ c.stackDepth ∧ c.stackDepth ≤ 65535) ∧
    (1 ≤ c.nPid ∧ c.nPid ≤ maxPid) ∧ c.ratBytes = 4 ∧ c.ratFrac = 16 ∧ c.pidMinSampleMs = 100 ∧
    c.timeoutScale = 1000 ∧ c.noMapping = 0xFFFF ∧ c.err404 &&& errMask = c.err404

/-- The values that this hardware takes (R8). -/
def thisHardware : Params where
  memCap := 1024
  progCap := 65536
  mapSlots := 16
  stackDepth := 20
  nPid := 4
  ratBytes := 4
  ratFrac := 16
  pidMinSampleMs := 100
  timeoutScale := 1000
  noMapping := 0xFFFF
  err404 := 0x02

end Sys2Proof.Config
end

