-- ==== Sys2Proof/Syntax.lean ====
section
/-! DEFINITION. Abstract syntax: the optype byte, operands, and one constructor of `Instr` per row of
spec/opcode_table.json (30_encoding.md R140 to R147). -/

namespace Sys2Proof

/-- The data types that TYPE selects (R143). -/
inductive Ty where
  | u32
  | rat
  | u8
  | u16
deriving DecidableEq, Repr

/-- `W(T)`: bytes of a value of the type; `W(rat)` is the parameter `RAT_BYTES` (R8, R83, R143). -/
def Ty.width (c : Config.Params) : Ty → Nat
  | .u32 => 4
  | .rat => c.ratBytes
  | .u8 => 1
  | .u16 => 2

/-- An addressing mode: a literal in the instruction stream, or a 16-bit data address of the value (R144). -/
inductive Mode where
  | literal
  | address
deriving DecidableEq, Repr

/-- The optype byte, whole: fields that an instruction ignores are still bits of its encoding (R142, R150). -/
structure Optype where
  /-- `ID`, bits 7:4: a mapping slot or a PID controller. -/
  id : BitVec 4
  /-- `MODE2`, bit 3: addressing mode of URLMAP's resource string. -/
  mode2 : Mode
  /-- `TYPE`, bits 2:1. -/
  ty : Ty
  /-- `MODE`, bit 0: addressing mode of the source operand. -/
  mode : Mode
deriving DecidableEq, Repr

/-- A source operand as it stands in the instruction stream, not yet evaluated (R145): the literal's bits
or the pointer to the value. -/
inductive Operand where
  | lit (raw : Word)
  | addr (ptr : Addr)
deriving DecidableEq, Repr

/-- A string field of URLMAP (R147, R330): the bytes of an inline string without its NUL, or a data address. -/
inductive StrField where
  | inline (bytes : List Byte)
  | addr (a : Addr)
deriving DecidableEq, Repr

/-- The fields of PIDINIT after its optype byte (R147, R352). -/
structure PidInitFields where
  inAddr : Addr
  outAddr : Addr
  spAddr : Addr
  kp : Operand
  ki : Operand
  kd : Operand
  sampleMs : BitVec 16
  dir : Byte
  lo : Operand
  hi : Operand
deriving DecidableEq, Repr

/-- The fields of a PIDINIT whose id check failed: none was fetched (R351), each stands as zero (log 17). -/
def PidInitFields.unfetched : PidInitFields :=
  ⟨0, 0, 0, .lit 0, .lit 0, .lit 0, 0, 0, .lit 0, .lit 0⟩

/-- The instructions of R141, in the order of the opcode byte. Fields stand in the order of R147.
In the bitwise family with TYPE = rat no field is fetched after the optype byte (R150): `dst` and `src` then
stand as zero (log 17). A `multiload` whose `srcs` is shorter than `count` is one whose source fields run past
the end of the program store (log 16). -/
inductive Instr where
  | halt
  | add (ot : Optype) (dst : Addr) (src : Operand)
  | sub (ot : Optype) (dst : Addr) (src : Operand)
  | mul (ot : Optype) (dst : Addr) (src : Operand)
  | div (ot : Optype) (dst : Addr) (src : Operand)
  | mod (ot : Optype) (dst : Addr) (src : Operand)
  | bitAnd (ot : Optype) (dst : Addr) (src : Operand)
  | bitOr (ot : Optype) (dst : Addr) (src : Operand)
  | bitNot (ot : Optype) (dst : Addr)
  | bitXor (ot : Optype) (dst : Addr) (src : Operand)
  | lshift (ot : Optype) (dst : Addr) (src : Operand)
  | rshift (ot : Optype) (dst : Addr) (src : Operand)
  | load (ot : Optype) (dst : Addr) (src : Operand)
  | multiload (ot : Optype) (dst : Addr) (count : Byte) (srcs : List Operand)
  | copy (ot : Optype) (src : Addr) (len : BitVec 16) (dst : Addr)
  | jump (ot : Optype) (target : Operand)
  | compare (ot : Optype) (addr : Addr) (src : Operand) (tLess tEqual tGreater : Addr)
  | call (ot : Optype) (target : Operand)
  | ret
  | time (ot : Optype) (dst : Addr)
  | compareTime (ot : Optype) (addr : Addr) (timeout : Word) (tElapsed tNotElapsed : Addr)
  | urlmap (ot : Optype) (options : Byte) (value : Addr) (port : BitVec 16) (url resource : StrField)
  | urlmapCheck (ot : Optype) (dst : Addr)
  | urlmapDelete (ot : Optype)
  | pidInit (ot : Optype) (fields : PidInitFields)
  | pidClear (ot : Optype)
  | pidStop (ot : Optype)
  | pidRun (ot : Optype)
  | reset
deriving DecidableEq, Repr

/-- The names of the opcodes (R141); their byte values are in Decode.lean. -/
inductive Opcode where
  | halt | add | sub | mul | div | mod | bitAnd | bitOr | bitNot | bitXor | lshift | rshift
  | load | multiload | copy | jump | compare | call | ret | time | compareTime
  | urlmap | urlmapCheck | urlmapDelete | pidInit | pidClear | pidStop | pidRun | reset
deriving DecidableEq, Repr

/-- The opcode of an instruction. -/
def Instr.opcode : Instr → Opcode
  | .halt => .halt
  | .add _ _ _ => .add
  | .sub _ _ _ => .sub
  | .mul _ _ _ => .mul
  | .div _ _ _ => .div
  | .mod _ _ _ => .mod
  | .bitAnd _ _ _ => .bitAnd
  | .bitOr _ _ _ => .bitOr
  | .bitNot _ _ => .bitNot
  | .bitXor _ _ _ => .bitXor
  | .lshift _ _ _ => .lshift
  | .rshift _ _ _ => .rshift
  | .load _ _ _ => .load
  | .multiload _ _ _ _ => .multiload
  | .copy _ _ _ _ => .copy
  | .jump _ _ => .jump
  | .compare _ _ _ _ _ _ => .compare
  | .call _ _ => .call
  | .ret => .ret
  | .time _ _ => .time
  | .compareTime _ _ _ _ _ => .compareTime
  | .urlmap _ _ _ _ _ _ => .urlmap
  | .urlmapCheck _ _ => .urlmapCheck
  | .urlmapDelete _ => .urlmapDelete
  | .pidInit _ _ => .pidInit
  | .pidClear _ => .pidClear
  | .pidStop _ => .pidStop
  | .pidRun _ => .pidRun
  | .reset => .reset

end Sys2Proof
end

