-- ==== Sys2Proof/WellFormed.lean ====
section
/-! DEFINITION. Which terms of `Instr` are encodings of an instruction (30_encoding.md R143 to R150). Every
check has an ill-formed term that it refuses in Tests/Slice0.lean. -/

namespace Sys2Proof

/-- An operand has the form its MODE names, and a literal fits the bytes of its type (R143 to R145). -/
def Operand.wf (c : Config.Params) (t : Ty) (m : Mode) : Operand → Bool
  | .lit raw => m == .literal && decide (raw.toNat < 256 ^ t.width c)
  | .addr _ => m == .address

/-- A string field has the form its mode names, and an inline string holds no NUL before its terminator
(R147, R330). -/
def StrField.wf (m : Mode) : StrField → Bool
  | .inline bytes => m == .literal && bytes.all (· != 0)
  | .addr _ => m == .address

/-- One MODE governs all five rationals of PIDINIT (R352). -/
def PidInitFields.wf (c : Config.Params) (m : Mode) (f : PidInitFields) : Bool :=
  f.kp.wf c .rat m && f.ki.wf c .rat m && f.kd.wf c .rat m && f.lo.wf c .rat m && f.hi.wf c .rat m

/-- The fields of a binary bitwise instruction: fetched unless TYPE = rat (R150, R248; log 17). -/
def bitwiseFieldsWf (c : Config.Params) (ot : Optype) (dst : Addr) (src : Operand) : Bool :=
  if ot.ty = .rat then dst == 0 && src == .lit 0 else src.wf c ot.ty ot.mode

/-- The well-formed instructions of a hardware with these parameters (R8, R351): the terms that the encoder writes as
one whole instruction. -/
def Instr.wf (c : Config.Params) : Instr → Bool
  | .halt => true
  | .add ot _ src => src.wf c ot.ty ot.mode
  | .sub ot _ src => src.wf c ot.ty ot.mode
  | .mul ot _ src => src.wf c ot.ty ot.mode
  | .div ot _ src => src.wf c ot.ty ot.mode
  | .mod ot _ src => src.wf c ot.ty ot.mode
  | .bitAnd ot dst src => bitwiseFieldsWf c ot dst src
  | .bitOr ot dst src => bitwiseFieldsWf c ot dst src
  | .bitNot ot dst => if ot.ty = .rat then dst == 0 else true
  | .bitXor ot dst src => bitwiseFieldsWf c ot dst src
  | .lshift ot dst src => bitwiseFieldsWf c ot dst src
  | .rshift ot dst src => bitwiseFieldsWf c ot dst src
  | .load ot _ src => src.wf c ot.ty ot.mode
  | .multiload ot _ count srcs => srcs.length == count.toNat && srcs.all (·.wf c ot.ty ot.mode)
  | .copy _ _ _ _ => true
  | .jump ot target => target.wf c .u16 ot.mode
  | .compare ot _ src _ _ _ => src.wf c ot.ty ot.mode
  | .call ot target => target.wf c .u16 ot.mode
  | .ret => true
  | .time _ _ => true
  | .compareTime _ _ _ _ _ => true
  | .urlmap ot _ _ _ url resource => url.wf ot.mode && resource.wf ot.mode2
  | .urlmapCheck _ _ => true
  | .urlmapDelete _ => true
  | .pidInit ot f =>
      if ot.id.toNat < c.nPid then f.wf c ot.mode else f == PidInitFields.unfetched
  | .pidClear _ => true
  | .pidStop _ => true
  | .pidRun _ => true
  | .reset => true

end Sys2Proof
end

