-- ==== Sys2Proof/Decode.lean ====
section
/-! DEFINITION. The decoder, total on any bytes, and the encoder, written from the same tables of
30_encoding.md (R141 opcodes, R142 to R144 optype, R147 field order, R148 lengths, R152 decode order). -/

namespace Sys2Proof

/-! ### Little-endian fields (R84, R91) -/

/-- The `n` low bytes of `v`, least significant first. -/
def leBytes : Nat → Nat → List Byte
  | 0, _ => []
  | n + 1, v => BitVec.ofNat 8 v :: leBytes n (v / 256)

/-- The value of a list of bytes, least significant first. -/
def leValue : List Byte → Nat
  | [] => 0
  | b :: bs => b.toNat + 256 * leValue bs

/-- `fetch(n)` of R145: the value of the next `n` bytes, and the bytes after them; none past the end. -/
def takeLE : Nat → List Byte → Option (Nat × List Byte)
  | 0, bs => some (0, bs)
  | _ + 1, [] => none
  | n + 1, b :: bs =>
      match takeLE n bs with
      | none => none
      | some (v, rest) => some (b.toNat + 256 * v, rest)

/-- One byte of the stream. -/
def takeByte (bs : List Byte) : Option (Byte × List Byte) :=
  (takeLE 1 bs).map fun p => (BitVec.ofNat 8 p.1, p.2)

/-- `fetch_addr()` of R145, and any other 2-byte field. -/
def takeAddr (bs : List Byte) : Option (Addr × List Byte) :=
  (takeLE 2 bs).map fun p => (BitVec.ofNat 16 p.1, p.2)

/-! ### The optype byte (R142 to R144)

Its layout and codes are constants of the model, not configuration (DESIGN CHOICE, log 28). -/

def Ty.code : Ty → BitVec 2
  | .u32 => 0b00
  | .rat => 0b01
  | .u8 => 0b10
  | .u16 => 0b11

def Ty.ofCode (c : BitVec 2) : Ty :=
  if c = 0b00 then .u32 else if c = 0b01 then .rat else if c = 0b10 then .u8 else .u16

def Mode.code : Mode → BitVec 1
  | .literal => 0
  | .address => 1

def Mode.ofCode (c : BitVec 1) : Mode :=
  if c = 0 then .literal else .address

/-- ID in bits 7:4, MODE2 in bit 3, TYPE in bits 2:1, MODE in bit 0 (R142); a constant layout (log 28). -/
def Optype.toByte (ot : Optype) : Byte :=
  ot.id ++ ot.mode2.code ++ ot.ty.code ++ ot.mode.code

/-- The optype byte read by its constant layout (R142; log 28). -/
def Optype.ofByte (b : Byte) : Optype where
  id := b.extractLsb' 4 4
  mode2 := Mode.ofCode (b.extractLsb' 3 1)
  ty := Ty.ofCode (b.extractLsb' 1 2)
  mode := Mode.ofCode (b.extractLsb' 0 1)

def takeOptype (bs : List Byte) : Option (Optype × List Byte) :=
  (takeByte bs).map fun p => (Optype.ofByte p.1, p.2)

/-! ### Opcodes (R141) -/

/-- The opcode byte (R141). The map is a constant of the model, not configuration (DESIGN CHOICE, log 28). -/
def Opcode.toByte : Opcode → Byte
  | .halt => 0x00
  | .add => 0x01
  | .sub => 0x02
  | .mul => 0x03
  | .div => 0x04
  | .mod => 0x05
  | .bitAnd => 0x06
  | .bitOr => 0x07
  | .bitNot => 0x08
  | .bitXor => 0x09
  | .lshift => 0x0A
  | .rshift => 0x0B
  | .load => 0x0C
  | .multiload => 0x0D
  | .copy => 0x0E
  | .jump => 0x0F
  | .compare => 0x10
  | .call => 0x11
  | .ret => 0x12
  | .time => 0x13
  | .compareTime => 0x14
  | .urlmap => 0x15
  | .urlmapCheck => 0x16
  | .urlmapDelete => 0x17
  | .pidInit => 0x18
  | .pidClear => 0x19
  | .pidStop => 0x1A
  | .pidRun => 0x1B
  | .reset => 0x1C

/-- Every opcode, in the order of its byte. -/
def allOpcodes : List Opcode :=
  [.halt, .add, .sub, .mul, .div, .mod, .bitAnd, .bitOr, .bitNot, .bitXor, .lshift, .rshift,
    .load, .multiload, .copy, .jump, .compare, .call, .ret, .time, .compareTime,
    .urlmap, .urlmapCheck, .urlmapDelete, .pidInit, .pidClear, .pidStop, .pidRun, .reset]

/-- The opcode a byte selects; none for the reserved bytes 0x1D to 0xFF (R141, R149). -/
def Opcode.ofByte (b : Byte) : Option Opcode :=
  allOpcodes.find? fun o => o.toByte == b

/-! ### Operand fields -/

/-- `opnd(T)` of R147: `W(T)` literal bytes, or a 2-byte pointer (R145). -/
def takeOperand (c : Config.Params) (t : Ty) (m : Mode) (bs : List Byte) : Option (Operand × List Byte) :=
  match m with
  | .literal => (takeLE (t.width c) bs).map fun p => (.lit (BitVec.ofNat 32 p.1), p.2)
  | .address => (takeAddr bs).map fun p => (.addr p.1, p.2)

/-- The source fields of MULTILOAD, `n` of them, or as many whole ones as the stream holds (R271; log 16). -/
def takeOperands (c : Config.Params) (t : Ty) (m : Mode) : Nat → List Byte → List Operand × List Byte
  | 0, bs => ([], bs)
  | n + 1, bs =>
      match takeOperand c t m bs with
      | none => ([], [])
      | some (o, rest) =>
          let p := takeOperands c t m n rest
          (o :: p.1, p.2)

/-- The bytes of an inline string up to its NUL, and the bytes after the NUL; none if there is no NUL
(R330, `string_field`). -/
def takeString : List Byte → Option (List Byte × List Byte)
  | [] => none
  | b :: bs =>
      if b = 0 then some ([], bs)
      else (takeString bs).map fun p => (b :: p.1, p.2)

def takeStrField (m : Mode) (bs : List Byte) : Option (StrField × List Byte) :=
  match m with
  | .literal => (takeString bs).map fun p => (.inline p.1, p.2)
  | .address => (takeAddr bs).map fun p => (.addr p.1, p.2)

/-! ### Layouts (R147) -/

/-- `ot` alone. -/
def takeOt (mk : Optype → Instr) (bs : List Byte) : Option (Instr × List Byte) := do
  let (ot, bs) ← takeOptype bs
  some (mk ot, bs)

/-- `ot`, `dst:a16`. -/
def takeOtDst (mk : Optype → Addr → Instr) (bs : List Byte) : Option (Instr × List Byte) := do
  let (ot, bs) ← takeOptype bs
  let (dst, bs) ← takeAddr bs
  some (mk ot dst, bs)

/-- `ot`, `dst:a16`, `src:opnd(T)`. -/
def takeOtDstSrc (c : Config.Params) (mk : Optype → Addr → Operand → Instr) (bs : List Byte) :
    Option (Instr × List Byte) := do
  let (ot, bs) ← takeOptype bs
  let (dst, bs) ← takeAddr bs
  let (src, bs) ← takeOperand c ot.ty ot.mode bs
  some (mk ot dst src, bs)

/-- As `takeOtDstSrc`, but nothing is read after the optype byte when TYPE = rat (R150, R248). -/
def takeBitwise (c : Config.Params) (mk : Optype → Addr → Operand → Instr) (bs : List Byte) :
    Option (Instr × List Byte) := do
  let (ot, bs) ← takeOptype bs
  if ot.ty = .rat then some (mk ot 0 (.lit 0), bs)
  else
    let (dst, bs) ← takeAddr bs
    let (src, bs) ← takeOperand c ot.ty ot.mode bs
    some (mk ot dst src, bs)

/-- `ot`, `dst:a16`, with the TYPE check of R252 before `dst`. -/
def takeNot (bs : List Byte) : Option (Instr × List Byte) := do
  let (ot, bs) ← takeOptype bs
  if ot.ty = .rat then some (.bitNot ot 0, bs)
  else
    let (dst, bs) ← takeAddr bs
    some (.bitNot ot dst, bs)

def takeMultiload (c : Config.Params) (bs : List Byte) : Option (Instr × List Byte) := do
  let (ot, bs) ← takeOptype bs
  let (dst, bs) ← takeAddr bs
  let (count, bs) ← takeByte bs
  let p := takeOperands c ot.ty ot.mode count.toNat bs
  some (.multiload ot dst count p.1, p.2)

def takeCopy (bs : List Byte) : Option (Instr × List Byte) := do
  let (ot, bs) ← takeOptype bs
  let (src, bs) ← takeAddr bs
  let (len, bs) ← takeAddr bs
  let (dst, bs) ← takeAddr bs
  some (.copy ot src len dst, bs)

/-- `ot`, `target:opnd(u16)`: TYPE is ignored and the operand is a u16 (R290, R292). -/
def takeTarget (c : Config.Params) (mk : Optype → Operand → Instr) (bs : List Byte) :
    Option (Instr × List Byte) := do
  let (ot, bs) ← takeOptype bs
  let (target, bs) ← takeOperand c .u16 ot.mode bs
  some (mk ot target, bs)

def takeCompare (c : Config.Params) (bs : List Byte) : Option (Instr × List Byte) := do
  let (ot, bs) ← takeOptype bs
  let (addr, bs) ← takeAddr bs
  let (src, bs) ← takeOperand c ot.ty ot.mode bs
  let (tLess, bs) ← takeAddr bs
  let (tEqual, bs) ← takeAddr bs
  let (tGreater, bs) ← takeAddr bs
  some (.compare ot addr src tLess tEqual tGreater, bs)

def takeCompareTime (bs : List Byte) : Option (Instr × List Byte) := do
  let (ot, bs) ← takeOptype bs
  let (addr, bs) ← takeAddr bs
  let (timeout, bs) ← takeLE 4 bs
  let (tElapsed, bs) ← takeAddr bs
  let (tNotElapsed, bs) ← takeAddr bs
  some (.compareTime ot addr (BitVec.ofNat 32 timeout) tElapsed tNotElapsed, bs)

def takeUrlmap (bs : List Byte) : Option (Instr × List Byte) := do
  let (ot, bs) ← takeOptype bs
  let (options, bs) ← takeByte bs
  let (value, bs) ← takeAddr bs
  let (port, bs) ← takeAddr bs
  let (url, bs) ← takeStrField ot.mode bs
  let (resource, bs) ← takeStrField ot.mode2 bs
  some (.urlmap ot options value port url resource, bs)

/-- The fields of PIDINIT after the optype byte. -/
def takePidInitFields (c : Config.Params) (m : Mode) (bs : List Byte) : Option (PidInitFields × List Byte) := do
  let (inAddr, bs) ← takeAddr bs
  let (outAddr, bs) ← takeAddr bs
  let (spAddr, bs) ← takeAddr bs
  let (kp, bs) ← takeOperand c .rat m bs
  let (ki, bs) ← takeOperand c .rat m bs
  let (kd, bs) ← takeOperand c .rat m bs
  let (sampleMs, bs) ← takeAddr bs
  let (dir, bs) ← takeByte bs
  let (lo, bs) ← takeOperand c .rat m bs
  let (hi, bs) ← takeOperand c .rat m bs
  some (⟨inAddr, outAddr, spAddr, kp, ki, kd, sampleMs, dir, lo, hi⟩, bs)

/-- PIDINIT: the id check against the parameter `nPid` comes before any operand field is fetched (R351). -/
def takePidInit (c : Config.Params) (bs : List Byte) : Option (Instr × List Byte) := do
  let (ot, bs) ← takeOptype bs
  if ot.id.toNat < c.nPid then
    let (f, bs) ← takePidInitFields c ot.mode bs
    some (.pidInit ot f, bs)
  else some (.pidInit ot .unfetched, bs)

/-- The fields after the opcode byte; none where the stream ends inside the instruction. -/
def takeBody (c : Config.Params) (o : Opcode) (bs : List Byte) : Option (Instr × List Byte) :=
  match o with
  | .halt => some (.halt, bs)
  | .add => takeOtDstSrc c .add bs
  | .sub => takeOtDstSrc c .sub bs
  | .mul => takeOtDstSrc c .mul bs
  | .div => takeOtDstSrc c .div bs
  | .mod => takeOtDstSrc c .mod bs
  | .bitAnd => takeBitwise c .bitAnd bs
  | .bitOr => takeBitwise c .bitOr bs
  | .bitNot => takeNot bs
  | .bitXor => takeBitwise c .bitXor bs
  | .lshift => takeBitwise c .lshift bs
  | .rshift => takeBitwise c .rshift bs
  | .load => takeOtDstSrc c .load bs
  | .multiload => takeMultiload c bs
  | .copy => takeCopy bs
  | .jump => takeTarget c .jump bs
  | .compare => takeCompare c bs
  | .call => takeTarget c .call bs
  | .ret => some (.ret, bs)
  | .time => takeOtDst .time bs
  | .compareTime => takeCompareTime bs
  | .urlmap => takeUrlmap bs
  | .urlmapCheck => takeOtDst .urlmapCheck bs
  | .urlmapDelete => takeOt .urlmapDelete bs
  | .pidInit => takePidInit c bs
  | .pidClear => takeOt .pidClear bs
  | .pidStop => takeOt .pidStop bs
  | .pidRun => takeOt .pidRun bs
  | .reset => some (.reset, bs)

/-- What the decoder answers. -/
inductive Decoded where
  /-- An instruction, and the bytes after it. -/
  | instr (i : Instr) (rest : List Byte)
  /-- A reserved opcode byte, 0x1D to 0xFF (R149). -/
  | reserved (op : Byte)
  /-- The stream ends inside the instruction: a program byte lies past `P - 1` (R153). -/
  | cutShort (op : Byte)
  /-- No byte at all: the opcode fetch itself lies past `P - 1` (R400). -/
  | noOpcode
deriving DecidableEq, Repr

/-- Decode the instruction at the head of a byte stream, for a hardware with these parameters (R8, R140, R152). -/
def decode (c : Config.Params) : List Byte → Decoded
  | [] => .noOpcode
  | op :: bs =>
      match Opcode.ofByte op with
      | none => .reserved op
      | some o =>
          match takeBody c o bs with
          | none => .cutShort op
          | some (i, rest) => .instr i rest

/-! ### The encoder -/

/-- The bytes of `opnd(T)` (R147). -/
def Operand.encode (c : Config.Params) (t : Ty) : Operand → List Byte
  | .lit raw => leBytes (t.width c) raw.toNat
  | .addr ptr => leBytes 2 ptr.toNat

/-- The bytes of a string field; an inline string ends with its NUL (R147). -/
def StrField.encode : StrField → List Byte
  | .inline bytes => bytes ++ [0]
  | .addr a => leBytes 2 a.toNat

/-- A 2-byte field. -/
def encodeAddr (a : Addr) : List Byte := leBytes 2 a.toNat

def PidInitFields.encode (c : Config.Params) (f : PidInitFields) : List Byte :=
  encodeAddr f.inAddr ++ encodeAddr f.outAddr ++ encodeAddr f.spAddr ++ f.kp.encode c .rat ++
    f.ki.encode c .rat ++ f.kd.encode c .rat ++ encodeAddr f.sampleMs ++ [f.dir] ++ f.lo.encode c .rat ++
    f.hi.encode c .rat

def encodeDstSrc (c : Config.Params) (ot : Optype) (dst : Addr) (src : Operand) : List Byte :=
  ot.toByte :: (encodeAddr dst ++ src.encode c ot.ty)

/-- The bytes of a binary bitwise instruction after its opcode: none after the optype byte when
TYPE = rat (R150). -/
def encodeBitwise (c : Config.Params) (ot : Optype) (dst : Addr) (src : Operand) : List Byte :=
  if ot.ty = .rat then [ot.toByte] else encodeDstSrc c ot dst src

/-- The bytes after the opcode byte (R147). -/
def Instr.encodeBody (c : Config.Params) : Instr → List Byte
  | .halt => []
  | .add ot dst src => encodeDstSrc c ot dst src
  | .sub ot dst src => encodeDstSrc c ot dst src
  | .mul ot dst src => encodeDstSrc c ot dst src
  | .div ot dst src => encodeDstSrc c ot dst src
  | .mod ot dst src => encodeDstSrc c ot dst src
  | .bitAnd ot dst src => encodeBitwise c ot dst src
  | .bitOr ot dst src => encodeBitwise c ot dst src
  | .bitNot ot dst => if ot.ty = .rat then [ot.toByte] else ot.toByte :: encodeAddr dst
  | .bitXor ot dst src => encodeBitwise c ot dst src
  | .lshift ot dst src => encodeBitwise c ot dst src
  | .rshift ot dst src => encodeBitwise c ot dst src
  | .load ot dst src => encodeDstSrc c ot dst src
  | .multiload ot dst count srcs =>
      ot.toByte :: (encodeAddr dst ++ count :: srcs.flatMap (·.encode c ot.ty))
  | .copy ot src len dst => ot.toByte :: (encodeAddr src ++ encodeAddr len ++ encodeAddr dst)
  | .jump ot target => ot.toByte :: target.encode c .u16
  | .compare ot addr src tLess tEqual tGreater =>
      ot.toByte :: (encodeAddr addr ++ src.encode c ot.ty ++ encodeAddr tLess ++ encodeAddr tEqual ++
        encodeAddr tGreater)
  | .call ot target => ot.toByte :: target.encode c .u16
  | .ret => []
  | .time ot dst => ot.toByte :: encodeAddr dst
  | .compareTime ot addr timeout tElapsed tNotElapsed =>
      ot.toByte :: (encodeAddr addr ++ leBytes 4 timeout.toNat ++ encodeAddr tElapsed ++
        encodeAddr tNotElapsed)
  | .urlmap ot options value port url resource =>
      ot.toByte :: options :: (encodeAddr value ++ encodeAddr port ++ url.encode ++ resource.encode)
  | .urlmapCheck ot dst => ot.toByte :: encodeAddr dst
  | .urlmapDelete ot => [ot.toByte]
  | .pidInit ot f => if ot.id.toNat < c.nPid then ot.toByte :: f.encode c else [ot.toByte]
  | .pidClear ot => [ot.toByte]
  | .pidStop ot => [ot.toByte]
  | .pidRun ot => [ot.toByte]
  | .reset => []

/-- The bytes of an instruction, for a hardware with these parameters (R8). -/
def encode (c : Config.Params) (i : Instr) : List Byte := i.opcode.toByte :: i.encodeBody c

/-! ### Lengths (R148) -/

/-- `L(T, MODE)` of R148, read from the operand's own form. -/
def Operand.length (c : Config.Params) (t : Ty) : Operand → Nat
  | .lit _ => t.width c
  | .addr _ => 2

/-- `L(T, MODE)` of R148, read from the optype's fields. -/
def operandWidth (c : Config.Params) (t : Ty) : Mode → Nat
  | .literal => t.width c
  | .address => 2

/-- Bytes of a string field: `strlen + 1`, or 2 (R148). -/
def StrField.length : StrField → Nat
  | .inline bytes => bytes.length + 1
  | .addr _ => 2

/-- Bytes of an instruction (R148). An instruction whose fields are not fetched (R150, R351) ends at its optype byte
whatever this says of it; it faults, so its length moves no `pc`. -/
def Instr.length (c : Config.Params) : Instr → Nat
  | .halt => 1
  | .add ot _ src => 4 + src.length c ot.ty
  | .sub ot _ src => 4 + src.length c ot.ty
  | .mul ot _ src => 4 + src.length c ot.ty
  | .div ot _ src => 4 + src.length c ot.ty
  | .mod ot _ src => 4 + src.length c ot.ty
  | .bitAnd ot _ src => if ot.ty = .rat then 2 else 4 + src.length c ot.ty
  | .bitOr ot _ src => if ot.ty = .rat then 2 else 4 + src.length c ot.ty
  | .bitNot ot _ => if ot.ty = .rat then 2 else 4
  | .bitXor ot _ src => if ot.ty = .rat then 2 else 4 + src.length c ot.ty
  | .lshift ot _ src => if ot.ty = .rat then 2 else 4 + src.length c ot.ty
  | .rshift ot _ src => if ot.ty = .rat then 2 else 4 + src.length c ot.ty
  | .load ot _ src => 4 + src.length c ot.ty
  | .multiload ot _ _ srcs => 5 + (srcs.map (·.length c ot.ty)).sum
  | .copy _ _ _ _ => 8
  | .jump _ _ => 4
  | .compare ot _ src _ _ _ => 10 + src.length c ot.ty
  | .call _ _ => 4
  | .ret => 1
  | .time _ _ => 4
  | .compareTime _ _ _ _ _ => 12
  | .urlmap _ _ _ _ url resource => 7 + url.length + resource.length
  | .urlmapCheck _ _ => 4
  | .urlmapDelete _ => 2
  | .pidInit _ f =>
      11 + f.kp.length c .rat + f.ki.length c .rat + f.kd.length c .rat + f.lo.length c .rat + f.hi.length c .rat
  | .pidClear _ => 2
  | .pidStop _ => 2
  | .pidRun _ => 2
  | .reset => 1

/-! ### The host's question about one opcode-table word -/

/-- Zero bytes that stand after a table word: more than the longest instruction whose tail is zero
(a MULTILOAD of 255 u32 literals is 1025 bytes). -/
def tableTail : Nat := 1032

/-- The bytes of an opcode-table word: `nbits / 8` bytes of `w`, the lowest first, then zeros. -/
def tableBytes (nbits w : Nat) : List Byte :=
  leBytes (nbits / 8) w ++ List.replicate tableTail 0

/-- The instruction that this hardware's decoder reads from an opcode-table word. -/
def decodeTableWord (nbits w : Nat) : Option Instr :=
  match decode Config.thisHardware (tableBytes nbits w) with
  | .instr i _ => some i
  | _ => none

end Sys2Proof
end

