-- ==== Sys2Proof/Machine/State.lean ====
section
/-! DEFINITION. The machine's state as plain data (10_state.md), the reasons a step could stop, and the state
right after power-on reset (70_reset_and_hazards.md R450). -/

namespace Sys2Proof.Machine

/-- The error codes of a fault (R402). -/
inductive ErrorCode where
  | memoryAccessViolation
  | stackOverflow
  | stackUnderflow
  | divideByZero
  | unsupportedOperand
  | unsupportedOperation
  | idUnavailable
  | pidAlreadyInitialized
  | resetRequested
deriving DecidableEq, Repr

/-- A byte store: the listed (address, byte) cells, addresses strictly rising and no byte 0; an address that
is not listed reads as 0 (data memory: R50; program store: log 1). -/
abbrev Memory := List Host.Cell

/-- One slot of the URL-mapping table (R40). -/
structure MapSlot where
  optype : Byte
  options : Byte
  valueAddress : Addr
  urlAddress : Addr
  resourceAddress : Addr
  port : BitVec 16
  status : Byte
deriving DecidableEq, Repr

/-- An unmapped slot (R45, R99). -/
def MapSlot.unmapped (c : Config.Params) : MapSlot where
  optype := 0
  options := 0
  valueAddress := c.noMapping
  urlAddress := c.noMapping
  resourceAddress := c.noMapping
  port := 0
  status := Config.noMappingFlag

/-- A controller's action: direct (0) or reverse (1) (R46). -/
inductive Direction where
  | direct
  | reverse
deriving DecidableEq, Repr

/-- A controller's mode: manual (0) or automatic (1) (R46). -/
inductive PidMode where
  | manual
  | automatic
deriving DecidableEq, Repr

/-- One PID controller (R46). Rationals are raw patterns (R202). -/
structure Pid where
  kp : Word
  ki : Word
  kd : Word
  outMin : Word
  outMax : Word
  direction : Direction
  sampleMs : BitVec 16
  iSum : Word
  lastInput : Word
  /-- µs of the time base at the last compute. -/
  lastTime : BitVec 64
  mode : PidMode
  initialized : Bool
  inAddr : Addr
  outAddr : Addr
  spAddr : Addr
  /-- The slot whose value address was `inAddr` at init, or NONE (R363). -/
  mapId : Option (Fin Config.maxSlots)
deriving DecidableEq, Repr

/-- A controller after reset (R47). -/
def Pid.resetValue : Pid where
  kp := 0
  ki := 0
  kd := 0
  outMin := 0
  outMax := 0
  direction := .direct
  sampleMs := 0
  iSum := 0
  lastInput := 0
  lastTime := 0
  mode := .manual
  initialized := false
  inAddr := 0
  outAddr := 0
  spAddr := 0
  mapId := none

/-- A controller's number; those below the parameter `nPid` exist. -/
abbrev PidId := Fin Config.maxPid

/-- Where the PID sequencer is in its sweep (R376): idle, or which access of which controller's compute
comes next (R371 to R375), with the values the compute has read so far. -/
inductive Sequencer where
  | idle
  /-- Compute `i` has not begun: its next move tests the mode and the mapping gate (R370, R371). -/
  | mapGate (i : PidId)
  /-- The time gate is next (R372). -/
  | timeGate (i : PidId)
  /-- The load of the input cell is next (R373). -/
  | readInput (i : PidId) (now : BitVec 64)
  /-- The load of the setpoint cell is next (R373). -/
  | readSetpoint (i : PidId) (now : BitVec 64) (input : Word)
  /-- The store of the output cell is next (R375). -/
  | writeOutput (i : PidId) (now : BitVec 64) (input output : Word)
deriving DecidableEq, Repr

/-- A value access of the network port between its snapshot of the entry and its data access (R417). -/
structure NetAccess where
  addr : Addr
  ty : Ty
  /-- The value to write; none for a read. -/
  value : Option Word
deriving DecidableEq, Repr

/-- A `setOutputLimits` between its load of the output cell and its store of the clamped value (R366). -/
structure LimitStore where
  id : PidId
  output : Word
deriving DecidableEq, Repr

/-- Which string of a mapping entry the network actor reads (R417). -/
inductive WhichString where
  | url
  | resource
deriving DecidableEq, Repr

/-- The operations of the network port (R417). An id is any number: one past the table is refused. -/
inductive NetOp where
  | readEntry (id : Nat)
  | readValue (id : Nat)
  | writeValue (id : Nat) (v : Word)
  | readString (id : Nat) (which : WhichString) (k : Nat)
  | mapDone (id : Nat)
  | mapError (id : Nat) (code : Byte)
deriving DecidableEq, Repr

/-- The operations of the host's ports that may run while a step is in progress: register reads and `debug`
(R414), dumps (R416), PID configuration (R418). -/
inductive HostOp where
  | readPc
  | readFlags
  | halted
  | readStatus
  | writeDebug (b : Bool)
  | dumpMemory
  | dumpMap
  | dumpStack
  | dumpPid (id : Nat)
  | setOutputLimits (id : Nat) (min max : Word)
  | setControllerDirection (id : Nat) (dir : Direction)
deriving DecidableEq, Repr

/-- One move of an agent other than the engine. -/
inductive AgentMove where
  /-- `us` microseconds pass (R48). -/
  | elapse (us : Nat)
  /-- The PID sequencer makes its next move: a tick where it is idle (R420), else its next access. -/
  | sequencer
  /-- The network actor issues an operation (R417). -/
  | net (op : NetOp)
  /-- The network actor's pending data access takes place (R417). -/
  | netFinish
  /-- The host issues an operation (R414, R416, R418). -/
  | host (op : HostOp)
  /-- The host's pending store takes place (R366). -/
  | hostFinish
deriving DecidableEq, Repr

/-- The host control operations besides `step`, serialized with the engine's steps (R415, R451, R461). -/
inductive Control where
  | load (bytes : List Byte)
  | clear
deriving DecidableEq, Repr

/-- An entry of the schedule (log 5): an agent's move; the foreground transaction makes its next access (a
step, where none is in progress); or a host control operation, which waits for the end of a step (R461). -/
inductive Input where
  | agent (m : AgentMove)
  | proceed
  | control (c : Control)
deriving DecidableEq, Repr

/-- The whole state of CLCE. Tables and bank have room for the largest legal number of entries; those below the
parameters' `mapSlots` and `nPid` exist, and no instruction or port operation names another. -/
structure State where
  /-- The parameters of R8: the model's own field, read by every rule that names one and written by none (log 4). -/
  cfg : Config.Params
  /-- R31. -/
  pc : Addr
  /-- Bit 0 HALTED, bit 1 ERROR, bit 2 DIVIDE_ZERO (R32). -/
  flags : BitVec 3
  /-- `(pc0 << 16) | (opcode << 8) | code` (R34). -/
  status : Word
  /-- R35. -/
  debug : Bool
  /-- The number of live return-stack entries, 0 to `stackDepth` (R36). -/
  sp : Nat
  /-- The return stack, `stackDepth` entries (R36). -/
  stack : List Addr
  /-- The data memory (R49, R80). -/
  mem : Memory
  /-- The mapping table (R40). -/
  map : Vector MapSlot Config.maxSlots
  /-- The PID bank (R46). -/
  pid : Vector Pid Config.maxPid
  /-- The time base T, in µs (R48). -/
  timeBase : BitVec 64
  /-- The program store (R49, R90). -/
  prog : Memory
  /-- The PID sequencer's place in its sweep (R376). -/
  seq : Sequencer
  /-- The network port's pending data access (R417). -/
  netPending : Option NetAccess
  /-- The host port's pending store (R366). -/
  hostPending : Option LimitStore
  /-- The model's own field: what the other agents and the host's control port do next, oldest first (log 5). -/
  inputs : List Input
deriving DecidableEq, Repr

/-- The reasons a step could stop with a fault of the model: there are none. A fault of the engine is a next
state (R403), and every path of every rule ends in one (R404). Safe: nothing is cut off. -/
inductive Fault where
deriving DecidableEq, Repr

/-- The reasons a step could be refused. -/
inductive Refusal where
  /-- Raised only by an arm of `exec` for an instruction without a meaning; no arm raises it. Safe. -/
  | notModelled (mnemonic : String)
deriving DecidableEq, Repr

/-- Power-on reset of the hardware with these parameters (R50, R450). `timeBase` and `prog` have no value in the spec
(I6, I7): log 2 and log 1. No tick has come, no port operation is pending, and the schedule is empty (log 5). -/
def State.resetWith (c : Config.Params) : State where
  cfg := c
  pc := 0
  flags := 0
  status := 0
  debug := false
  sp := 0
  stack := List.replicate c.stackDepth 0
  mem := []
  map := Vector.replicate Config.maxSlots (MapSlot.unmapped c)
  pid := Vector.replicate Config.maxPid Pid.resetValue
  timeBase := 0
  prog := []
  seq := .idle
  netPending := none
  hostPending := none
  inputs := []

/-- Power-on reset of this hardware (R8, R450). -/
def State.reset : State := State.resetWith Config.thisHardware

end Sys2Proof.Machine
end

