-- ==== Sys2Proof/Machine/Memory.lean ====
section
/-! DEFINITION. Byte stores in canonical form: reading and writing bytes and runs of bytes (20_memory.md R84 to
R88). Bounds checks are in Ops.lean. -/

namespace Sys2Proof.Machine

/-- The byte at an address; an unlisted one reads as 0. -/
def Memory.read : Memory → Nat → Byte
  | [], _ => 0
  | (k, b) :: m, a => if k = a then b else Memory.read m a

/-- A cell ahead of the rest; a byte 0 is not listed. -/
def Memory.put (a : Nat) (b : Byte) (rest : Memory) : Memory :=
  if b = 0 then rest else (a, b) :: rest

/-- Write one byte, keeping the canonical form: writing 0 removes the cell. -/
def Memory.write : Memory → Nat → Byte → Memory
  | [], a, b => Memory.put a b []
  | (k, c) :: m, a, b =>
      if a < k then Memory.put a b ((k, c) :: m)
      else if a = k then Memory.put a b m
      else (k, c) :: Memory.write m a b

/-- The `n` bytes from `a` up. -/
def Memory.readBytes (m : Memory) (a : Nat) : Nat → List Byte
  | 0 => []
  | n + 1 => m.read a :: Memory.readBytes m (a + 1) n

/-- Write a run of bytes from `a` up. -/
def Memory.writeBytes (m : Memory) (a : Nat) : List Byte → Memory
  | [] => m
  | b :: bs => Memory.writeBytes (m.write a b) (a + 1) bs

/-- The canonical form from address `lo` up: addresses strictly rising, below `cap`, and no byte 0. -/
def Memory.wfFrom (cap : Nat) : Nat → Memory → Bool
  | _, [] => true
  | lo, (k, b) :: m => decide (lo ≤ k) && decide (k < cap) && b != 0 && Memory.wfFrom cap (k + 1) m

/-- The canonical form of a store of `cap` bytes. -/
def Memory.wf (cap : Nat) (m : Memory) : Bool := Memory.wfFrom cap 0 m

end Sys2Proof.Machine
end

