-- ==== Sys2Proof/Machine/Flags.lean ====
section
/-! DEFINITION. The `flags` and `status` registers (10_state.md R32 to R34) and the error codes (60_exceptions.md
R402). No instruction computes a flag from a result: only HALT, faults and RESET set flags. -/

namespace Sys2Proof.Machine

/-- HALTED, bit 0 (R32). -/
def haltedBit : BitVec 3 := 0b001

/-- ERROR, bit 1 (R32). -/
def errorBit : BitVec 3 := 0b010

/-- DIVIDE_ZERO, bit 2 (R32). -/
def divideZeroBit : BitVec 3 := 0b100

/-- The engine is in state Halted (R33). -/
def State.halted (s : State) : Bool := s.flags.getLsbD 0

/-- The ERROR flag. -/
def State.error (s : State) : Bool := s.flags.getLsbD 1

/-- The DIVIDE_ZERO flag. -/
def State.divideZero (s : State) : Bool := s.flags.getLsbD 2

/-- Set flag bits. -/
def State.setFlags (f : BitVec 3) (s : State) : State := { s with flags := s.flags ||| f }

/-- The number of an error code (R402). -/
def ErrorCode.code : ErrorCode → Byte
  | .memoryAccessViolation => 1
  | .stackOverflow => 2
  | .stackUnderflow => 3
  | .divideByZero => 4
  | .unsupportedOperand => 5
  | .unsupportedOperation => 6
  | .idUnavailable => 7
  | .pidAlreadyInitialized => 8
  | .resetRequested => 9

/-- The seed `(pc0 << 16) | (op << 8)` (R34, R400). -/
def seedStatus (pc0 : Addr) (op : Byte) : Word := pc0 ++ op ++ (0 : Byte)

/-- Seed the status code before dispatch (R400). -/
def State.seed (op : Byte) (s : State) : State := { s with status := seedStatus s.pc op }

end Sys2Proof.Machine
end

