-- ==== Sys2Proof/Machine/Numeric.lean ====
section
/-! DEFINITION. Numeric representations and fixed-point primitives (40_numeric.md). A typed value is a
mathematical integer, as in the spec's pseudocode (R10): an unsigned value, or a rational's signed raw
integer (R202). -/

namespace Sys2Proof.Machine

/-- `wrap_N(v) = v mod 2^N` (R11). -/
def wrap (n : Nat) (v : Int) : Int := v % 2 ^ n

/-- `sext_32(v)`: a 32-bit pattern read as two's complement (R11). -/
def sext32 (v : Int) : Int := if 2 ^ 31 ≤ v then v - 2 ^ 32 else v

/-- `sat32(x)` (R213). -/
def sat32 (x : Int) : Int := min (max x (-(2 ^ 31))) (2 ^ 31 - 1)

/-- The raw rational's scale, `2^RAT_FRAC` (R8, R202). -/
def ratScale (c : Config.Params) : Int := 2 ^ c.ratFrac

/-- The bits of a type's raw value; a rational's raw value has 32 (R9, R201, R202). -/
def bits : Ty → Nat
  | .u32 => 32
  | .rat => 32
  | .u8 => 8
  | .u16 => 16

/-- The value of a raw little-endian pattern: signed for a rational, unsigned otherwise (R84, R202). -/
def ofRaw (t : Ty) (raw : Nat) : Int :=
  match t with
  | .rat => sext32 (wrap 32 raw)
  | _ => raw

/-- The pattern that `Store_T` writes (R84). -/
def toRaw (t : Ty) (v : Int) : Nat := (wrap (bits t) v).toNat

/-! ### Rational arithmetic (R204 to R207) -/

def ratAdd (a b : Int) : Int := sext32 (wrap 32 (a + b))

def ratSub (a b : Int) : Int := sext32 (wrap 32 (a - b))

/-- The exact product shifted right by `RAT_FRAC` bits toward negative infinity (R205). -/
def ratMul (c : Config.Params) (a b : Int) : Int := sext32 (wrap 32 (Int.fdiv (a * b) (ratScale c)))

/-- Truncation toward zero of the scaled dividend (R206). -/
def ratDiv (c : Config.Params) (a b : Int) : Int := sext32 (wrap 32 (Int.tdiv (a * ratScale c) b))

/-- The remainder with the sign of the dividend (R207). -/
def ratMod (a b : Int) : Int := Int.tmod a b

/-! ### The results of the two-operand instructions, by type -/

/-- ADD (R230). -/
def addResult (t : Ty) (d v : Int) : Int :=
  if t = .rat then ratAdd d v else wrap (bits t) (d + v)

/-- SUB: destination minus source (R231). -/
def subResult (t : Ty) (d v : Int) : Int :=
  if t = .rat then ratSub d v else wrap (bits t) (d - v)

/-- MUL (R232). -/
def mulResult (c : Config.Params) (t : Ty) (d v : Int) : Int :=
  if t = .rat then ratMul c d v else wrap (bits t) (d * v)

/-- DIV for a divisor that is not 0 (R233). -/
def divResult (c : Config.Params) (t : Ty) (d v : Int) : Int :=
  if t = .rat then ratDiv c d v else Int.fdiv d v

/-- MOD for a divisor that is not 0 (R234). -/
def modResult (t : Ty) (d v : Int) : Int :=
  if t = .rat then ratMod d v else d - v * Int.fdiv d v

/-- AND (R250). -/
def andResult (d v : Int) : Int := ((d.toNat &&& v.toNat : Nat) : Int)

/-- OR (R251). -/
def orResult (d v : Int) : Int := ((d.toNat ||| v.toNat : Nat) : Int)

/-- XOR (R253). -/
def xorResult (d v : Int) : Int := ((d.toNat ^^^ v.toNat : Nat) : Int)

/-- NOT: `(2^W - 1) - d` (R252). -/
def notResult (t : Ty) (d : Int) : Int := 2 ^ bits t - 1 - d

/-- LSHIFT: an amount of the width or more gives 0 (R249, R254). -/
def lshiftResult (t : Ty) (d v : Int) : Int :=
  if (bits t : Int) ≤ v then 0 else wrap (bits t) (d * 2 ^ v.toNat)

/-- RSHIFT: logical; an amount of the width or more gives 0 (R249, R255). -/
def rshiftResult (t : Ty) (d v : Int) : Int :=
  if (bits t : Int) ≤ v then 0 else Int.fdiv d (2 ^ v.toNat)

/-! ### The PID datapath (R211 to R213, R361) -/

/-- The exact product of two raw rationals, rounded toward negative infinity (R211). -/
def qmul (c : Config.Params) (a b : Int) : Int := Int.fdiv (a * b) (ratScale c)

/-- The clamp tests the upper limit first (R212). -/
def clamp (x lo hi : Int) : Int := if hi < x then hi else if x < lo then lo else x

/-- A clamped result as it is stored. -/
def clampWord (x : Int) (lo hi : Word) : Word := BitVec.ofInt 32 (clamp x lo.toInt hi.toInt)

/-- `sat32` of an integer, as it is stored. -/
def satWord (x : Int) : Word := BitVec.ofInt 32 (sat32 x)

/-- `ki * st` truncated to ms: `ki1` of R361. -/
def scaledKi (ki : Int) (st : Nat) : Int := Int.tdiv (ki * st) 1000

/-- `kd1` of R361. -/
def scaledKd (kd : Int) (st : Nat) : Int := Int.tdiv (kd * 1000) st

end Sys2Proof.Machine
end

