-- ==== Sys2Proof/Machine/Ops.lean ====
section
/-! DEFINITION. The named operations over the state: results that may raise a fault, fault entry and the way
out of Halted, bounds-checked data memory, the return stack, and the mapping table. -/

namespace Sys2Proof.Machine

/-! ### Results -/

/-- What a piece of an instruction answers: a value and the state it left, or a fault and the state at the
moment it was raised (R13, R403). -/
inductive Res (α : Type) where
  | done (a : α) (s : State)
  | raised (e : ErrorCode) (s : State)

/-- Go on from a result; the first `raise` reached ends the instruction (R13, R405). -/
def Res.bind {α β : Type} (r : Res α) (f : α → State → Res β) : Res β :=
  match r with
  | .done a s => f a s
  | .raised e s => .raised e s

/-! ### Fault entry (R403) and the way out of Halted (R409) -/

/-- `halt_with(k)`: ERROR and HALTED set, the code ORed into `status`, `pc` back at the failing instruction.
The one place a fault is taken; nothing else is saved and there is no vector (R403, R407). No other agent has a turn
among these writes (DESIGN CHOICE, log 27). -/
def haltWith (e : ErrorCode) (pc0 : Addr) (s : State) : State :=
  { s with
    flags := s.flags ||| (errorBit ||| haltedBit)
    status := s.status ||| e.code.setWidth 32
    pc := pc0 }

/-- The last part of `clear()`: `pc`, `flags` and `status` back to 0, the engine Running. There is no trap
return (R409): this is the one way out of Halted (R401, R451). No other agent has a turn among these writes
(DESIGN CHOICE, log 27). -/
def restart (s : State) : State := { s with pc := 0, flags := 0, status := 0 }

/-- The `pc` after a sequential instruction of `len` bytes: `wrap_16(cur)` (R155). -/
def pcAfter (pc0 : Addr) (len : Nat) : Addr := pc0 + BitVec.ofNat 16 len

/-- End an instruction: at the next `pc` it answers, or in the fault entry. No other agent has a turn between its
last access and these register writes (DESIGN CHOICE, log 27). -/
def conclude (pc0 : Addr) (r : Res Addr) : Host.Outcome State Fault Refusal :=
  match r with
  | .done target s => .next { s with pc := target }
  | .raised e s => .next (haltWith e pc0 s)

/-- End a sequential instruction of `len` bytes (R155). -/
def concludeAfter (pc0 : Addr) (len : Nat) (r : Res Unit) : Host.Outcome State Fault Refusal :=
  conclude pc0 (r.bind fun _ s => .done (pcAfter pc0 len) s)

/-! ### Bounds-checked data memory (R81, R84, R88) -/

/-- `check(a, n)` for `n ≥ 1`: `a + n - 1 < C`, over the integers (R81). -/
def inBounds (a n : Nat) (s : State) : Bool := decide (a + n ≤ s.cfg.memCap)

/-- `MemRead(a, n)` (R84); none where the check fails. -/
def memRead (a n : Nat) (s : State) : Option Nat :=
  if inBounds a n s then some (leValue (s.mem.readBytes a n)) else none

/-- `MemWrite(a, n, v)` (R84); none where the check fails, and then no byte is written (R82). -/
def memWrite (a n v : Nat) (s : State) : Option State :=
  if inBounds a n s then some { s with mem := s.mem.writeBytes a (leBytes n v) } else none

/-- `Load_rat(a)` as a raw pattern. -/
def loadRat (a : Addr) (s : State) : Option Word := (memRead a.toNat s.cfg.ratBytes s).map (BitVec.ofNat 32)

/-- `Store_rat(a, v)` of a raw pattern. -/
def storeRat (a : Addr) (v : Word) (s : State) : Option State := memWrite a.toNat s.cfg.ratBytes v.toNat s

/-! ### Program store (R90) -/

/-- The program bytes from `a` to `P - 1`. -/
def programFrom (a : Addr) (s : State) : List Byte :=
  s.prog.readBytes a.toNat (s.cfg.progCap - a.toNat)

/-! ### Return stack (R38) -/

/-- `push(v)`. -/
def push (v : Addr) (s : State) : Res Unit :=
  if s.sp < s.cfg.stackDepth then .done () { s with sp := s.sp + 1, stack := s.stack.set s.sp v }
  else .raised .stackOverflow s

/-- `pop()`: the popped entry keeps its value. (An entry past the end of the list, which no sound state has, reads
as 0.) -/
def pop (s : State) : Res Addr :=
  match s.sp with
  | 0 => .raised .stackUnderflow s
  | n + 1 => .done (s.stack.getD n 0) { s with sp := n }

/-- `peek()`: the top of the return stack, which stays. No instruction uses it (R37). -/
def peek (s : State) : Res Addr :=
  match s.sp with
  | 0 => .raised .stackUnderflow s
  | n + 1 => .done (s.stack.getD n 0) s

/-- `isFull` (R37). -/
def stackIsFull (s : State) : Bool := s.sp == s.cfg.stackDepth

/-- `isEmpty` (R37). -/
def stackIsEmpty (s : State) : Bool := s.sp == 0

/-- The stack's part of `clear()`. -/
def clearStack (s : State) : State :=
  { s with sp := 0, stack := List.replicate s.cfg.stackDepth 0 }

/-! ### Mapping table (R94 to R100) -/

/-- The slot is active (R43). -/
def MapSlot.active (c : Config.Params) (m : MapSlot) : Bool :=
  m.valueAddress != c.noMapping && m.urlAddress != c.noMapping &&
    m.resourceAddress != c.noMapping && !m.status.getLsbD 7

/-- The mapped value's type: TYPE of the stored optype byte (R417). -/
def MapSlot.ty (m : MapSlot) : Ty := (Optype.ofByte m.optype).ty

/-- A mapping slot's number; those below the parameter `mapSlots` exist. -/
abbrev SlotId := Fin Config.maxSlots

/-- The slot that an id names; none for an id of `M` or more (R94, R417). -/
def slotOf (id : Nat) (s : State) : Option SlotId :=
  if h : id < s.cfg.mapSlots ∧ id < Config.maxSlots then some ⟨id, h.2⟩ else none

/-- Replace one slot. -/
def setSlot (id : SlotId) (m : MapSlot) (s : State) : State := { s with map := s.map.set id m }

/-- `map(id, …)` (R94): every field written, the status 0x00. -/
def mapEntry (id : Nat) (m : MapSlot) (s : State) : Res Unit :=
  match slotOf id s with
  | some k => .done () (setSlot k { m with status := 0 } s)
  | none => .raised .idUnavailable s

/-- `unmap(id)` (R99). -/
def unmap (id : Nat) (s : State) : Res Unit :=
  match slotOf id s with
  | some k => .done () (setSlot k (MapSlot.unmapped s.cfg) s)
  | none => .raised .idUnavailable s

/-- The byte that `checkMap` returns for a slot (R95). -/
def slotReport (c : Config.Params) (m : MapSlot) : Byte := if m.active c then m.status else 0

/-- `checkMap` with `deleteAfterDone` unmaps this slot: active, exactly DONE, lifetime "once" (R42, R95). -/
def MapSlot.expires (c : Config.Params) (m : MapSlot) : Bool :=
  m.active c && m.status == Config.statusDone && m.options.getLsbD 0

/-- `checkMap(id, del)` (R95), one transaction. -/
def checkMap (id : Nat) (del : Bool) (s : State) : Res Byte :=
  match slotOf id s with
  | some k =>
      .done (slotReport s.cfg s.map[k]) (if del && s.map[k].expires s.cfg then setSlot k (MapSlot.unmapped s.cfg) s else s)
  | none => .raised .idUnavailable s

/-- `mapDone(id)` (R96). -/
def mapDone (id : SlotId) (s : State) : State :=
  if s.map[id].active s.cfg then
    setSlot id { s.map[id] with status := s.map[id].status ||| Config.statusDone } s
  else s

/-- `mapError(id, code)` (R97). -/
def mapError (id : SlotId) (code : Byte) (s : State) : State :=
  if s.map[id].active s.cfg then
    setSlot id { s.map[id] with
      status := s.map[id].status ||| (code &&& Config.errMask) ||| Config.statusDone } s
  else s

/-- `getMapForAddress(addr)`: the lowest slot with that value address, active or not (R98). -/
def getMapForAddress (a : Addr) (s : State) : Option SlotId :=
  (List.finRange Config.maxSlots).find? fun i =>
    decide (i.val < s.cfg.mapSlots) && s.map[i].valueAddress == a

/-- The mapping part of `clear()` and RESET (R100), one transaction (R102). A place without a slot is unmapped in
every state that a run reaches. -/
def clearMap (s : State) : State :=
  { s with map := Vector.replicate Config.maxSlots (MapSlot.unmapped s.cfg) }

/-- The data-memory part of `clear()` and RESET (R89), one access (log 7). -/
def clearMem (s : State) : State := { s with mem := [] }

end Sys2Proof.Machine
end

