-- ==== Sys2Proof/Machine/Pid.lean ====
section
/-! DEFINITION. The PID bank (47_pid.md): the configuration that `init` stores, compute as the sequence of its
accesses, the bank operations of the host's PID configuration port, and the exclusion of R378. -/

namespace Sys2Proof.Machine

/-- The controller that an id names; none for an id of `N` or more (R351, R418). -/
def pidOf (id : Nat) (s : State) : Option PidId :=
  if h : id < s.cfg.nPid ∧ id < Config.maxPid then some ⟨id, h.2⟩ else none

/-- Replace one controller. -/
def setPid (i : PidId) (p : Pid) (s : State) : State := { s with pid := s.pid.set i p }

/-- A controller computes only when initialized and automatic (R370). -/
def Pid.live (p : Pid) : Bool := p.initialized && p.mode == .automatic

/-! ### The configuration that `init` stores (R360 to R364) -/

/-- The arguments of `init` after the engine has decoded them; rationals are raw signed integers. -/
structure PidInitArgs where
  inAddr : Addr
  outAddr : Addr
  spAddr : Addr
  kp : Int
  ki : Int
  kd : Int
  sampleMs : Nat
  dir : Direction
  lo : Int
  hi : Int
deriving DecidableEq, Repr

/-- `st <- max(ms, PID_MIN_SAMPLE_MS)` (R360). -/
def sampleFloor (c : Config.Params) (ms : Nat) : Nat := max ms c.pidMinSampleMs.toNat

/-- A gain as stored: negated if the direction is reverse, then saturated (R361). -/
def storedGain (dir : Direction) (g : Int) : Word :=
  satWord (if dir = .reverse then -g else g)

/-- The direction a PIDINIT `dir` byte selects: bit 0, bits 7:1 ignored (R352). -/
def Direction.ofByte (b : Byte) : Direction := if b.getLsbD 0 then .reverse else .direct

/-- The controller that `init` leaves (R360): gains scaled by R361, manual, `iSum` and `lastInput` 0 (R364),
`lastTime` one sample period before now (R362), the mapping of the input address (R363). -/
def initialController (c : Config.Params) (a : PidInitArgs) (now : BitVec 64) (mapId : Option SlotId) : Pid where
  kp := storedGain a.dir a.kp
  ki := storedGain a.dir (scaledKi a.ki (sampleFloor c a.sampleMs))
  kd := storedGain a.dir (scaledKd a.kd (sampleFloor c a.sampleMs))
  outMin := BitVec.ofInt 32 a.lo
  outMax := BitVec.ofInt 32 a.hi
  direction := a.dir
  sampleMs := BitVec.ofNat 16 (sampleFloor c a.sampleMs)
  iSum := 0
  lastInput := 0
  lastTime := now - BitVec.ofNat 64 (sampleFloor c a.sampleMs * 1000)
  mode := .manual
  initialized := true
  inAddr := a.inAddr
  outAddr := a.outAddr
  spAddr := a.spAddr
  mapId := mapId

/-- The bound addresses pass the check of `init`, each for the bytes of a rational (R360). -/
def boundAddressesValid (inAddr outAddr spAddr : Addr) (s : State) : Bool :=
  inBounds inAddr.toNat s.cfg.ratBytes s && inBounds outAddr.toNat s.cfg.ratBytes s &&
    inBounds spAddr.toNat s.cfg.ratBytes s

/-- The seeding of a bump-less start (R365), from the output and input cells. -/
def Pid.seeded (p : Pid) (o i : Word) : Pid :=
  { p with iSum := clampWord o.toInt p.outMin p.outMax, lastInput := i }

/-! ### The numbers of one compute (R373, R374) -/

/-- `iSum` after a compute: the accumulator itself is clamped (R373). -/
def nextISum (c : Config.Params) (p : Pid) (input setpoint : Word) : Word :=
  clampWord (p.iSum.toInt + qmul c p.ki.toInt (setpoint.toInt - input.toInt)) p.outMin p.outMax

/-- The output of a compute; `iSum` is the value R373 has just updated (R374). -/
def nextOutput (c : Config.Params) (p : Pid) (iSum input setpoint : Word) : Word :=
  clampWord
    (qmul c p.kp.toInt (setpoint.toInt - input.toInt) + iSum.toInt -
      qmul c p.kd.toInt (input.toInt - p.lastInput.toInt))
    p.outMin p.outMax

/-- The mapping gate lets the compute go on: no bound mapping, or its raw status is 0 or exactly DONE (R371). -/
def mapGateOpen (p : Pid) (s : State) : Bool :=
  match p.mapId with
  | none => true
  | some k => slotReport s.cfg s.map[k] == 0 || slotReport s.cfg s.map[k] == Config.statusDone

/-- The time gate lets the compute go on: at least a sample period has passed (R372). -/
def timeGateOpen (p : Pid) (now : BitVec 64) : Bool :=
  decide (p.sampleMs.toNat * 1000 ≤ (now - p.lastTime).toNat)

/-! ### Exclusion of transactions on one controller (R378; log 8) -/

/-- The sequencer is inside the compute of controller `i`. -/
def Sequencer.holds (i : PidId) : Sequencer → Bool
  | .idle => false
  | .mapGate _ => false
  | .timeGate j => j == i
  | .readInput j _ => j == i
  | .readSetpoint j _ _ => j == i
  | .writeOutput j _ _ _ => j == i

/-- The host's pending store takes place, and with it the rest of `setOutputLimits` (R366). -/
def hostFinish (s : State) : State :=
  match s.hostPending with
  | none => s
  | some l =>
      let p := s.pid[l.id]
      let s' := (storeRat p.outAddr l.output s).getD s
      setPid l.id { p with iSum := clampWord p.iSum.toInt p.outMin p.outMax }
        { s' with hostPending := none }

/-- Complete a host transaction in progress on controller `i`. -/
def finishHostOn (i : PidId) (s : State) : State :=
  match s.hostPending with
  | none => s
  | some l => if l.id = i then hostFinish s else s

/-! ### The sequencer, one access at a time (R370 to R376) -/

/-- After controller `i` the sweep goes on with the next one, or ends (R376). -/
def sweepAfter (i : PidId) (s : State) : Sequencer :=
  match pidOf (i.val + 1) s with
  | some j => .mapGate j
  | none => .idle

/-- The sequencer's next move. Where it is idle this is a tick (R420); the other moves are the tests and the
accesses of one compute in the order of R370 to R375. A bound address that fails its check, which no
initialized controller has (R360), ends the compute (R82; log 10). -/
def sequencerMove (s : State) : State :=
  match s.seq with
  | .idle => { s with seq := .mapGate 0 }
  | .mapGate i =>
      let s := finishHostOn i s
      if s.pid[i].live && mapGateOpen s.pid[i] s then { s with seq := .timeGate i }
      else { s with seq := sweepAfter i s }
  | .timeGate i =>
      if timeGateOpen s.pid[i] s.timeBase then { s with seq := .readInput i s.timeBase }
      else { s with seq := sweepAfter i s }
  | .readInput i now =>
      match loadRat s.pid[i].inAddr s with
      | none => { s with seq := sweepAfter i s }
      | some input => { s with seq := .readSetpoint i now input }
  | .readSetpoint i now input =>
      match loadRat s.pid[i].spAddr s with
      | none => { s with seq := sweepAfter i s }
      | some setpoint =>
          let p := s.pid[i]
          let iSum := nextISum s.cfg p input setpoint
          setPid i { p with iSum := iSum }
            { s with seq := .writeOutput i now input (nextOutput s.cfg p iSum input setpoint) }
  | .writeOutput i now input output =>
      let p := s.pid[i]
      match storeRat p.outAddr output s with
      | none => { s with seq := sweepAfter i s }
      | some s' =>
          setPid i { p with lastInput := input, lastTime := now } { s' with seq := sweepAfter i s }

/-- Complete the compute in progress on controller `i`, in at most `n` moves. -/
def finishSequencerOn (i : PidId) : Nat → State → State
  | 0, s => s
  | n + 1, s => if s.seq.holds i then finishSequencerOn i n (sequencerMove s) else s

/-- Begin a transaction on controller `i`: one that is in progress on it completes first (R378; log 8). A
compute makes at most 4 moves after its first. -/
def acquire (i : PidId) (s : State) : State := finishSequencerOn i 4 (finishHostOn i s)

/-! ### Bank operations without memory accesses, and those of the host's port -/

/-- `clear(id)`: marks uninitialized, changes no other field (R368). -/
def pidClearOp (i : PidId) (s : State) : State := setPid i { s.pid[i] with initialized := false } s

/-- The bank's part of `clear()` and RESET for one controller (R369). -/
def pidResetOp (i : PidId) (s : State) : State := setPid i Pid.resetValue s

/-- `setOutputLimits(id, min, max)` up to its store (R366): where the clamp changes the output cell, the store
is left pending, since other agents may act between the load and the store (R378). -/
def setOutputLimits (i : PidId) (lo hi : Word) (s : State) : State :=
  if hi.toInt ≤ lo.toInt then s
  else
    let p := { s.pid[i] with outMin := lo, outMax := hi }
    if p.live then
      match loadRat p.outAddr s with
      | none => setPid i p s
      | some o =>
          if clampWord o.toInt lo hi = o then
            setPid i { p with iSum := clampWord p.iSum.toInt lo hi } s
          else { setPid i p s with hostPending := some ⟨i, clampWord o.toInt lo hi⟩ }
    else setPid i p s

/-- `setControllerDirection(id, dir)` (R367). -/
def setControllerDirection (i : PidId) (dir : Direction) (s : State) : State :=
  let p := s.pid[i]
  let p := if p.live && dir != p.direction then
      { p with
        kp := satWord (-p.kp.toInt)
        ki := satWord (-p.ki.toInt)
        kd := satWord (-p.kd.toInt) }
    else p
  setPid i { p with direction := dir } s

end Sys2Proof.Machine
end

