-- ==== Sys2Proof/Machine/Ports.lean ====
section
/-! DEFINITION. The ports (60_exceptions.md R412 to R420): what each operation does to the state, and what it
answers to its caller. Answers are functions of the state, not state (log 12). -/

namespace Sys2Proof.Machine

/-- What a port answers to its caller. -/
inductive Reply where
  /-- The operation has an effect and returns nothing. -/
  | unit
  /-- No effect; reported to the caller only (R417, I17 to I19). -/
  | refused
  | bit (b : Bool)
  | byte (b : Byte)
  | half (v : Addr)
  | word (v : Word)
  | bytes (l : List Byte)
  /-- The slot's 11 bytes, and whether it is active. -/
  | entry (l : List Byte) (active : Bool)
  | controller (p : Pid)
deriving DecidableEq, Repr

/-! ### Dumps (R416) -/

/-- The 11 bytes of a slot (R416). -/
def MapSlot.dump (m : MapSlot) : List Byte :=
  [m.optype, m.options] ++ encodeAddr m.valueAddress ++ encodeAddr m.urlAddress ++
    encodeAddr m.resourceAddress ++ encodeAddr m.port ++ [m.status]

def dumpMemory (s : State) : List Byte := s.mem.readBytes 0 s.cfg.memCap

/-- The `M` slots in id order (R416). -/
def dumpMap (s : State) : List Byte := (s.map.toList.take s.cfg.mapSlots).flatMap MapSlot.dump

def dumpStack (s : State) : List Byte :=
  leBytes 2 s.sp ++ s.stack.flatMap encodeAddr

/-! ### Host ports (R414, R416, R418) -/

/-- The effect of a host operation. A bank transaction waits for one in progress on its controller (R378). A
PID-configuration operation waits for the host's own pending store on any controller, and no other host operation
does (DESIGN CHOICE, log 24). A `dumpPid` of an id of `N` or more has no effect (DESIGN CHOICE, log 25). -/
def hostAct (op : HostOp) (s : State) : State :=
  match op with
  | .readPc => s
  | .readFlags => s
  | .halted => s
  | .readStatus => s
  | .writeDebug b => { s with debug := b }
  | .dumpMemory => s
  | .dumpMap => s
  | .dumpStack => s
  | .dumpPid id =>
      match pidOf id s with
      | some i => acquire i s
      | none => s
  | .setOutputLimits id lo hi =>
      match pidOf id s with
      | some i => setOutputLimits i lo hi (acquire i (hostFinish s))
      | none => s
  | .setControllerDirection id dir =>
      match pidOf id s with
      | some i => setControllerDirection i dir (acquire i (hostFinish s))
      | none => s

/-- The answer to a host operation. An operation on a controller that does not exist is refused: for the
PID-configuration operations by R418 and I19, for `dumpPid`, of which the spec does not say it, by the model's own
choice (DESIGN CHOICE, log 25). -/
def hostReply (op : HostOp) (s : State) : Reply :=
  match op with
  | .readPc => .half s.pc
  | .readFlags => .byte (s.flags.setWidth 8)
  | .halted => .bit s.halted
  | .readStatus => .word s.status
  | .writeDebug _ => .unit
  | .dumpMemory => .bytes (dumpMemory s)
  | .dumpMap => .bytes (dumpMap s)
  | .dumpStack => .bytes (dumpStack s)
  | .dumpPid id =>
      match pidOf id s with
      | some i => .controller (acquire i s).pid[i]
      | none => .refused
  | .setOutputLimits id _ _ => if (pidOf id s).isSome then .unit else .refused
  | .setControllerDirection id _ => if (pidOf id s).isSome then .unit else .refused

/-! ### Network port (R417) -/

/-- The snapshot of an entry for a value access: none where the operation is refused (R417, I18; log 13). -/
def valueAccess (id : Nat) (v : Option Word) (s : State) : Option NetAccess :=
  match slotOf id s with
  | none => none
  | some k =>
      let m := s.map[k]
      if m.active s.cfg && inBounds m.valueAddress.toNat (m.ty.width s.cfg) s then some ⟨m.valueAddress, m.ty, v⟩ else none

/-- The byte of a string: from the program store where the string's mode is literal, else from data memory;
refused past the end of the store (R417), and on an inactive slot (I18; log 14). -/
def stringByte (id : Nat) (which : WhichString) (k : Nat) (s : State) : Option Byte :=
  match slotOf id s with
  | none => none
  | some j =>
      let m := s.map[j]
      let ot := Optype.ofByte m.optype
      let at_ := (match which with | .url => m.urlAddress.toNat | .resource => m.resourceAddress.toNat) + k
      let mode := match which with | .url => ot.mode | .resource => ot.mode2
      if m.active s.cfg then
        match mode with
        | .literal => if at_ < s.cfg.progCap then some (s.prog.read at_) else none
        | .address => if inBounds at_ 1 s then some (s.mem.read at_) else none
      else none

/-- The network actor's pending data access takes place (R417). -/
def netFinish (s : State) : State :=
  match s.netPending with
  | none => s
  | some a =>
      match a.value with
      | none => { s with netPending := none }
      | some v => { (memWrite a.addr.toNat (a.ty.width s.cfg) v.toNat s).getD s with netPending := none }

/-- The answer of the pending data access: the value of a read. -/
def netFinishReply (s : State) : Reply :=
  match s.netPending with
  | none => .refused
  | some a =>
      match a.value with
      | some _ => .unit
      | none =>
          match memRead a.addr.toNat (a.ty.width s.cfg) s with
          | some v => .word (BitVec.ofNat 32 v)
          | none => .refused

/-- The effect of a network operation, with the actor's own pending access done (log 13): a value operation
takes its snapshot and leaves its data access pending. -/
def netBegin (op : NetOp) (s : State) : State :=
  match op with
  | .readEntry _ => s
  | .readValue id => { s with netPending := valueAccess id none s }
  | .writeValue id v => { s with netPending := valueAccess id (some v) s }
  | .readString _ _ _ => s
  | .mapDone id =>
      match slotOf id s with
      | some k => mapDone k s
      | none => s
  | .mapError id code =>
      match slotOf id s with
      | some k => mapError k code s
      | none => s

/-- The network actor's report of "not found": `mapError` with the parameter `ERR_404` (R8, R97). -/
def reportNotFound (id : Nat) (s : State) : NetOp := .mapError id s.cfg.err404

/-- A network operation is issued: the actor's own pending access comes first (log 13). -/
def netAct (op : NetOp) (s : State) : State := netBegin op (netFinish s)

/-- The slot that an id names is active, so an operation that asks for an active slot is not refused (R417, I18). -/
def namesActive (id : Nat) (s : State) : Bool :=
  match slotOf id s with
  | some k => s.map[k].active s.cfg
  | none => false

/-- The answer of an operation in the state it finds. A value operation that is not refused answers at its data
access, with `netFinishReply`. `mapDone` and `mapError` on an inactive slot have no effect (R96, R97) and are reported
as refused (I18). -/
def netAnswer (op : NetOp) (s : State) : Reply :=
  match op with
  | .readEntry id =>
      match slotOf id s with
      | some k => .entry s.map[k].dump (s.map[k].active s.cfg)
      | none => .refused
  | .readValue id => if (valueAccess id none s).isSome then .unit else .refused
  | .writeValue id v => if (valueAccess id (some v) s).isSome then .unit else .refused
  | .readString id which k =>
      match stringByte id which k s with
      | some b => .byte b
      | none => .refused
  | .mapDone id => if namesActive id s then .unit else .refused
  | .mapError id _ => if namesActive id s then .unit else .refused

/-- The answer to a network operation that is issued: like its effect, it finds the state that the actor's own
pending access leaves (log 13). -/
def netReply (op : NetOp) (s : State) : Reply := netAnswer op (netFinish s)

/-- The answer to a program load: refused when longer than the program store (R415, I17). -/
def loadReply (bytes : List Byte) (s : State) : Reply :=
  if s.cfg.progCap < bytes.length then .refused else .unit

end Sys2Proof.Machine
end

