-- ==== Sys2Proof/Machine/Agents.lean ====
section
/-! DEFINITION. The other agents' moves and how they fall between the accesses of a transaction
(20_memory.md R103 to R108, 60_exceptions.md R421; log 5, log 6), and the host's control operations `clear`
and `load` (R415, R451), whose parts the other agents may act between (R463). -/

namespace Sys2Proof.Machine

/-- One move of another agent. None of them touches `pc`, `flags`, `status`, the return stack or the program
store (R407, R421). -/
def agentMove (m : AgentMove) (s : State) : State :=
  match m with
  | .elapse us => { s with timeBase := s.timeBase + BitVec.ofNat 64 us }
  | .sequencer => sequencerMove s
  | .net op => netAct op s
  | .netFinish => netFinish s
  | .host op => hostAct op s
  | .hostFinish => hostFinish s

/-- The foreground transaction holds controller `i`, and the move would begin another transaction on it: it has
to wait (R378; log 9). -/
def blocked (held : Option PidId) (m : AgentMove) (s : State) : Bool :=
  match held with
  | none => false
  | some i =>
      match m with
      | .elapse _ => false
      | .sequencer => s.seq == .mapGate i
      | .net _ => false
      | .netFinish => false
      | .host (.dumpPid id) => id == i.val
      | .host (.setOutputLimits id _ _) => id == i.val
      | .host (.setControllerDirection id _) => id == i.val
      | .host _ => false
      | .hostFinish => false

/-- Perform the moves at the head of a schedule, up to the next `proceed` (which is taken), a move that has to
wait, or a control operation (which waits for the end of the step, R461). -/
def runMoves (held : Option PidId) : List Input → State → State
  | [], s => { s with inputs := [] }
  | .agent m :: rest, s =>
      if blocked held m s then { s with inputs := .agent m :: rest }
      else runMoves held rest (agentMove m s)
  | .proceed :: rest, s => { s with inputs := rest }
  | .control c :: rest, s => { s with inputs := .control c :: rest }

/-- The other agents' turn before the foreground transaction's next access (R105, R107). `held` is the
controller the transaction holds. -/
def turn (held : Option PidId) (s : State) : State := runMoves held s.inputs s

/-! ### Clearing (R89, R369, R451) -/

/-- Every controller of a list at its reset value, one bank transaction each (R369). -/
def clearBank : List PidId → State → State
  | [], s => s
  | i :: is, s => clearBank is (pidResetOp i (acquire i (turn none s)))

/-- The controllers of the bank, in the order of their ids. -/
def presentPids (s : State) : List PidId :=
  (List.finRange Config.maxPid).filter fun i => i.val < s.cfg.nPid

/-- What RESET and `clear()` have in common: data memory, mapping table, return stack, PID bank, in this order
(R392, R451). Its parts are not atomic towards the other agents (R463), but that the stack clear stands with the
mapping clear (log 7, log 27). -/
def clearAll (s : State) : State :=
  clearBank (presentPids s) (clearStack (clearMap (turn none (clearMem (turn none s)))))

/-- `clear()`: also restarts the engine at 0; `debug`, the program store and the time base are unchanged
(R451). A store that the host's own `setOutputLimits` still has to make may come after the memory clear (log 24).
No other agent has a turn between the last controller's reset and the engine's registers (DESIGN CHOICE, log 27). -/
def hostClear (s : State) : State := restart (clearAll s)

/-- The program store after a load: the bytes, then zeros (R415). -/
def loadedProgram (bytes : List Byte) : Memory := Memory.writeBytes [] 0 bytes

/-- `load(bytes)`: refused when too long, else the program store is written and `clear()` runs (R415). The store is
written in one piece, with no turn of the other agents inside it (DESIGN CHOICE, log 26). -/
def hostLoad (bytes : List Byte) (s : State) : State :=
  if s.cfg.progCap < bytes.length then s else hostClear { s with prog := loadedProgram bytes }

/-- A host control operation other than `step` (R415, R451). -/
def controlAct (c : Control) (s : State) : State :=
  match c with
  | .load bytes => hostLoad bytes s
  | .clear => hostClear s

end Sys2Proof.Machine
end

