-- ==== Sys2Proof/Machine/Operands.lean ====
section
/-! DEFINITION. The engine's accesses, each with the other agents' turn before it, and every operand form of
30_encoding.md R145 to R147 and 43_data_movement.md R268. -/

namespace Sys2Proof.Machine

/-- `Load_T(a)` by the engine (R84): MemoryAccessViolation where the check fails. The address is an integer:
no computation of one wraps (R268). -/
def loadTyped (held : Option PidId) (t : Ty) (a : Nat) (s : State) : Res Int :=
  let s := turn held s
  match memRead a (t.width s.cfg) s with
  | some raw => .done (ofRaw t raw) s
  | none => .raised .memoryAccessViolation s

/-- `Store_T(a, v)` by the engine (R84). -/
def storeTyped (t : Ty) (a : Nat) (v : Int) (s : State) : Res Unit :=
  let s := turn none s
  match memWrite a (t.width s.cfg) (toRaw t v) s with
  | some s' => .done () s'
  | none => .raised .memoryAccessViolation s

/-- `decode(T, mode)` of R145 on a fetched field: the literal's value, or the value its pointer points at. -/
def evalOperand (t : Ty) (o : Operand) (s : State) : Res Int :=
  match o with
  | .lit raw => .done (ofRaw t raw.toNat) s
  | .addr ptr => loadTyped none t ptr.toNat s

/-- A u16 operand of JUMP or CALL: the literal target, or the target its pointer points at (R290). -/
def evalTarget (o : Operand) (s : State) : Res Addr :=
  (evalOperand .u16 o s).bind fun v s => .done (BitVec.ofInt 16 v) s

/-- `T_now`, read at one instant of the transaction (R308). -/
def readTime (s : State) : Res Nat :=
  let s := turn none s
  .done s.timeBase.toNat s

/-- The frame R228: source, then the destination's old value, then `op`, then the store. -/
def inPlace (t : Ty) (dst : Addr) (src : Operand) (op : Int → Int → State → Res Int) (s : State) :
    Res Unit :=
  (evalOperand t src s).bind fun v s =>
  (loadTyped none t dst.toNat s).bind fun d s =>
  (op d v s).bind fun r s =>
  storeTyped t dst.toNat r s

/-- The frame R248: the TYPE check comes first, then the frame R228. -/
def bitwiseInPlace (t : Ty) (dst : Addr) (src : Operand) (op : Int → Int → Int) (s : State) :
    Res Unit :=
  if t = .rat then .raised .unsupportedOperand s
  else inPlace t dst src (fun d v s => .done (op d v) s) s

/-- A divisor of 0 sets DIVIDE_ZERO and raises DivideByZero; otherwise the quotient or remainder (R233, R234).
No other agent has a turn between DIVIDE_ZERO and the fault entry (DESIGN CHOICE, log 27). -/
def divideOr (result : Int → Int → Int) (d v : Int) (s : State) : Res Int :=
  if v = 0 then .raised .divideByZero (s.setFlags divideZeroBit) else .done (result d v) s

/-- The id check of R351, shared by the PID instructions. -/
def withPidId (ot : Optype) (s : State) (body : PidId → Res Unit) : Res Unit :=
  match pidOf ot.id.toNat s with
  | some i => body i
  | none => .raised .idUnavailable s

end Sys2Proof.Machine
end

