-- ==== Sys2Proof/Machine/Arithmetic.lean ====
section
/-! DEFINITION. ADD, SUB, MUL, DIV, MOD (41_arithmetic.md). -/

namespace Sys2Proof.Machine

/-- ADD (R230): overflow wraps. -/
def execAdd (ot : Optype) (dst : Addr) (src : Operand) (s : State) :
    Host.Outcome State Fault Refusal :=
  concludeAfter s.pc ((Instr.add ot dst src).length s.cfg)
    (inPlace ot.ty dst src (fun d v s => .done (addResult ot.ty d v) s) s)

/-- SUB (R231): destination minus source. -/
def execSub (ot : Optype) (dst : Addr) (src : Operand) (s : State) :
    Host.Outcome State Fault Refusal :=
  concludeAfter s.pc ((Instr.sub ot dst src).length s.cfg)
    (inPlace ot.ty dst src (fun d v s => .done (subResult ot.ty d v) s) s)

/-- MUL (R232). -/
def execMul (ot : Optype) (dst : Addr) (src : Operand) (s : State) :
    Host.Outcome State Fault Refusal :=
  concludeAfter s.pc ((Instr.mul ot dst src).length s.cfg)
    (inPlace ot.ty dst src (fun d v s => .done (mulResult s.cfg ot.ty d v) s) s)

/-- DIV (R233): a divisor of 0 faults for every type; the destination is read first (R405). -/
def execDiv (ot : Optype) (dst : Addr) (src : Operand) (s : State) :
    Host.Outcome State Fault Refusal :=
  concludeAfter s.pc ((Instr.div ot dst src).length s.cfg)
    (inPlace ot.ty dst src (fun d v s => divideOr (divResult s.cfg ot.ty) d v s) s)

/-- MOD (R234): a divisor of 0 faults for every type. -/
def execMod (ot : Optype) (dst : Addr) (src : Operand) (s : State) :
    Host.Outcome State Fault Refusal :=
  concludeAfter s.pc ((Instr.mod ot dst src).length s.cfg)
    (inPlace ot.ty dst src (divideOr (modResult ot.ty)) s)

end Sys2Proof.Machine
end

