-- ==== Sys2Proof/Machine/Bitwise.lean ====
section
/-! DEFINITION. AND, OR, NOT, XOR, LSHIFT, RSHIFT (42_bitwise.md): UnsupportedOperand for the rational type. -/

namespace Sys2Proof.Machine

/-- AND (R250). -/
def execAnd (ot : Optype) (dst : Addr) (src : Operand) (s : State) :
    Host.Outcome State Fault Refusal :=
  concludeAfter s.pc ((Instr.bitAnd ot dst src).length s.cfg) (bitwiseInPlace ot.ty dst src andResult s)

/-- OR (R251). -/
def execOr (ot : Optype) (dst : Addr) (src : Operand) (s : State) :
    Host.Outcome State Fault Refusal :=
  concludeAfter s.pc ((Instr.bitOr ot dst src).length s.cfg) (bitwiseInPlace ot.ty dst src orResult s)

/-- NOT (R252): unary, in place. -/
def execNot (ot : Optype) (dst : Addr) (s : State) : Host.Outcome State Fault Refusal :=
  concludeAfter s.pc ((Instr.bitNot ot dst).length s.cfg)
    (if ot.ty = .rat then .raised .unsupportedOperand s
     else
      (loadTyped none ot.ty dst.toNat s).bind fun d s =>
      storeTyped ot.ty dst.toNat (notResult ot.ty d) s)

/-- XOR (R253). -/
def execXor (ot : Optype) (dst : Addr) (src : Operand) (s : State) :
    Host.Outcome State Fault Refusal :=
  concludeAfter s.pc ((Instr.bitXor ot dst src).length s.cfg) (bitwiseInPlace ot.ty dst src xorResult s)

/-- LSHIFT (R254). -/
def execLshift (ot : Optype) (dst : Addr) (src : Operand) (s : State) :
    Host.Outcome State Fault Refusal :=
  concludeAfter s.pc ((Instr.lshift ot dst src).length s.cfg)
    (bitwiseInPlace ot.ty dst src (lshiftResult ot.ty) s)

/-- RSHIFT (R255). -/
def execRshift (ot : Optype) (dst : Addr) (src : Operand) (s : State) :
    Host.Outcome State Fault Refusal :=
  concludeAfter s.pc ((Instr.rshift ot dst src).length s.cfg)
    (bitwiseInPlace ot.ty dst src (rshiftResult ot.ty) s)

end Sys2Proof.Machine
end

