-- ==== Sys2Proof/Machine/ControlFlow.lean ====
section
/-! DEFINITION. JUMP, COMPARE, CALL, RETURN (44_control_flow.md). -/

namespace Sys2Proof.Machine

/-- JUMP (R290). -/
def execJump (_ot : Optype) (target : Operand) (s : State) : Host.Outcome State Fault Refusal :=
  conclude s.pc (evalTarget target s)

/-- The target that COMPARE takes: unsigned order for u8, u16 and u32, signed for rat (R208, R291). -/
def compareTarget (x v : Int) (tLess tEqual tGreater : Addr) : Addr :=
  if x < v then tLess else if x = v then tEqual else tGreater

/-- COMPARE (R291): the operand is decoded first, then the value at the address is read. -/
def execCompare (ot : Optype) (addr : Addr) (src : Operand) (tLess tEqual tGreater : Addr)
    (s : State) : Host.Outcome State Fault Refusal :=
  conclude s.pc
    ((evalOperand ot.ty src s).bind fun v s =>
     (loadTyped none ot.ty addr.toNat s).bind fun x s =>
     .done (compareTarget x v tLess tEqual tGreater) s)

/-- CALL (R292): pushes the address of the byte after the CALL; a fault in decoding comes before the push. -/
def execCall (ot : Optype) (target : Operand) (s : State) : Host.Outcome State Fault Refusal :=
  conclude s.pc
    ((evalTarget target s).bind fun t s' =>
     (push (pcAfter s.pc ((Instr.call ot target).length s.cfg)) s').bind fun _ s' =>
     .done t s')

/-- RETURN (R293). -/
def execRet (s : State) : Host.Outcome State Fault Refusal := conclude s.pc (pop s)

end Sys2Proof.Machine
end

