-- ==== Sys2Proof/Machine/DataMovement.lean ====
section
/-! DEFINITION. LOAD, MULTILOAD, COPY (43_data_movement.md). -/

namespace Sys2Proof.Machine

/-- LOAD (R270): the destination is checked only when it is written. -/
def execLoad (ot : Optype) (dst : Addr) (src : Operand) (s : State) :
    Host.Outcome State Fault Refusal :=
  concludeAfter s.pc ((Instr.load ot dst src).length s.cfg)
    ((evalOperand ot.ty src s).bind fun v s => storeTyped ot.ty dst.toNat v s)

/-- The iterations of MULTILOAD: each element is decoded and stored before the next is decoded (R271). `a` is
the element's destination, an integer that does not wrap. -/
def loadElements (t : Ty) : Nat → List Operand → State → Res Unit
  | _, [], s => .done () s
  | a, src :: srcs, s =>
      (evalOperand t src s).bind fun v s =>
      (storeTyped t a v s).bind fun _ s =>
      loadElements t (a + t.width s.cfg) srcs s

/-- MULTILOAD (R271). Where the source fields run past the end of the program store, the fetch of the first one
missing faults after the stores before it (log 16). -/
def execMultiload (ot : Optype) (dst : Addr) (count : Byte) (srcs : List Operand) (s : State) :
    Host.Outcome State Fault Refusal :=
  concludeAfter s.pc ((Instr.multiload ot dst count srcs).length s.cfg)
    ((loadElements ot.ty dst.toNat srcs s).bind fun _ s =>
      if srcs.length < count.toNat then .raised .memoryAccessViolation s else .done () s)

/-- `copy(src, len, dest)` (R88): both checks, then one read of the source bytes and one write of the
destination bytes, with the other agents' turn before each (R105). -/
def copyBlock (src len dst : Nat) (s : State) : Res Unit :=
  if len = 0 then .done () s
  else if inBounds src len s && inBounds dst len s then
    let s := turn none s
    let tmp := s.mem.readBytes src len
    let s := turn none s
    .done () { s with mem := s.mem.writeBytes dst tmp }
  else .raised .memoryAccessViolation s

/-- COPY (R272). -/
def execCopy (ot : Optype) (src : Addr) (len : BitVec 16) (dst : Addr) (s : State) :
    Host.Outcome State Fault Refusal :=
  concludeAfter s.pc ((Instr.copy ot src len dst).length s.cfg) (copyBlock src.toNat len.toNat dst.toNat s)

end Sys2Proof.Machine
end

