-- ==== Sys2Proof/Machine/MachineControl.lean ====
section
/-! DEFINITION. HALT and RESET (48_machine_control.md). -/

namespace Sys2Proof.Machine

/-- HALT (R390): HALTED set, `pc` one past the HALT, `status` as the step seeded it. HALTED and `pc`
are set together (log 27). -/
def execHalt (s : State) : Host.Outcome State Fault Refusal :=
  concludeAfter s.pc (Instr.halt.length s.cfg) (.done () (s.setFlags haltedBit))

/-- RESET (R392): the clears are kept, and it ends with ResetRequested every time. The
fault entry stands with the last controller's reset (DESIGN CHOICE, log 27). -/
def execReset (s : State) : Host.Outcome State Fault Refusal :=
  conclude s.pc (.raised .resetRequested (clearAll s))

end Sys2Proof.Machine
end

