-- ==== Sys2Proof/Machine/Mapping.lean ====
section
/-! DEFINITION. URLMAP, URLMAPCHECK, URLMAPDELETE (46_mapping.md). Each table operation is one transaction, with
the other agents' turn before it (R102). -/

namespace Sys2Proof.Machine

/-- `string_field(mode)` of R330: the program-store address of an inline string that starts `offset` bytes after
the opcode's address, `wrap_16(start)`, or the field's own address. -/
def stringAddress (pc0 : Addr) (offset : Nat) : StrField → Addr
  | .inline _ => pcAfter pc0 offset
  | .addr a => a

/-- The entry that URLMAP writes (R330); `map` gives it the status 0x00. -/
def urlmapEntry (pc0 : Addr) (ot : Optype) (options : Byte) (value : Addr) (port : BitVec 16)
    (url resource : StrField) : MapSlot where
  optype := ot.toByte
  options := options
  valueAddress := value
  urlAddress := stringAddress pc0 7 url
  resourceAddress := stringAddress pc0 (7 + url.length) resource
  port := port
  status := 0

/-- URLMAP (R330): no data memory is read and no address is checked. -/
def execUrlmap (ot : Optype) (options : Byte) (value : Addr) (port : BitVec 16)
    (url resource : StrField) (s : State) : Host.Outcome State Fault Refusal :=
  concludeAfter s.pc ((Instr.urlmap ot options value port url resource).length s.cfg)
    (mapEntry ot.id.toNat (urlmapEntry s.pc ot options value port url resource) (turn none s))

/-- URLMAPCHECK (R331): the destination is checked before the table is touched. -/
def execUrlmapCheck (ot : Optype) (dst : Addr) (s : State) : Host.Outcome State Fault Refusal :=
  concludeAfter s.pc ((Instr.urlmapCheck ot dst).length s.cfg)
    (if inBounds dst.toNat 1 s then
      (checkMap ot.id.toNat true (turn none s)).bind fun st s =>
      storeTyped .u8 dst.toNat st.toNat s
     else .raised .memoryAccessViolation s)

/-- URLMAPDELETE (R332). -/
def execUrlmapDelete (ot : Optype) (s : State) : Host.Outcome State Fault Refusal :=
  concludeAfter s.pc ((Instr.urlmapDelete ot).length s.cfg) (unmap ot.id.toNat (turn none s))

end Sys2Proof.Machine
end

