-- ==== Sys2Proof/Machine/PidInstructions.lean ====
section
/-! DEFINITION. PIDINIT, PIDCLEAR, PIDSTOP, PIDRUN (47_pid.md R350 to R355) and the bank operations they call
(R360, R365, R368). Each is one bank transaction on its controller (R378): one in progress on it completes
first, and the other agents' turns inside it hold the controller. -/

namespace Sys2Proof.Machine

/-- Begin a bank transaction of the engine on controller `i`. -/
def beginBank (i : PidId) (s : State) : State := acquire i (turn none s)

/-- `init` (R360). The read of T and the scan of the mapping table are accesses of their own. -/
def initOp (i : PidId) (a : PidInitArgs) (s : State) : Res Unit :=
  let s := beginBank i s
  if s.pid[i].initialized then .raised .pidAlreadyInitialized s
  else if boundAddressesValid a.inAddr a.outAddr a.spAddr s then
    let s := turn (some i) s
    let now := s.timeBase
    let s := turn (some i) s
    .done () (setPid i (initialController s.cfg a now (getMapForAddress a.inAddr s)) s)
  else .raised .memoryAccessViolation s

/-- `setMode(id, automatic)` (R365): on an initialized manual controller the output cell, then the input cell,
is read and seeds the controller; then the mode is recorded. -/
def setAutomatic (i : PidId) (s : State) : Res Unit :=
  let s := beginBank i s
  if s.pid[i].mode = .manual ∧ s.pid[i].initialized then
    (loadTyped (some i) .rat s.pid[i].outAddr.toNat s).bind fun o s =>
    (loadTyped (some i) .rat s.pid[i].inAddr.toNat s).bind fun x s =>
    .done () (setPid i
      { s.pid[i].seeded (BitVec.ofInt 32 o) (BitVec.ofInt 32 x) with mode := .automatic } s)
  else .done () (setPid i { s.pid[i] with mode := .automatic } s)

/-- `setMode(id, manual)` (R365): only clears the mode bit. -/
def setManual (i : PidId) (s : State) : Res Unit :=
  let s := beginBank i s
  .done () (setPid i { s.pid[i] with mode := .manual } s)

/-- PIDINIT (R352): the id check, the operands in the order of their fields, then `init`. -/
def execPidInit (ot : Optype) (fields : PidInitFields) (s : State) :
    Host.Outcome State Fault Refusal :=
  concludeAfter s.pc ((Instr.pidInit ot fields).length s.cfg)
    (withPidId ot s fun i =>
      (evalOperand .rat fields.kp s).bind fun kp s =>
      (evalOperand .rat fields.ki s).bind fun ki s =>
      (evalOperand .rat fields.kd s).bind fun kd s =>
      (evalOperand .rat fields.lo s).bind fun lo s =>
      (evalOperand .rat fields.hi s).bind fun hi s =>
      initOp i
        { inAddr := fields.inAddr, outAddr := fields.outAddr, spAddr := fields.spAddr
          kp := kp, ki := ki, kd := kd, sampleMs := fields.sampleMs.toNat
          dir := Direction.ofByte fields.dir, lo := lo, hi := hi } s)

/-- PIDCLEAR (R353). -/
def execPidClear (ot : Optype) (s : State) : Host.Outcome State Fault Refusal :=
  concludeAfter s.pc ((Instr.pidClear ot).length s.cfg)
    (withPidId ot s fun i => .done () (pidClearOp i (beginBank i s)))

/-- PIDSTOP (R354). -/
def execPidStop (ot : Optype) (s : State) : Host.Outcome State Fault Refusal :=
  concludeAfter s.pc ((Instr.pidStop ot).length s.cfg) (withPidId ot s fun i => setManual i s)

/-- PIDRUN (R355). -/
def execPidRun (ot : Optype) (s : State) : Host.Outcome State Fault Refusal :=
  concludeAfter s.pc ((Instr.pidRun ot).length s.cfg) (withPidId ot s fun i => setAutomatic i s)

end Sys2Proof.Machine
end

