-- ==== Sys2Proof/Machine/Time.lean ====
section
/-! DEFINITION. TIME and COMPARETIME (45_time.md). -/

namespace Sys2Proof.Machine

/-- TIME (R310): the low 32 bits of T. -/
def execTime (ot : Optype) (dst : Addr) (s : State) : Host.Outcome State Fault Refusal :=
  concludeAfter s.pc ((Instr.time ot dst).length s.cfg)
    ((readTime s).bind fun now s => storeTyped .u32 dst.toNat (wrap 32 now) s)

/-- The elapsed µs since a stored timestamp, modulo 2^32 (R311). -/
def elapsedSince (now : Nat) (stamp : Int) : Int := wrap 32 (wrap 32 now - stamp)

/-- The target that COMPARETIME takes: the timeout in ms is compared in µs, the product with `TIMEOUT_SCALE`
not wrapped (R309, R311). -/
def compareTimeTarget (c : Config.Params) (elapsed : Int) (timeout : Word) (tElapsed tNotElapsed : Addr) : Addr :=
  if (timeout.toNat * c.timeoutScale : Nat) ≤ elapsed then tElapsed else tNotElapsed

/-- COMPARETIME (R311): the timestamp is read before T. -/
def execCompareTime (_ot : Optype) (addr : Addr) (timeout : Word) (tElapsed tNotElapsed : Addr)
    (s : State) : Host.Outcome State Fault Refusal :=
  conclude s.pc
    ((loadTyped none .u32 addr.toNat s).bind fun stamp s =>
     (readTime s).bind fun now s =>
     .done (compareTimeTarget s.cfg (elapsedSince now stamp) timeout tElapsed tNotElapsed) s)

end Sys2Proof.Machine
end

