-- ==== Sys2Proof/Machine/Dispatch.lean ====
section
/-! DEFINITION. One arm per constructor of Instr: the execution of a decoded instruction from the state whose
status the step has seeded (R400; log 21). -/

namespace Sys2Proof.Machine

def exec (i : Instr) (s : State) : Host.Outcome State Fault Refusal :=
  match i with
  | .halt => Sys2Proof.Machine.execHalt s
  | .add ot dst src => Sys2Proof.Machine.execAdd ot dst src s
  | .sub ot dst src => Sys2Proof.Machine.execSub ot dst src s
  | .mul ot dst src => Sys2Proof.Machine.execMul ot dst src s
  | .div ot dst src => Sys2Proof.Machine.execDiv ot dst src s
  | .mod ot dst src => Sys2Proof.Machine.execMod ot dst src s
  | .bitAnd ot dst src => Sys2Proof.Machine.execAnd ot dst src s
  | .bitOr ot dst src => Sys2Proof.Machine.execOr ot dst src s
  | .bitNot ot dst => Sys2Proof.Machine.execNot ot dst s
  | .bitXor ot dst src => Sys2Proof.Machine.execXor ot dst src s
  | .lshift ot dst src => Sys2Proof.Machine.execLshift ot dst src s
  | .rshift ot dst src => Sys2Proof.Machine.execRshift ot dst src s
  | .load ot dst src => Sys2Proof.Machine.execLoad ot dst src s
  | .multiload ot dst count srcs => Sys2Proof.Machine.execMultiload ot dst count srcs s
  | .copy ot src len dst => Sys2Proof.Machine.execCopy ot src len dst s
  | .jump ot target => Sys2Proof.Machine.execJump ot target s
  | .compare ot addr src tL tE tG => Sys2Proof.Machine.execCompare ot addr src tL tE tG s
  | .call ot target => Sys2Proof.Machine.execCall ot target s
  | .ret => Sys2Proof.Machine.execRet s
  | .time ot dst => Sys2Proof.Machine.execTime ot dst s
  | .compareTime ot addr timeout t1 t2 => Sys2Proof.Machine.execCompareTime ot addr timeout t1 t2 s
  | .urlmap ot options value port url res => Sys2Proof.Machine.execUrlmap ot options value port url res s
  | .urlmapCheck ot dst => Sys2Proof.Machine.execUrlmapCheck ot dst s
  | .urlmapDelete ot => Sys2Proof.Machine.execUrlmapDelete ot s
  | .pidInit ot fields => Sys2Proof.Machine.execPidInit ot fields s
  | .pidClear ot => Sys2Proof.Machine.execPidClear ot s
  | .pidStop ot => Sys2Proof.Machine.execPidStop ot s
  | .pidRun ot => Sys2Proof.Machine.execPidRun ot s
  | .reset => Sys2Proof.Machine.execReset s

end Sys2Proof.Machine
end

