-- ==== Sys2Proof/Machine/Fetch.lean ====
section
/-! DEFINITION. Fetching and decoding at the program counter (R145, R152, R400), and what a step does where no
instruction is decoded. -/

namespace Sys2Proof.Machine

/-- What the decoder reads at `pc`: the stream is the program store from `pc` to `P - 1` (R153). -/
def fetchDecode (s : State) : Decoded := decode s.cfg (programFrom s.pc s)

/-- A fault before an instruction runs: the status is seeded with the opcode fetched (0 where the opcode fetch
itself faults), then the fault entry (R400, R403). -/
def rejectFetch (e : ErrorCode) (op : Byte) (s : State) : Host.Outcome State Fault Refusal :=
  .next (haltWith e s.pc (s.seed op))

/-- Store bytes in the program store from the program counter up, as far as the store reaches. -/
def placeAtPc (bytes : List Byte) (s : State) : State :=
  { s with prog := s.prog.writeBytes s.pc.toNat (bytes.take (s.cfg.progCap - s.pc.toNat)) }

/-- The engine Running (HALTED clear), with no other agent's move ahead of its next step. -/
def readyToStep (s : State) : State :=
  { s with flags := s.flags &&& ~~~haltedBit, inputs := [] }

end Sys2Proof.Machine
end

