-- ==== Sys2Proof/Machine/Step.lean ====
section
/-! DEFINITION. One transition of the machine: what stands first in the schedule, or a step of the engine
(R400, R412; log 5). -/

namespace Sys2Proof.Machine

/-- `step()` of R400: nothing where the engine is halted; else fetch, decode, seed the status, run. -/
def engineStep (s : State) : Host.Outcome State Fault Refusal :=
  if s.halted then .next s
  else
    match fetchDecode s with
    | .instr i _ => exec i (s.seed i.opcode.toByte)
    | .reserved op => rejectFetch .unsupportedOperation op s
    | .cutShort op => rejectFetch .memoryAccessViolation op s
    | .noOpcode => rejectFetch .memoryAccessViolation 0 s

/-- One transition: another agent's move or a host control operation where the schedule says so, else a step of
the engine. With nothing scheduled the host keeps stepping the engine (R413, R419; log 5). -/
def step (s : State) : Host.Outcome State Fault Refusal :=
  match s.inputs with
  | [] => engineStep s
  | .proceed :: rest => engineStep { s with inputs := rest }
  | .agent m :: rest => .next (agentMove m { s with inputs := rest })
  | .control c :: rest => .next (controlAct c { s with inputs := rest })

/-- The state with an opcode-table word stored where the next step fetches, the engine Running and nothing
scheduled before it (log 18, log 22). -/
def State.withFetchWord (s : State) (nbits w : Nat) : State :=
  placeAtPc (tableBytes nbits w) (readyToStep s)

end Sys2Proof.Machine
end

