-- ==== Sys2Proof/Safety.lean ====
section
/-! DEFINITION. What the claims call a sound state: the invariants of the machine, each with the rule it comes
from. -/

namespace Sys2Proof.Machine

/-- Both byte stores are in canonical form within their capacity, and the return stack has its `S` entries with the
pointer in [0, S] (R36, R80, R90). -/
def State.storesCanonical (s : State) : Prop :=
  Memory.wf s.cfg.memCap s.mem = true ∧ Memory.wf s.cfg.progCap s.prog = true ∧
    s.stack.length = s.cfg.stackDepth ∧ s.sp ≤ s.cfg.stackDepth

/-- ERROR comes only with HALTED, and DIVIDE_ZERO only with ERROR (R32, R403). -/
def State.flagsCoherent (s : State) : Prop :=
  (s.error = true → s.halted = true) ∧ (s.divideZero = true → s.error = true)

/-- An initialized controller's bound addresses pass the check for a rational's bytes and its sample period is at least the floor
(R360). -/
def Pid.sound (c : Config.Params) (p : Pid) : Prop :=
  p.initialized = true →
    (p.inAddr.toNat + c.ratBytes ≤ c.memCap ∧ p.outAddr.toNat + c.ratBytes ≤ c.memCap ∧
        p.spAddr.toNat + c.ratBytes ≤ c.memCap) ∧
      c.pidMinSampleMs.toNat ≤ p.sampleMs.toNat

/-- Every controller is sound. -/
def State.bankSound (s : State) : Prop := ∀ i : PidId, s.pid[i].sound s.cfg

/-- Where a proper pair of limits stands, a word lies within it (R380). -/
def Pid.bounds (p : Pid) (w : Word) : Prop :=
  p.outMin.toInt < p.outMax.toInt → p.outMin.toInt ≤ w.toInt ∧ w.toInt ≤ p.outMax.toInt

/-- The engine's own state is the same: `pc`, `flags`, `status`, the return stack, the program store that the engine
runs from (R407, R421), and the parameters (R8). -/
def sameEngine (s t : State) : Prop :=
  t.pc = s.pc ∧ t.flags = s.flags ∧ t.status = s.status ∧ t.sp = s.sp ∧ t.stack = s.stack ∧ t.prog = s.prog ∧
    t.cfg = s.cfg

/-- Nothing is scheduled, and neither a sweep of the sequencer nor a store of the host is in progress: no other agent
acts during an instruction. A value access of the network port may be pending; no instruction completes it. -/
def State.quiet (s : State) : Prop := s.inputs = [] ∧ s.seq = .idle ∧ s.hostPending = none

/-- The data-memory bytes that the host's pending `setOutputLimits` stores to: its controller's output cell (R366). -/
def State.hostSpans (s : State) : List (Nat × Nat) :=
  match s.hostPending with
  | none => []
  | some l => [(s.pid[l.id].outAddr.toNat, s.cfg.ratBytes)]

/-- The same, where that store belongs to controller `i`. -/
def State.hostSpansOn (s : State) (i : PidId) : List (Nat × Nat) :=
  match s.hostPending with
  | none => []
  | some l => if l.id = i then [(s.pid[l.id].outAddr.toNat, s.cfg.ratBytes)] else []

/-- The bytes that a compute in progress on controller `i` stores to: its output cell (R375). -/
def State.computeSpans (s : State) (i : PidId) : List (Nat × Nat) :=
  if s.seq.holds i then [(s.pid[i].outAddr.toNat, s.cfg.ratBytes)] else []

/-- The bytes that the network port's pending access stores to (R417). -/
def State.netSpans (s : State) : List (Nat × Nat) :=
  match s.netPending with
  | some ⟨a, ty, some _⟩ => [(a.toNat, ty.width s.cfg)]
  | _ => []

/-- The data-memory bytes that a move of another agent may store to, each as first address and number of bytes
(R421). A host operation on a controller completes the transactions that it waits for (log 8, log 24). -/
def AgentMove.storeSpans (s : State) : AgentMove → List (Nat × Nat)
  | .elapse _ => []
  | .sequencer =>
      match s.seq with
      | .mapGate i => s.hostSpansOn i
      | .writeOutput i _ _ _ => s.computeSpans i
      | _ => []
  | .net _ => s.netSpans
  | .netFinish => s.netSpans
  | .host (.dumpPid id) =>
      match pidOf id s with
      | some i => s.hostSpansOn i ++ s.computeSpans i
      | none => []
  | .host (.setOutputLimits id _ _) =>
      match pidOf id s with
      | some i => s.hostSpans ++ s.computeSpans i
      | none => []
  | .host (.setControllerDirection id _) =>
      match pidOf id s with
      | some i => s.hostSpans ++ s.computeSpans i
      | none => []
  | .host _ => []
  | .hostFinish => s.hostSpans

/-! ### Raw values: the terms in which claims give an instruction's result -/

/-- The raw little-endian value of a type's bytes at an address (R84). -/
def State.rawAt (s : State) (t : Ty) (a : Nat) : Nat := leValue (s.mem.readBytes a (t.width s.cfg))

/-- The raw value of a source operand: the literal, or what its pointer points at (R145). -/
def State.operandRaw (s : State) (t : Ty) : Operand → Nat
  | .lit raw => raw.toNat
  | .addr p => s.rawAt t p.toNat

/-- The integer a raw value stands for: signed for the rational type only (R202). -/
def signedValue (t : Ty) (raw : Nat) : Int :=
  if t = .rat then (BitVec.ofNat 32 raw).toInt else raw

/-- The value's low bytes stored at an address (R84). -/
def State.withRaw (s : State) (t : Ty) (a v : Nat) : State :=
  { s with mem := s.mem.writeBytes a (leBytes (t.width s.cfg) v) }

/-- The program counter `n` bytes on, modulo 2^16 (R155). -/
def State.advance (s : State) (n : Nat) : State := { s with pc := s.pc + BitVec.ofNat 16 n }

/-- ERROR and HALTED set, the code ORed into `status`, all else as it was (R403). -/
def State.faulted (s : State) (code : Byte) : State :=
  { s with flags := s.flags ||| 0b011, status := s.status ||| code.setWidth 32 }

/-- A step of the engine stands next: the schedule is empty or gives the engine its turn (log 5). -/
def State.engineNext (s : State) : Bool :=
  match s.inputs with
  | [] => true
  | .proceed :: _ => true
  | _ => false

/-- The opcode byte that a step seeds its status with: the byte at `pc`, or 0 where `pc` lies past the program store
(R400). -/
def State.opcodeByte (s : State) : Byte :=
  if s.pc.toNat < s.cfg.progCap then s.prog.read s.pc.toNat else 0

/-- Elements of MULTILOAD stored one after the other from address `a` up (R271): each source is read from the
memory that the elements before it left. -/
def State.storeElements (t : Ty) : Nat → List Operand → State → State
  | _, [], s => s
  | a, o :: os, s => State.storeElements t (a + t.width s.cfg) os (s.withRaw t a (s.operandRaw t o))

end Sys2Proof.Machine

namespace Sys2Proof

/-- The operand can be read in state `s`: a literal, or a pointer whose typed access passes the bounds check (R81). -/
def Operand.readable (s : Machine.State) (t : Ty) : Operand → Bool
  | .lit _ => true
  | .addr p => decide (p.toNat + t.width s.cfg ≤ s.cfg.memCap)

/-- The data access of a source operand: its pointer and width, or none for a literal (R145). -/
def Operand.accesses (c : Config.Params) (t : Ty) : Operand → List (Nat × Nat)
  | .lit _ => []
  | .addr p => [(p.toNat, t.width c)]

/-- The data-memory accesses (address and bytes) that the fields of an instruction name. MULTILOAD, whose
earlier elements are stored before a later one faults, and the PID instructions other than PIDINIT list none;
PIDINIT lists those of its rationals, where the bank has its id. -/
def Instr.accesses (c : Config.Params) : Instr → List (Nat × Nat)
  | .halt => []
  | .add ot dst src => src.accesses c ot.ty ++ [(dst.toNat, ot.ty.width c)]
  | .sub ot dst src => src.accesses c ot.ty ++ [(dst.toNat, ot.ty.width c)]
  | .mul ot dst src => src.accesses c ot.ty ++ [(dst.toNat, ot.ty.width c)]
  | .div ot dst src => src.accesses c ot.ty ++ [(dst.toNat, ot.ty.width c)]
  | .mod ot dst src => src.accesses c ot.ty ++ [(dst.toNat, ot.ty.width c)]
  | .bitAnd ot dst src => if ot.ty = .rat then [] else src.accesses c ot.ty ++ [(dst.toNat, ot.ty.width c)]
  | .bitOr ot dst src => if ot.ty = .rat then [] else src.accesses c ot.ty ++ [(dst.toNat, ot.ty.width c)]
  | .bitNot ot dst => if ot.ty = .rat then [] else [(dst.toNat, ot.ty.width c)]
  | .bitXor ot dst src => if ot.ty = .rat then [] else src.accesses c ot.ty ++ [(dst.toNat, ot.ty.width c)]
  | .lshift ot dst src => if ot.ty = .rat then [] else src.accesses c ot.ty ++ [(dst.toNat, ot.ty.width c)]
  | .rshift ot dst src => if ot.ty = .rat then [] else src.accesses c ot.ty ++ [(dst.toNat, ot.ty.width c)]
  | .load ot dst src => src.accesses c ot.ty ++ [(dst.toNat, ot.ty.width c)]
  | .multiload _ _ _ _ => []
  | .copy _ src len dst => if len = 0 then [] else [(src.toNat, len.toNat), (dst.toNat, len.toNat)]
  | .jump _ target => target.accesses c .u16
  | .compare ot addr src _ _ _ => src.accesses c ot.ty ++ [(addr.toNat, ot.ty.width c)]
  | .call _ target => target.accesses c .u16
  | .ret => []
  | .time _ dst => [(dst.toNat, 4)]
  | .compareTime _ addr _ _ _ => [(addr.toNat, 4)]
  | .urlmap _ _ _ _ _ _ => []
  | .urlmapCheck _ dst => [(dst.toNat, 1)]
  | .urlmapDelete _ => []
  | .pidInit ot f =>
      if ot.id.toNat < c.nPid then
        f.kp.accesses c .rat ++ f.ki.accesses c .rat ++ f.kd.accesses c .rat ++ f.lo.accesses c .rat ++ f.hi.accesses c .rat
      else []
  | .pidClear _ => []
  | .pidStop _ => []
  | .pidRun _ => []
  | .reset => []

/-- The data-memory bytes an instruction may store to: first address and number of bytes. RESET, which zeroes
all of memory, is not among them. -/
def Instr.storeSpan (c : Config.Params) : Instr → Nat × Nat
  | .halt => (0, 0)
  | .add ot dst _ => (dst.toNat, ot.ty.width c)
  | .sub ot dst _ => (dst.toNat, ot.ty.width c)
  | .mul ot dst _ => (dst.toNat, ot.ty.width c)
  | .div ot dst _ => (dst.toNat, ot.ty.width c)
  | .mod ot dst _ => (dst.toNat, ot.ty.width c)
  | .bitAnd ot dst _ => (dst.toNat, ot.ty.width c)
  | .bitOr ot dst _ => (dst.toNat, ot.ty.width c)
  | .bitNot ot dst => (dst.toNat, ot.ty.width c)
  | .bitXor ot dst _ => (dst.toNat, ot.ty.width c)
  | .lshift ot dst _ => (dst.toNat, ot.ty.width c)
  | .rshift ot dst _ => (dst.toNat, ot.ty.width c)
  | .load ot dst _ => (dst.toNat, ot.ty.width c)
  | .multiload ot dst _ srcs => (dst.toNat, srcs.length * ot.ty.width c)
  | .copy _ _ len dst => (dst.toNat, len.toNat)
  | .jump _ _ => (0, 0)
  | .compare _ _ _ _ _ _ => (0, 0)
  | .call _ _ => (0, 0)
  | .ret => (0, 0)
  | .time _ dst => (dst.toNat, 4)
  | .compareTime _ _ _ _ _ => (0, 0)
  | .urlmap _ _ _ _ _ _ => (0, 0)
  | .urlmapCheck _ dst => (dst.toNat, 1)
  | .urlmapDelete _ => (0, 0)
  | .pidInit _ _ => (0, 0)
  | .pidClear _ => (0, 0)
  | .pidStop _ => (0, 0)
  | .pidRun _ => (0, 0)
  | .reset => (0, 0)

/-- The instruction works on the mapping slot its optype byte names (R142). -/
def Instr.mapsSlot : Instr → Option (BitVec 4)
  | .urlmap ot _ _ _ _ _ => some ot.id
  | .urlmapCheck ot _ => some ot.id
  | .urlmapDelete ot => some ot.id
  | _ => none

/-- The instruction works on the PID controller its optype byte names (R142). -/
def Instr.controlsPid : Instr → Option (BitVec 4)
  | .pidInit ot _ => some ot.id
  | .pidClear ot => some ot.id
  | .pidStop ot => some ot.id
  | .pidRun ot => some ot.id
  | _ => none

/-- The instruction is a MULTILOAD. -/
def Instr.isMultiload : Instr → Bool
  | .multiload _ _ _ _ => true
  | _ => false

end Sys2Proof
end

