-- ==== Sys2Proof/Certificates/Slice0/Obligations.lean ====
section
/-! DEFINITION. The statements about the machine, each with the rule of spec/ it formalises. Hypotheses name the
schedule (`inputs`): where it is empty no other agent acts during the instruction (log 5, log 6). The sizes are the
state's own parameters (`cfg`, log 4), so a statement about every state is about all legal values of R8. -/

open Sys2Proof Sys2Proof.Machine

/-! ### Encoding (30_encoding.md) -/

/-- Decoding an encoded well-formed instruction gives it back, whatever bytes follow, under any parameters (R8, R140 to
R147). -/
def Obligations.DecodeOfEncode : Prop :=
  ∀ (c : Config.Params) (i : Instr) (rest : List Byte), i.wf c = true →
    decode c (encode c i ++ rest) = .instr i rest

/-- Whatever the decoder answers is a well-formed instruction whose encoding it has read, but for a MULTILOAD
whose source fields run past the end of the program store: there it has read the encoding of the fields that are
whole, and less than one field is left (R153, R271; log 16). The parameters are legal (R8), so that a rational
literal fits its word. -/
def Obligations.EncodeOfDecode : Prop :=
  ∀ (c : Config.Params) (bs : List Byte) (i : Instr) (rest : List Byte), c.legal →
    decode c bs = .instr i rest →
    (i.wf c = true ∧ bs = encode c i ++ rest) ∨
      ∃ ot dst count srcs part, i = .multiload ot dst count srcs ∧ srcs.length < count.toNat ∧
        srcs.all (·.wf c ot.ty ot.mode) = true ∧ rest = [] ∧ bs = encode c i ++ part ∧
        part.length < operandWidth c ot.ty ot.mode

/-- Words written out in the spec's examples decode to the instructions they stand for, with this hardware's
parameters (R230, R292, R330, R352). -/
def Obligations.SpecWordsDecode : Prop :=
  decode Config.thisHardware [0x01, 0x04, 0x20, 0x00, 0x01] =
      .instr (.add ⟨0, .literal, .u8, .literal⟩ 0x0020 (.lit 1)) [] ∧
    decode Config.thisHardware [0x11, 0x00, 0x00, 0x01] =
      .instr (.call ⟨0, .literal, .u32, .literal⟩ (.lit 0x0100)) [] ∧
    decode Config.thisHardware [0x15, 0x09, 0x01, 0x80, 0x00, 0x33, 0x16, 0x00, 0x01, 0x10, 0x01] =
      .instr (.urlmap ⟨0, .address, .u32, .address⟩ 0x01 0x0080 5683 (.addr 0x0100) (.addr 0x0110)) [] ∧
    decode Config.thisHardware [0x18, 0x00, 0x00, 0x01, 0x04, 0x01, 0x08, 0x01, 0x00, 0x00, 0x02, 0x00, 0x00, 0x00,
        0x01, 0x00, 0x00, 0x80, 0x00, 0x00, 0x64, 0x00, 0x00, 0x00, 0x00, 0x00, 0x00, 0x00, 0x00, 0x64, 0x00] =
      .instr (.pidInit ⟨0, .literal, .u32, .literal⟩
        ⟨0x0100, 0x0104, 0x0108, .lit 0x00020000, .lit 0x00010000, .lit 0x00008000, 100, 0, .lit 0,
          .lit 0x00640000⟩) []

/-! ### The step (60_exceptions.md) -/

/-- A reserved opcode halts the engine with UnsupportedOperation, whatever bytes follow it (R149). -/
def Obligations.ReservedOpcodeHalts : Prop :=
  ∀ s : State, s.engineNext = true → s.halted = false → s.pc.toNat < s.cfg.progCap →
    0x1D ≤ (s.prog.read s.pc.toNat).toNat →
    step s = .next { s with
      inputs := s.inputs.tail
      flags := s.flags ||| 0b011
      status := s.pc ++ s.prog.read s.pc.toNat ++ (6 : Byte) }

/-- An instruction whose last byte would fall beyond `P - 1` faults with MemoryAccessViolation: the program bytes
from `pc` to `P - 1` are a proper initial part of its encoding (for MULTILOAD's stores see log 16). Where `pc` itself
lies beyond `P - 1`, the opcode in `status` is 0 (R8, R153, R400). -/
def Obligations.CutShortInstructionFaults : Prop :=
  ∀ s : State, s.cfg.legal → s.engineNext = true → s.halted = false →
    (∀ (i : Instr) (missing : List Byte), i.wf s.cfg = true → s.pc.toNat < s.cfg.progCap →
      s.prog.readBytes s.pc.toNat (s.cfg.progCap - s.pc.toNat) ++ missing = encode s.cfg i → missing ≠ [] →
      ∃ t, step s = .next t ∧ t.pc = s.pc ∧ t.flags = s.flags ||| 0b011 ∧
        t.status = s.pc ++ i.opcode.toByte ++ (1 : Byte) ∧
        (i.isMultiload = false → t = { s with inputs := s.inputs.tail, flags := t.flags, status := t.status })) ∧
    (s.cfg.progCap ≤ s.pc.toNat → step s = .next { s with
      inputs := s.inputs.tail
      flags := s.flags ||| 0b011
      status := s.pc ++ (0 : Byte) ++ (1 : Byte) })

/-- A step of a running engine runs the instruction that the bytes at `pc` decode to, from the state whose
status it has seeded; a MULTILOAD cut short by the end of the program store too (R400; log 16, log 21). -/
def Obligations.StepRunsDecoded : Prop :=
  ∀ (s : State) (i : Instr) (rest : List Byte), s.engineNext = true → s.halted = false →
    decode s.cfg (s.prog.readBytes s.pc.toNat (s.cfg.progCap - s.pc.toNat)) = .instr i rest →
    step s = exec i { s with
      inputs := s.inputs.tail
      status := s.pc ++ i.opcode.toByte ++ (0 : Byte) }

/-- A step of a halted engine changes no state; only the schedule's entry is used up (R400). -/
def Obligations.HaltedStepChangesNothing : Prop :=
  ∀ s : State, s.engineNext = true → s.halted = true → step s = .next { s with inputs := s.inputs.tail }

/-- Nothing but the host's `clear()` and `load` clears a flag, and a halted engine keeps all its own state
(R33, R409). -/
def Obligations.HaltedUntilClear : Prop :=
  ∀ s t : State, (∀ c rest, s.inputs ≠ .control c :: rest) → step s = .next t →
    s.flags &&& t.flags = s.flags ∧ (s.halted = true → sameEngine s t)

/-- What a step of a running engine leaves in `status` and `flags`: the address and opcode of its instruction and
a code from 0 to 9; a code other than 0 comes with ERROR, HALTED and the `pc` unchanged, code 4 with DIVIDE_ZERO;
with code 0 the engine halts exactly at HALT (R34, R401, R402, R403). -/
def Obligations.StatusAfterStep : Prop :=
  ∀ s t : State, s.engineNext = true → s.halted = false → step s = .next t →
    ∃ code : Byte, t.status = s.pc ++ s.opcodeByte ++ code ∧ code.toNat ≤ 9 ∧
      (code = 0 → t.error = s.error ∧ t.divideZero = s.divideZero ∧
        (t.halted = true ↔ s.opcodeByte = 0)) ∧
      (code ≠ 0 → t.error = true ∧ t.halted = true ∧ t.pc = s.pc) ∧
      (code = 4 → t.divideZero = true) ∧ (code ≠ 4 → t.divideZero = s.divideZero)

/-- A faulting instruction other than MULTILOAD and RESET has no effect but the fault entry (R406). -/
def Obligations.FaultHasNoOtherEffect : Prop :=
  ∀ (s t : State) (i : Instr), s.quiet → i.isMultiload = false → i ≠ .reset → s.error = false →
    exec i s = .next t → t.error = true → t = { s with flags := t.flags, status := t.status }

/-- The step is a total function that returns the next state, and so is every instruction; none changes the
parameters (R8, R404; log 4). -/
def Obligations.StepAnswersNext : Prop :=
  (∀ s : State, ∃ t, step s = .next t ∧ t.cfg = s.cfg) ∧
    ∀ (i : Instr) (s : State), ∃ t, exec i s = .next t ∧ t.cfg = s.cfg

/-! ### Invariants -/

/-- Every transition keeps both byte stores in canonical form within their capacities, and the return stack at its
size with the pointer in [0, S] (R36, R80, R82, R90). -/
def Obligations.StepKeepsStores : Prop :=
  ∀ s t : State, s.storesCanonical → step s = .next t → t.storesCanonical

/-- Every transition keeps the bound addresses of an initialized controller valid and its sample period at the
floor or above (R46, R360). -/
def Obligations.StepKeepsBank : Prop :=
  ∀ s t : State, s.bankSound → step s = .next t → t.bankSound

/-- Every transition keeps ERROR with HALTED and DIVIDE_ZERO with ERROR (R32, R403). -/
def Obligations.StepKeepsFlags : Prop :=
  ∀ s t : State, s.flagsCoherent → step s = .next t → t.flagsCoherent

/-- The state after power-on reset meets the three invariants, whatever the parameters. -/
def Obligations.ResetIsSound : Prop :=
  ∀ c : Config.Params, (State.resetWith c).storesCanonical ∧ (State.resetWith c).bankSound ∧
    (State.resetWith c).flagsCoherent

/-! ### Reset, load, clear (70_reset_and_hazards.md) -/

/-- This hardware's parameters are those of R8's column "value", and they are legal; and the values that power-on
reset gives under any parameters, for every piece of state whose value the spec states (R8, R39, R45, R47, R450). -/
def Obligations.ResetValues : Prop :=
  State.reset = State.resetWith ⟨1024, 65536, 16, 20, 4, 4, 16, 100, 1000, 0xFFFF, 0x02⟩ ∧ State.reset.cfg.legal ∧
    ∀ (c : Config.Params) (s : State), s = State.resetWith c →
      s.cfg = c ∧ s.pc = 0 ∧ s.flags = 0 ∧ s.status = 0 ∧ s.debug = false ∧ s.sp = 0 ∧
      s.stack.length = c.stackDepth ∧ (∀ v ∈ s.stack, v = 0) ∧ (∀ a, s.mem.read a = 0) ∧
      (∀ k : SlotId, s.map[k] = ⟨0, 0, c.noMapping, c.noMapping, c.noMapping, 0, 0x80⟩) ∧
      ∀ k : PidId, s.pid[k] = ⟨0, 0, 0, 0, 0, .direct, 0, 0, 0, 0, .manual, false, 0, 0, 0, none⟩

/-- `clear()` with no sweep of the sequencer and no store of the host in progress: every part at its reset value;
`debug`, the time base and the program store kept (R451; the parts of the clear are those of log 7 and log 23). That a
pending access of the network port survives is the model's choice (log 20). -/
def Obligations.ClearRestarts : Prop :=
  ∀ s : State, s.inputs = [.control .clear] → s.seq = .idle → s.hostPending = none →
    ∃ t, step s = .next t ∧
      t = { State.resetWith s.cfg with
        debug := s.debug
        timeBase := s.timeBase
        prog := s.prog
        pid := t.pid
        netPending := s.netPending } ∧
      ∀ k : PidId, t.pid[k] = if k.val < s.cfg.nPid then Pid.resetValue else s.pid[k]

/-- `load`: refused with no effect where the bytes do not fit; otherwise the program store holds the bytes and then
zeros, and `clear()` has run, with no sweep of the sequencer and no store of the host in progress (R415; log 7, log 23,
log 26). That a pending access of the network port survives is the model's choice (log 20). -/
def Obligations.LoadReplacesProgram : Prop :=
  ∀ (s : State) (bytes : List Byte), s.inputs = [.control (.load bytes)] → s.seq = .idle →
    s.hostPending = none →
    (s.cfg.progCap < bytes.length → step s = .next { s with inputs := [] }) ∧
      (bytes.length ≤ s.cfg.progCap → ∃ t, step s = .next t ∧ (∀ k, t.prog.read k = bytes.getD k 0) ∧
        t = { State.resetWith s.cfg with
          debug := s.debug
          timeBase := s.timeBase
          prog := t.prog
          pid := t.pid
          netPending := s.netPending } ∧
        ∀ k : PidId, t.pid[k] = if k.val < s.cfg.nPid then Pid.resetValue else s.pid[k])

/-- No transition but a host load changes the program store (R90, R110). -/
def Obligations.ProgramStoreOnlyLoaded : Prop :=
  ∀ s t : State, (∀ bytes rest, s.inputs ≠ .control (.load bytes) :: rest) → step s = .next t →
    t.prog = s.prog

/-! ### Other agents (20_memory.md, 60_exceptions.md) -/

/-- What each other agent can write: none of them the engine's own state or the parameters; of data memory only the
bytes of the stores it makes, which are the output cell of a controller in progress for the sequencer and the host and
the mapped value's bytes for the network actor; the sequencer no mapping slot, no `debug`, no time base; the network
actor of the mapping table only `status`, and nothing of the PID bank; the host's ports no mapping slot, `debug` only
through `writeDebug`, and register reads, dumps and refused operations nothing at all. Which transactions a host
operation on a controller completes first is the model's choice (R407, R414, R416, R421; log 8, log 13, log 24,
log 25). -/
def Obligations.AgentWrites : Prop :=
  ∀ (s t : State) (m : AgentMove) (rest : List Input), s.inputs = .agent m :: rest → step s = .next t →
    sameEngine s t ∧ t.inputs = rest ∧
      (∀ a, (∀ p ∈ m.storeSpans s, a < p.1 ∨ p.1 + p.2 ≤ a) → t.mem.read a = s.mem.read a) ∧
      match m with
      | .elapse us => t = { s with inputs := rest, timeBase := s.timeBase + BitVec.ofNat 64 us }
      | .sequencer => t.map = s.map ∧ t.debug = s.debug ∧ t.timeBase = s.timeBase ∧ t.netPending = s.netPending
      | .net _ =>
          t.pid = s.pid ∧ t.debug = s.debug ∧ t.timeBase = s.timeBase ∧ t.seq = s.seq ∧
            t.hostPending = s.hostPending ∧
            ∀ k : SlotId, t.map[k] = { s.map[k] with status := t.map[k].status }
      | .netFinish =>
          t.pid = s.pid ∧ t.map = s.map ∧ t.debug = s.debug ∧ t.timeBase = s.timeBase ∧ t.seq = s.seq ∧
            t.hostPending = s.hostPending
      | .host op =>
          t.map = s.map ∧ t.timeBase = s.timeBase ∧ t.netPending = s.netPending ∧
            match op with
            | .readPc => t = { s with inputs := rest }
            | .readFlags => t = { s with inputs := rest }
            | .halted => t = { s with inputs := rest }
            | .readStatus => t = { s with inputs := rest }
            | .writeDebug b => t = { s with inputs := rest, debug := b }
            | .dumpMemory => t = { s with inputs := rest }
            | .dumpMap => t = { s with inputs := rest }
            | .dumpStack => t = { s with inputs := rest }
            | .dumpPid id =>
                t.debug = s.debug ∧
                  ((∀ i : PidId, i.val = id → id < s.cfg.nPid →
                      s.seq.holds i = false ∧ ∀ l, s.hostPending = some l → l.id ≠ i) →
                    t = { s with inputs := rest })
            | .setOutputLimits id _ _ => t.debug = s.debug ∧ (s.cfg.nPid ≤ id → t = { s with inputs := rest })
            | .setControllerDirection id _ =>
                t.debug = s.debug ∧ (s.cfg.nPid ≤ id → t = { s with inputs := rest })
      | .hostFinish =>
          t.map = s.map ∧ t.debug = s.debug ∧ t.timeBase = s.timeBase ∧ t.netPending = s.netPending ∧ t.seq = s.seq

/-- The race of R107: another agent's write to the cell between an ADD's read of its destination and its store is
overwritten by the sum with the old value (the schedule is the model's, log 6; the write is that of log 13). -/
def Obligations.AddLosesUpdate : Prop :=
  ∀ (s : State) (id : BitVec 4) (m2 : Mode) (dst : Addr) (raw w : Word),
    s.storesCanonical → dst.toNat < s.cfg.memCap → s.netPending = some ⟨dst, .u8, some w⟩ →
    s.inputs = [.proceed, .agent .netFinish] →
    ∃ t, exec (.add ⟨id, m2, .u8, .literal⟩ dst (.lit raw)) s = .next t ∧
      t.netPending = none ∧ t.pc = s.pc + 5 ∧
      t.mem.read dst.toNat = s.mem.read dst.toNat + BitVec.setWidth 8 raw ∧
      ∀ a, a ≠ dst.toNat → t.mem.read a = s.mem.read a

/-- `mapDone` and `mapError` OR their bits into the status of an active slot and do nothing else; on an inactive
slot, or an id past the table, they do nothing. A report of "not found" sets `ERR_404` whole, since it is a subset of
the mask (R8, R96, R97, R417). -/
def Obligations.MappingReports : Prop :=
  ∀ (s t : State) (id : Nat) (code : Byte) (rest : List Input), s.netPending = none →
    (s.inputs = .agent (.net (.mapDone id)) :: rest → step s = .next t →
      t = { s with inputs := rest, map := t.map } ∧
      ∀ k : SlotId, t.map[k] =
        if k.val = id ∧ id < s.cfg.mapSlots ∧ s.map[k].active s.cfg = true then
          { s.map[k] with status := s.map[k].status ||| 0x01 }
        else s.map[k]) ∧
    (s.inputs = .agent (.net (.mapError id code)) :: rest → step s = .next t →
      t = { s with inputs := rest, map := t.map } ∧
      ∀ k : SlotId, t.map[k] =
        if k.val = id ∧ id < s.cfg.mapSlots ∧ s.map[k].active s.cfg = true then
          { s.map[k] with status := s.map[k].status ||| (code &&& 0x7E) ||| 0x01 }
        else s.map[k]) ∧
    (s.cfg.legal → s.inputs = .agent (.net (reportNotFound id s)) :: rest → step s = .next t →
      t = { s with inputs := rest, map := t.map } ∧
      ∀ k : SlotId, t.map[k] =
        if k.val = id ∧ id < s.cfg.mapSlots ∧ s.map[k].active s.cfg = true then
          { s.map[k] with status := s.map[k].status ||| s.cfg.err404 ||| 0x01 }
        else s.map[k])

/-- `writeValue` stores the value in the slot's width at the slot's value address, in a snapshot and then one data
access; it is refused with no effect for an id past the table, an inactive slot, or an access past the memory
(R417; log 13). -/
def Obligations.NetworkWritesValue : Prop :=
  ∀ (s : State) (id : Nat) (v : Word),
    s.inputs = [.agent (.net (.writeValue id v)), .agent .netFinish] → s.netPending = none →
    (∀ k : SlotId, k.val = id → id < s.cfg.mapSlots → s.map[k].active s.cfg = true →
      s.map[k].valueAddress.toNat + s.map[k].ty.width s.cfg ≤ s.cfg.memCap →
      Host.Core.run Sys2Proof.core 2 s =
        .next { s.withRaw s.map[k].ty s.map[k].valueAddress.toNat v.toNat with inputs := [] }) ∧
    ((∀ k : SlotId, k.val = id → s.cfg.mapSlots ≤ id ∨ s.map[k].active s.cfg = false ∨
        s.cfg.memCap < s.map[k].valueAddress.toNat + s.map[k].ty.width s.cfg) →
      Host.Core.run Sys2Proof.core 2 s = .next { s with inputs := [] })

/-! ### Frames -/

/-- Every byte of memory outside an instruction's store span reads as before (R85, R86, R228). -/
def Obligations.MemoryFrame : Prop :=
  ∀ (s t : State) (i : Instr) (a : Nat), s.quiet → i ≠ .reset → exec i s = .next t →
    (a < (i.storeSpan s.cfg).1 ∨ (i.storeSpan s.cfg).1 + (i.storeSpan s.cfg).2 ≤ a) → t.mem.read a = s.mem.read a

/-- What no instruction but the named ones changes when no other agent acts: `debug`, the time base, the program
store, the parameters and the other agents' state for all of them; the return stack but for CALL, RETURN and RESET;
a mapping slot or a PID controller that the instruction does not name, but for RESET; `status`, and `flags` but for
HALT, where no fault is taken (R37, R421). That a pending access of the network port survives RESET is the model's
choice (log 20). -/
def Obligations.RegisterFrame : Prop :=
  ∀ (s t : State) (i : Instr), s.quiet → exec i s = .next t →
    t.debug = s.debug ∧ t.timeBase = s.timeBase ∧ t.prog = s.prog ∧ t.cfg = s.cfg ∧ t.seq = s.seq ∧
    t.netPending = s.netPending ∧ t.hostPending = s.hostPending ∧ t.inputs = s.inputs ∧
    (t.error = false → t.status = s.status ∧ (i ≠ .halt → t.flags = s.flags)) ∧
    ((∀ ot target, i ≠ .call ot target) → i ≠ .ret → i ≠ .reset → t.sp = s.sp ∧ t.stack = s.stack) ∧
    (i ≠ .reset → ∀ k : SlotId, i.mapsSlot ≠ some (BitVec.ofNat 4 k.val) → t.map[k] = s.map[k]) ∧
    (i ≠ .reset → ∀ k : PidId, i.controlsPid ≠ some (BitVec.ofNat 4 k.val) → t.pid[k] = s.pid[k])

/-- Whatever the other agents do between an instruction's accesses, the program store, the parameters, the return
stack, `status` and `flags` change only as the instruction itself makes them (R107, R407). -/
def Obligations.EngineFrameUnderRaces : Prop :=
  ∀ (s t : State) (i : Instr), exec i s = .next t →
    t.prog = s.prog ∧ t.cfg = s.cfg ∧
    (t.error = false → t.status = s.status ∧ (i ≠ .halt → t.flags = s.flags)) ∧
    ((∀ ot target, i ≠ .call ot target) → i ≠ .ret → i ≠ .reset → t.sp = s.sp ∧ t.stack = s.stack)

/-- An instruction one of whose data accesses fails its bounds check faults with MemoryAccessViolation and changes
nothing else; a DIV or MOD by 0 with such a destination too. MULTILOAD has a statement of its own (R81, R82,
R405). -/
def Obligations.OutOfBoundsFaults : Prop :=
  ∀ (s : State) (i : Instr), s.inputs = [] → (∃ p ∈ i.accesses s.cfg, s.cfg.memCap < p.1 + p.2) →
    exec i s = .next (s.faulted 1)

/-! ### Arithmetic (41_arithmetic.md) -/

/-- ADD and SUB: the raw sum and difference modulo `2^(8 W)`, for all four types, with legal parameters (R8, R204,
R228, R230, R231). -/
def Obligations.AddSubResult : Prop :=
  ∀ (s : State) (ot : Optype) (dst : Addr) (src : Operand), s.cfg.legal → s.inputs = [] → src.readable s ot.ty = true →
    dst.toNat + ot.ty.width s.cfg ≤ s.cfg.memCap →
    exec (.add ot dst src) s = .next ((s.withRaw ot.ty dst.toNat
        (BitVec.ofNat (8 * ot.ty.width s.cfg) (s.rawAt ot.ty dst.toNat) +
          BitVec.ofNat (8 * ot.ty.width s.cfg) (s.operandRaw ot.ty src)).toNat).advance (4 + src.length s.cfg ot.ty)) ∧
    exec (.sub ot dst src) s = .next ((s.withRaw ot.ty dst.toNat
        (BitVec.ofNat (8 * ot.ty.width s.cfg) (s.rawAt ot.ty dst.toNat) -
          BitVec.ofNat (8 * ot.ty.width s.cfg) (s.operandRaw ot.ty src)).toNat).advance (4 + src.length s.cfg ot.ty))

/-- MUL: the low bits of the unsigned product; for a rational the exact signed product shifted right by
`RAT_FRAC` bits toward negative infinity, low 32 bits (R8, R205, R228, R232). -/
def Obligations.MulResult : Prop :=
  ∀ (s : State) (ot : Optype) (dst : Addr) (src : Operand), s.inputs = [] → src.readable s ot.ty = true →
    dst.toNat + ot.ty.width s.cfg ≤ s.cfg.memCap →
    exec (.mul ot dst src) s = .next ((s.withRaw ot.ty dst.toNat
        (if ot.ty = .rat then
          (BitVec.ofInt 32 ((signedValue .rat (s.rawAt .rat dst.toNat) *
            signedValue .rat (s.operandRaw .rat src)) / 2 ^ s.cfg.ratFrac)).toNat
        else s.rawAt ot.ty dst.toNat * s.operandRaw ot.ty src)).advance (4 + src.length s.cfg ot.ty))

/-- DIV and MOD by a divisor other than 0: the unsigned quotient and remainder; for a rational the scaled quotient
truncated toward zero and the remainder with the sign of the dividend, with legal parameters (R8, R201, R206, R207,
R233, R234). -/
def Obligations.DivModResult : Prop :=
  ∀ (s : State) (ot : Optype) (dst : Addr) (src : Operand), s.cfg.legal → s.inputs = [] → src.readable s ot.ty = true →
    dst.toNat + ot.ty.width s.cfg ≤ s.cfg.memCap → s.operandRaw ot.ty src ≠ 0 →
    exec (.div ot dst src) s = .next ((s.withRaw ot.ty dst.toNat
        (if ot.ty = .rat then
          (BitVec.ofInt 32 ((signedValue .rat (s.rawAt .rat dst.toNat) * 2 ^ s.cfg.ratFrac).tdiv
            (signedValue .rat (s.operandRaw .rat src)))).toNat
        else s.rawAt ot.ty dst.toNat / s.operandRaw ot.ty src)).advance (4 + src.length s.cfg ot.ty)) ∧
    exec (.mod ot dst src) s = .next ((s.withRaw ot.ty dst.toNat
        (if ot.ty = .rat then
          (BitVec.ofInt 32 ((signedValue .rat (s.rawAt .rat dst.toNat)).tmod
            (signedValue .rat (s.operandRaw .rat src)))).toNat
        else s.rawAt ot.ty dst.toNat % s.operandRaw ot.ty src)).advance (4 + src.length s.cfg ot.ty))

/-- A divisor of 0 sets DIVIDE_ZERO, ERROR and HALTED and code 4, for every type, and changes nothing else
(R233, R234, R403). -/
def Obligations.DivideByZeroFaults : Prop :=
  ∀ (s : State) (ot : Optype) (dst : Addr) (src : Operand), s.inputs = [] → src.readable s ot.ty = true →
    dst.toNat + ot.ty.width s.cfg ≤ s.cfg.memCap → s.operandRaw ot.ty src = 0 →
    exec (.div ot dst src) s = .next { s with flags := s.flags ||| 0b111, status := s.status ||| 4 } ∧
    exec (.mod ot dst src) s = .next { s with flags := s.flags ||| 0b111, status := s.status ||| 4 }

/-! ### Bitwise (42_bitwise.md) -/

/-- AND, OR, XOR and NOT on the three integer types (R250 to R253). -/
def Obligations.BitwiseResult : Prop :=
  ∀ (s : State) (ot : Optype) (dst : Addr) (src : Operand), s.inputs = [] → ot.ty ≠ .rat →
    src.readable s ot.ty = true → dst.toNat + ot.ty.width s.cfg ≤ s.cfg.memCap →
    exec (.bitAnd ot dst src) s = .next ((s.withRaw ot.ty dst.toNat
        (s.rawAt ot.ty dst.toNat &&& s.operandRaw ot.ty src)).advance (4 + src.length s.cfg ot.ty)) ∧
    exec (.bitOr ot dst src) s = .next ((s.withRaw ot.ty dst.toNat
        (s.rawAt ot.ty dst.toNat ||| s.operandRaw ot.ty src)).advance (4 + src.length s.cfg ot.ty)) ∧
    exec (.bitXor ot dst src) s = .next ((s.withRaw ot.ty dst.toNat
        (s.rawAt ot.ty dst.toNat ^^^ s.operandRaw ot.ty src)).advance (4 + src.length s.cfg ot.ty)) ∧
    exec (.bitNot ot dst) s = .next ((s.withRaw ot.ty dst.toNat
        (~~~ BitVec.ofNat (8 * ot.ty.width s.cfg) (s.rawAt ot.ty dst.toNat)).toNat).advance 4)

/-- LSHIFT and RSHIFT by the full value of the operand: an amount of the width or more gives 0, and zeros enter at
the top (R249, R254, R255). -/
def Obligations.ShiftResult : Prop :=
  ∀ (s : State) (ot : Optype) (dst : Addr) (src : Operand), s.inputs = [] → ot.ty ≠ .rat →
    src.readable s ot.ty = true → dst.toNat + ot.ty.width s.cfg ≤ s.cfg.memCap →
    exec (.lshift ot dst src) s = .next ((s.withRaw ot.ty dst.toNat
        (BitVec.ofNat (8 * ot.ty.width s.cfg) (s.rawAt ot.ty dst.toNat) <<<
          s.operandRaw ot.ty src).toNat).advance (4 + src.length s.cfg ot.ty)) ∧
    exec (.rshift ot dst src) s = .next ((s.withRaw ot.ty dst.toNat
        (BitVec.ofNat (8 * ot.ty.width s.cfg) (s.rawAt ot.ty dst.toNat) >>>
          s.operandRaw ot.ty src).toNat).advance (4 + src.length s.cfg ot.ty))

/-- A bitwise opcode whose optype byte selects the rational type halts the engine with UnsupportedOperand, whatever
bytes follow the optype byte (R150, R248). -/
def Obligations.BitwiseRationalFaults : Prop :=
  ∀ s : State, s.engineNext = true → s.halted = false → s.pc.toNat + 1 < s.cfg.progCap →
    0x06 ≤ (s.prog.read s.pc.toNat).toNat → (s.prog.read s.pc.toNat).toNat ≤ 0x0B →
    (s.prog.read (s.pc.toNat + 1)).extractLsb' 1 2 = 0b01 →
    step s = .next { s with
      inputs := s.inputs.tail
      flags := s.flags ||| 0b011
      status := s.pc ++ s.prog.read s.pc.toNat ++ (5 : Byte) }

/-! ### Data movement (43_data_movement.md) -/

/-- LOAD stores the operand's value, with legal parameters (R8, R270). -/
def Obligations.LoadResult : Prop :=
  ∀ (s : State) (ot : Optype) (dst : Addr) (src : Operand), s.cfg.legal → s.inputs = [] → src.readable s ot.ty = true →
    dst.toNat + ot.ty.width s.cfg ≤ s.cfg.memCap →
    exec (.load ot dst src) s =
      .next ((s.withRaw ot.ty dst.toNat (s.operandRaw ot.ty src)).advance (4 + src.length s.cfg ot.ty))

/-- MULTILOAD stores its elements one after the other, each read after the stores before it; `count = 0` stores
nothing; the parameters are legal (R8, R271). -/
def Obligations.MultiloadResult : Prop :=
  ∀ (s : State) (ot : Optype) (dst : Addr) (count : Byte) (srcs : List Operand), s.cfg.legal → s.inputs = [] →
    srcs.length = count.toNat → srcs.all (·.readable s ot.ty) = true →
    (srcs = [] ∨ dst.toNat + srcs.length * ot.ty.width s.cfg ≤ s.cfg.memCap) →
    exec (.multiload ot dst count srcs) s =
      .next ((State.storeElements ot.ty dst.toNat srcs s).advance (5 + (srcs.map (·.length s.cfg ot.ty)).sum))

/-- A MULTILOAD whose element cannot be read or stored, or whose fields run past the program store, faults with
MemoryAccessViolation and keeps the stores of the elements before, with legal parameters (R8, R271, R465;
log 16). -/
def Obligations.MultiloadKeepsEarlierStores : Prop :=
  ∀ (s : State) (ot : Optype) (dst : Addr) (count : Byte) (good later : List Operand), s.cfg.legal → s.inputs = [] →
    good.all (·.readable s ot.ty) = true → (good = [] ∨ dst.toNat + good.length * ot.ty.width s.cfg ≤ s.cfg.memCap) →
    (∀ bad, bad.readable s ot.ty = false ∨ s.cfg.memCap < dst.toNat + (good.length + 1) * ot.ty.width s.cfg →
      exec (.multiload ot dst count (good ++ bad :: later)) s =
        .next ((State.storeElements ot.ty dst.toNat good s).faulted 1)) ∧
    (good.length < count.toNat →
      exec (.multiload ot dst count good) s =
        .next ((State.storeElements ot.ty dst.toNat good s).faulted 1))

/-- COPY moves the bytes as they were before it began, overlapping or not; a length of 0 moves and checks nothing
(R88, R272). -/
def Obligations.CopyResult : Prop :=
  ∀ (s : State) (ot : Optype) (src : Addr) (len : BitVec 16) (dst : Addr), s.storesCanonical → s.inputs = [] →
    (len = 0 ∨ (src.toNat + len.toNat ≤ s.cfg.memCap ∧ dst.toNat + len.toNat ≤ s.cfg.memCap)) →
    ∃ t, exec (.copy ot src len dst) s = .next t ∧ t = { s with mem := t.mem, pc := s.pc + 8 } ∧
      ∀ x, t.mem.read x =
        if dst.toNat ≤ x ∧ x < dst.toNat + len.toNat then s.mem.read (src.toNat + (x - dst.toNat))
        else s.mem.read x

/-! ### Control transfer (44_control_flow.md) -/

/-- JUMP: `pc` is the literal, or the u16 its pointer points at (R290). -/
def Obligations.JumpResult : Prop :=
  ∀ (s : State) (ot : Optype) (target : Operand), s.inputs = [] → target.readable s .u16 = true →
    exec (.jump ot target) s = .next { s with pc := BitVec.ofNat 16 (s.operandRaw .u16 target) }

/-- COMPARE: the value at the address against the operand, unsigned for the integer types and signed for rationals;
the three outcomes take the three targets (R208, R291). -/
def Obligations.CompareResult : Prop :=
  ∀ (s : State) (ot : Optype) (addr : Addr) (src : Operand) (tLess tEqual tGreater : Addr),
    s.inputs = [] → src.readable s ot.ty = true → addr.toNat + ot.ty.width s.cfg ≤ s.cfg.memCap →
    exec (.compare ot addr src tLess tEqual tGreater) s = .next { s with
      pc :=
        if signedValue ot.ty (s.rawAt ot.ty addr.toNat) < signedValue ot.ty (s.operandRaw ot.ty src) then tLess
        else if signedValue ot.ty (s.rawAt ot.ty addr.toNat) = signedValue ot.ty (s.operandRaw ot.ty src)
        then tEqual else tGreater }

/-- CALL pushes the address after the CALL and goes to the target; with a full stack it faults with StackOverflow
and leaves the stack as it was (R38, R292). -/
def Obligations.CallPushes : Prop :=
  ∀ (s : State) (ot : Optype) (target : Operand), s.storesCanonical → s.inputs = [] →
    target.readable s .u16 = true →
    (s.sp < s.cfg.stackDepth → ∃ t, exec (.call ot target) s = .next t ∧ t.sp = s.sp + 1 ∧
      (∀ k : Nat, t.stack[k]? = if k = s.sp then some (s.pc + 4) else s.stack[k]?) ∧
      t = { s with pc := BitVec.ofNat 16 (s.operandRaw .u16 target), sp := t.sp, stack := t.stack }) ∧
    (s.sp = s.cfg.stackDepth → exec (.call ot target) s = .next (s.faulted 2))

/-- RETURN takes the top entry, which stays stored; with an empty stack it faults with StackUnderflow (R38,
R293). -/
def Obligations.ReturnPops : Prop :=
  ∀ s : State,
    (∀ (k : Nat) (top : Addr), s.sp = k + 1 → s.stack[k]? = some top →
      exec .ret s = .next { s with pc := top, sp := k }) ∧
    (s.sp = 0 → exec .ret s = .next (s.faulted 3))

/-- A RETURN that finds the stack as a CALL left it comes back to the byte after the CALL, with the stack pointer
as before the CALL (R292, R293). -/
def Obligations.CallReturnPair : Prop :=
  ∀ (s t u : State) (ot : Optype) (target : Operand), s.storesCanonical → s.inputs = [] →
    target.readable s .u16 = true → s.sp < s.cfg.stackDepth → exec (.call ot target) s = .next t →
    u.sp = t.sp → u.stack = t.stack →
    exec .ret u = .next { u with pc := s.pc + 4, sp := s.sp }

/-! ### Time (45_time.md) -/

/-- TIME stores the low 32 bits of the time base (R310). -/
def Obligations.TimeResult : Prop :=
  ∀ (s : State) (ot : Optype) (dst : Addr), s.inputs = [] → dst.toNat + 4 ≤ s.cfg.memCap →
    exec (.time ot dst) s =
      .next ((s.withRaw .u32 dst.toNat (s.timeBase.setWidth 32).toNat).advance 4)

/-- COMPARETIME: the elapsed µs modulo 2^32 against the timeout in ms times `TIMEOUT_SCALE`, the product not wrapped
(R8, R309, R311). -/
def Obligations.CompareTimeResult : Prop :=
  ∀ (s : State) (ot : Optype) (addr : Addr) (timeout : Word) (tElapsed tNotElapsed : Addr), s.inputs = [] →
    addr.toNat + 4 ≤ s.cfg.memCap →
    exec (.compareTime ot addr timeout tElapsed tNotElapsed) s = .next { s with
      pc :=
        if timeout.toNat * s.cfg.timeoutScale ≤
            (s.timeBase.setWidth 32 - BitVec.ofNat 32 (s.rawAt .u32 addr.toNat)).toNat
        then tElapsed else tNotElapsed }

/-! ### Mapping (46_mapping.md) -/

/-- URLMAP writes every field of its slot, with status 0x00; an inline string's address is where it stands in the
program store. An id past the table faults with IdUnavailable (R94, R330). -/
def Obligations.UrlmapResult : Prop :=
  ∀ (s : State) (ot : Optype) (options : Byte) (value : Addr) (port : BitVec 16) (url resource : StrField),
    s.inputs = [] →
    (ot.id.toNat < s.cfg.mapSlots → ∃ t, exec (.urlmap ot options value port url resource) s = .next t ∧
      t = { s with map := t.map, pc := s.pc + BitVec.ofNat 16 (7 + url.length + resource.length) } ∧
      ∀ k : SlotId, t.map[k] =
        if k.val = ot.id.toNat then
          { optype := ot.toByte, options := options, valueAddress := value,
            urlAddress := (match url with | .inline _ => s.pc + 7 | .addr a => a),
            resourceAddress := (match resource with
              | .inline _ => s.pc + BitVec.ofNat 16 (7 + url.length)
              | .addr a => a),
            port := port, status := 0x00 }
        else s.map[k]) ∧
    (s.cfg.mapSlots ≤ ot.id.toNat →
      exec (.urlmap ot options value port url resource) s = .next (s.faulted 7))

/-- URLMAPCHECK stores the status of an active slot, 0 for an inactive one, and unmaps the slot exactly when it is
active, cleanly done and "once". An id past the table faults with IdUnavailable (R42, R43, R95, R331). -/
def Obligations.UrlmapCheckResult : Prop :=
  ∀ (s : State) (ot : Optype) (dst : Addr) (id : SlotId), s.inputs = [] → dst.toNat < s.cfg.memCap →
    id.val = ot.id.toNat →
    (id.val < s.cfg.mapSlots → ∃ t, exec (.urlmapCheck ot dst) s = .next t ∧
      t = { (s.withRaw .u8 dst.toNat (if s.map[id].active s.cfg = true then s.map[id].status.toNat else 0)).advance 4
            with map := t.map } ∧
      (s.map[id].active s.cfg = true ↔ s.map[id].valueAddress ≠ s.cfg.noMapping ∧
        s.map[id].urlAddress ≠ s.cfg.noMapping ∧ s.map[id].resourceAddress ≠ s.cfg.noMapping ∧
        s.map[id].status.getLsbD 7 = false) ∧
      ∀ k : SlotId, t.map[k] =
        if k = id ∧ s.map[id].active s.cfg = true ∧ s.map[id].status = 0x01 ∧ s.map[id].options.getLsbD 0 = true
        then ⟨0, 0, s.cfg.noMapping, s.cfg.noMapping, s.cfg.noMapping, 0, 0x80⟩ else s.map[k]) ∧
    (s.cfg.mapSlots ≤ id.val → exec (.urlmapCheck ot dst) s = .next (s.faulted 7))

/-- URLMAPDELETE leaves its slot unmapped and no other changed; an id past the table faults with IdUnavailable (R99,
R332). -/
def Obligations.UrlmapDeleteResult : Prop :=
  ∀ (s : State) (ot : Optype), s.inputs = [] →
    (ot.id.toNat < s.cfg.mapSlots → ∃ t, exec (.urlmapDelete ot) s = .next t ∧
      t = { s with map := t.map, pc := s.pc + 2 } ∧
      ∀ k : SlotId, t.map[k] =
        if k.val = ot.id.toNat then ⟨0, 0, s.cfg.noMapping, s.cfg.noMapping, s.cfg.noMapping, 0, 0x80⟩ else s.map[k]) ∧
    (s.cfg.mapSlots ≤ ot.id.toNat → exec (.urlmapDelete ot) s = .next (s.faulted 7))

/-! ### PID instructions (47_pid.md) -/

/-- PIDINIT of a controller that is not initialized, with valid bound addresses: the controller it leaves, and no
other changed (R352, R360 to R364). -/
def Obligations.PidInitResult : Prop :=
  ∀ (s : State) (ot : Optype) (f : PidInitFields) (id : PidId), s.quiet → ot.id.toNat = id.val → id.val < s.cfg.nPid →
    f.kp.readable s .rat = true → f.ki.readable s .rat = true → f.kd.readable s .rat = true →
    f.lo.readable s .rat = true → f.hi.readable s .rat = true → s.pid[id].initialized = false →
    f.inAddr.toNat + s.cfg.ratBytes ≤ s.cfg.memCap → f.outAddr.toNat + s.cfg.ratBytes ≤ s.cfg.memCap →
    f.spAddr.toNat + s.cfg.ratBytes ≤ s.cfg.memCap →
    ∃ t, exec (.pidInit ot f) s = .next t ∧
      t = { s with pid := t.pid, pc := s.pc + BitVec.ofNat 16 ((Instr.pidInit ot f).length s.cfg) } ∧
      (∀ k : PidId, k ≠ id → t.pid[k] = s.pid[k]) ∧
      ∃ st : Nat, st = max f.sampleMs.toNat s.cfg.pidMinSampleMs.toNat ∧
      ∃ sign : Int, sign = (if f.dir.getLsbD 0 = true then -1 else 1) ∧
      ∃ sat : Int → Int, (∀ x, sat x = max (-2147483648) (min x 2147483647)) ∧
        t.pid[id].kp.toInt = sat (sign * signedValue .rat (s.operandRaw .rat f.kp)) ∧
        t.pid[id].ki.toInt = sat (sign * (signedValue .rat (s.operandRaw .rat f.ki) * st).tdiv 1000) ∧
        t.pid[id].kd.toInt = sat (sign * (signedValue .rat (s.operandRaw .rat f.kd) * 1000).tdiv st) ∧
        t.pid[id].outMin.toInt = signedValue .rat (s.operandRaw .rat f.lo) ∧
        t.pid[id].outMax.toInt = signedValue .rat (s.operandRaw .rat f.hi) ∧
        t.pid[id].direction = (if f.dir.getLsbD 0 = true then .reverse else .direct) ∧
        t.pid[id].sampleMs.toNat = st ∧ t.pid[id].iSum = 0 ∧ t.pid[id].lastInput = 0 ∧
        t.pid[id].lastTime = s.timeBase - BitVec.ofNat 64 (st * 1000) ∧
        t.pid[id].mode = .manual ∧ t.pid[id].initialized = true ∧ t.pid[id].inAddr = f.inAddr ∧
        t.pid[id].outAddr = f.outAddr ∧ t.pid[id].spAddr = f.spAddr ∧
        ((t.pid[id].mapId = none ∧ ∀ k : SlotId, k.val < s.cfg.mapSlots → s.map[k].valueAddress ≠ f.inAddr) ∨
          ∃ k : SlotId, t.pid[id].mapId = some k ∧ k.val < s.cfg.mapSlots ∧ s.map[k].valueAddress = f.inAddr ∧
            ∀ j : SlotId, j < k → s.map[j].valueAddress ≠ f.inAddr)

/-- The faults of PIDINIT once its rationals are read: PidAlreadyInitialized first, then MemoryAccessViolation for a
bound address (R352, R360). -/
def Obligations.PidInitFaults : Prop :=
  ∀ (s : State) (ot : Optype) (f : PidInitFields) (id : PidId), s.quiet → ot.id.toNat = id.val → id.val < s.cfg.nPid →
    f.kp.readable s .rat = true → f.ki.readable s .rat = true → f.kd.readable s .rat = true →
    f.lo.readable s .rat = true → f.hi.readable s .rat = true →
    (s.pid[id].initialized = true → exec (.pidInit ot f) s = .next (s.faulted 8)) ∧
    (s.pid[id].initialized = false →
      (s.cfg.memCap < f.inAddr.toNat + s.cfg.ratBytes ∨ s.cfg.memCap < f.outAddr.toNat + s.cfg.ratBytes ∨
        s.cfg.memCap < f.spAddr.toNat + s.cfg.ratBytes) →
      exec (.pidInit ot f) s = .next (s.faulted 1))

/-- A PID opcode with an id of `N` or more halts the engine with IdUnavailable, whatever bytes follow the optype byte
(R351). -/
def Obligations.PidIdUnavailable : Prop :=
  ∀ s : State, s.engineNext = true → s.halted = false → s.pc.toNat + 1 < s.cfg.progCap →
    0x18 ≤ (s.prog.read s.pc.toNat).toNat → (s.prog.read s.pc.toNat).toNat ≤ 0x1B →
    s.cfg.nPid ≤ ((s.prog.read (s.pc.toNat + 1)).extractLsb' 4 4).toNat →
    step s = .next { s with
      inputs := s.inputs.tail
      flags := s.flags ||| 0b011
      status := s.pc ++ s.prog.read s.pc.toNat ++ (7 : Byte) }

/-- PIDCLEAR only marks its controller uninitialized, and PIDSTOP only puts its controller in manual mode (R353,
R354, R365, R368). -/
def Obligations.PidClearStopResult : Prop :=
  ∀ (s : State) (ot : Optype), s.quiet → ot.id.toNat < s.cfg.nPid →
    (∃ t, exec (.pidClear ot) s = .next t ∧ t = { s with pid := t.pid, pc := s.pc + 2 } ∧
      ∀ k : PidId, t.pid[k] =
        if k.val = ot.id.toNat then { s.pid[k] with initialized := false } else s.pid[k]) ∧
    (∃ t, exec (.pidStop ot) s = .next t ∧ t = { s with pid := t.pid, pc := s.pc + 2 } ∧
      ∀ k : PidId, t.pid[k] =
        if k.val = ot.id.toNat then { s.pid[k] with mode := .manual } else s.pid[k])

/-- PIDRUN: an initialized manual controller is seeded from its output cell (clamped, the upper limit tested first)
and its input cell and is then automatic; any other controller only becomes automatic (R212, R355, R365). -/
def Obligations.PidRunResult : Prop :=
  ∀ (s : State) (ot : Optype) (id : PidId), s.quiet → s.bankSound → ot.id.toNat = id.val →
    id.val < s.cfg.nPid →
    ∃ t, exec (.pidRun ot) s = .next t ∧ t = { s with pid := t.pid, pc := s.pc + 2 } ∧
      (∀ k : PidId, k ≠ id → t.pid[k] = s.pid[k]) ∧
      (¬ (s.pid[id].initialized = true ∧ s.pid[id].mode = .manual) →
        t.pid[id] = { s.pid[id] with mode := .automatic }) ∧
      (s.pid[id].initialized = true → s.pid[id].mode = .manual →
        t.pid[id] = { s.pid[id] with mode := .automatic, iSum := t.pid[id].iSum, lastInput := t.pid[id].lastInput } ∧
        t.pid[id].lastInput = BitVec.ofNat 32 (s.rawAt .rat s.pid[id].inAddr.toNat) ∧
        ∃ o : Int, o = signedValue .rat (s.rawAt .rat s.pid[id].outAddr.toNat) ∧
          t.pid[id].iSum.toInt =
            if s.pid[id].outMax.toInt < o then s.pid[id].outMax.toInt
            else if o < s.pid[id].outMin.toInt then s.pid[id].outMin.toInt else o)

/-! ### Compute (47_pid.md R370 to R381) -/

/-- A compute that passes its gates, as its five accesses one after the other: the accumulator and the output it
stores, and `lastInput` and `lastTime` after it (R212, R371 to R375; log 11 names the accesses). -/
def Obligations.ComputeWritesOutput : Prop :=
  ∀ (s : State) (id : PidId), s.bankSound → s.seq = .mapGate id → s.hostPending = none →
    s.inputs = List.replicate 5 (.agent .sequencer) →
    s.pid[id].initialized = true → s.pid[id].mode = .automatic →
    (∀ k : SlotId, s.pid[id].mapId = some k →
      s.map[k].active s.cfg = false ∨ s.map[k].status = 0 ∨ s.map[k].status = 1) →
    s.pid[id].sampleMs.toNat * 1000 ≤ (s.timeBase - s.pid[id].lastTime).toNat →
    ∃ t, Host.Core.run Sys2Proof.core 5 s = .next t ∧ sameEngine s t ∧ t.map = s.map ∧
      (∀ k : PidId, k ≠ id → t.pid[k] = s.pid[k]) ∧
      t.pid[id] = { s.pid[id] with
        iSum := t.pid[id].iSum
        lastInput := BitVec.ofNat 32 (s.rawAt .rat s.pid[id].inAddr.toNat)
        lastTime := s.timeBase } ∧
      ∃ (clampTo : Int → Int) (e dIn out : Int),
        (∀ x, clampTo x =
          if s.pid[id].outMax.toInt < x then s.pid[id].outMax.toInt
          else if x < s.pid[id].outMin.toInt then s.pid[id].outMin.toInt else x) ∧
        e = signedValue .rat (s.rawAt .rat s.pid[id].spAddr.toNat) -
          signedValue .rat (s.rawAt .rat s.pid[id].inAddr.toNat) ∧
        dIn = signedValue .rat (s.rawAt .rat s.pid[id].inAddr.toNat) - s.pid[id].lastInput.toInt ∧
        t.pid[id].iSum.toInt = clampTo (s.pid[id].iSum.toInt + s.pid[id].ki.toInt * e / 2 ^ s.cfg.ratFrac) ∧
        out = clampTo (s.pid[id].kp.toInt * e / 2 ^ s.cfg.ratFrac + t.pid[id].iSum.toInt -
          s.pid[id].kd.toInt * dIn / 2 ^ s.cfg.ratFrac) ∧
        t.mem = (s.withRaw .rat s.pid[id].outAddr.toNat (BitVec.ofInt 32 out).toNat).mem

/-- A compute that a gate stops changes nothing but the place of the sweep, which goes on with the next controller or
ends: the controller is not initialized or not automatic, its mapped slot reports an error, or its sample period has
not passed (R370 to R372, R376; log 11 names the moves `mapGate` and `timeGate`). -/
def Obligations.ComputeGated : Prop :=
  ∀ (s : State) (id : PidId) (rest : List Input), s.hostPending = none →
    s.inputs = .agent .sequencer :: rest →
    ((s.seq = .mapGate id ∧
        (s.pid[id].initialized = false ∨ s.pid[id].mode = .manual ∨
          ∃ k : SlotId, s.pid[id].mapId = some k ∧ s.map[k].active s.cfg = true ∧ s.map[k].status &&& 0x7E ≠ 0)) ∨
      (s.seq = .timeGate id ∧
        (s.timeBase - s.pid[id].lastTime).toNat < s.pid[id].sampleMs.toNat * 1000)) →
    ∃ t, step s = .next t ∧ t = { s with inputs := rest, seq := t.seq } ∧
      (∀ next : PidId, next.val = id.val + 1 → next.val < s.cfg.nPid → t.seq = .mapGate next) ∧
      (s.cfg.nPid ≤ id.val + 1 → t.seq = .idle)

/-- Anti-windup: with a proper pair of limits, the accumulator that a compute, a seeding by PIDRUN or a
`setOutputLimits` leaves, and the output that a compute writes, lie within the limits (R380; the move `readSetpoint`
of a compute is that of log 11, and a `setOutputLimits` that stores is two moves, log 15). -/
def Obligations.AntiWindup : Prop :=
  (∀ (s t : State) (id : PidId) (now : BitVec 64) (input : Word) (rest : List Input),
    s.inputs = .agent .sequencer :: rest → s.seq = .readSetpoint id now input →
    s.pid[id].spAddr.toNat + s.cfg.ratBytes ≤ s.cfg.memCap → step s = .next t →
    t.pid[id].bounds t.pid[id].iSum ∧
      ∃ output, t.seq = .writeOutput id now input output ∧ t.pid[id].bounds output) ∧
  (∀ (s t : State) (ot : Optype) (id : PidId), s.quiet → s.bankSound → ot.id.toNat = id.val →
    id.val < s.cfg.nPid →
    s.pid[id].initialized = true → s.pid[id].mode = .manual → exec (.pidRun ot) s = .next t →
    t.pid[id].bounds t.pid[id].iSum) ∧
  (∀ (s t : State) (id : PidId) (lo hi : Word), s.seq = .idle → s.hostPending = none → s.bankSound →
    id.val < s.cfg.nPid → s.pid[id].initialized = true → s.pid[id].mode = .automatic → lo.toInt < hi.toInt →
    s.inputs = [.agent (.host (.setOutputLimits id.val lo hi)), .agent .hostFinish] →
    Host.Core.run Sys2Proof.core 2 s = .next t →
    t.pid[id].outMin = lo ∧ t.pid[id].outMax = hi ∧ t.pid[id].bounds t.pid[id].iSum)

/-- Bump-less start: PIDRUN, then a compute with the setpoint equal to the input and the output cell within the
limits, writes the output cell's own value again (R381; log 11 names the compute's accesses). -/
def Obligations.BumplessStart : Prop :=
  ∀ (s t : State) (ot : Optype) (id : PidId), s.cfg.legal → s.quiet → s.bankSound → s.storesCanonical →
    ot.id.toNat = id.val → id.val < s.cfg.nPid → s.pid[id].initialized = true → s.pid[id].mode = .manual →
    (∀ k : SlotId, s.pid[id].mapId = some k →
      s.map[k].active s.cfg = false ∨ s.map[k].status = 0 ∨ s.map[k].status = 1) →
    s.pid[id].sampleMs.toNat * 1000 ≤ (s.timeBase - s.pid[id].lastTime).toNat →
    s.rawAt .rat s.pid[id].spAddr.toNat = s.rawAt .rat s.pid[id].inAddr.toNat →
    s.pid[id].outMin.toInt ≤ signedValue .rat (s.rawAt .rat s.pid[id].outAddr.toNat) →
    signedValue .rat (s.rawAt .rat s.pid[id].outAddr.toNat) ≤ s.pid[id].outMax.toInt →
    exec (.pidRun ot) s = .next t →
    ∃ u, Host.Core.run Sys2Proof.core 5
        { t with seq := .mapGate id, inputs := List.replicate 5 (.agent .sequencer) } = .next u ∧
      u.seq = sweepAfter id s ∧ u.pid[id].lastTime = s.timeBase ∧
      u.rawAt .rat s.pid[id].outAddr.toNat = s.rawAt .rat s.pid[id].outAddr.toNat

/-- The host's PID configuration: improper limits change nothing; a controller that is not computing takes the new
limits; a computing one takes them, its accumulator becomes exactly its clamp, and its output cell is clamped and
stored only when the clamp changes it (in a second move, log 15); the direction is always recorded, and all three
gains are negated, saturated, exactly when a computing controller's direction changes (R366, R367). -/
def Obligations.BankConfiguration : Prop :=
  ∀ (s : State) (id : PidId) (rest : List Input), s.seq = .idle → s.hostPending = none → id.val < s.cfg.nPid →
    (∀ lo hi : Word, s.inputs = .agent (.host (.setOutputLimits id.val lo hi)) :: rest →
      (hi.toInt ≤ lo.toInt → step s = .next { s with inputs := rest }) ∧
      (lo.toInt < hi.toInt → (s.pid[id].initialized = false ∨ s.pid[id].mode = .manual) →
        step s = .next { s with
          inputs := rest
          pid := s.pid.set id { s.pid[id] with outMin := lo, outMax := hi } })) ∧
    (∀ lo hi : Word, s.bankSound → lo.toInt < hi.toInt → s.pid[id].initialized = true →
      s.pid[id].mode = .automatic →
      s.inputs = [.agent (.host (.setOutputLimits id.val lo hi)), .agent .hostFinish] →
      ∃ t, Host.Core.run Sys2Proof.core 2 s = .next t ∧
        t = { s with inputs := [], mem := t.mem, pid := t.pid } ∧
        (∀ k : PidId, k ≠ id → t.pid[k] = s.pid[k]) ∧
        t.pid[id] = { s.pid[id] with outMin := lo, outMax := hi, iSum := t.pid[id].iSum } ∧
        t.pid[id].iSum.toInt =
          (if hi.toInt < s.pid[id].iSum.toInt then hi.toInt
          else if s.pid[id].iSum.toInt < lo.toInt then lo.toInt else s.pid[id].iSum.toInt) ∧
        ∃ o : Int, o = signedValue .rat (s.rawAt .rat s.pid[id].outAddr.toNat) ∧
          t.mem =
            if hi.toInt < o then (s.withRaw .rat s.pid[id].outAddr.toNat hi.toNat).mem
            else if o < lo.toInt then (s.withRaw .rat s.pid[id].outAddr.toNat lo.toNat).mem
            else s.mem) ∧
    (∀ dir : Direction, s.inputs = .agent (.host (.setControllerDirection id.val dir)) :: rest →
      ∃ t, step s = .next t ∧ t = { s with inputs := rest, pid := t.pid } ∧
        (∀ k : PidId, k ≠ id → t.pid[k] = s.pid[k]) ∧
        t.pid[id] = { s.pid[id] with
          direction := dir
          kp := t.pid[id].kp
          ki := t.pid[id].ki
          kd := t.pid[id].kd } ∧
        (if s.pid[id].initialized = true ∧ s.pid[id].mode = .automatic ∧ dir ≠ s.pid[id].direction then
          t.pid[id].kp.toInt = min (-s.pid[id].kp.toInt) 2147483647 ∧
            t.pid[id].ki.toInt = min (-s.pid[id].ki.toInt) 2147483647 ∧
            t.pid[id].kd.toInt = min (-s.pid[id].kd.toInt) 2147483647
        else t.pid[id].kp = s.pid[id].kp ∧ t.pid[id].ki = s.pid[id].ki ∧ t.pid[id].kd = s.pid[id].kd))

/-! ### Machine control (48_machine_control.md) -/

/-- HALT sets HALTED, moves `pc` one on and changes nothing else (R390). -/
def Obligations.HaltResult : Prop :=
  ∀ s : State, exec .halt s = .next { s with flags := s.flags ||| 0b001, pc := s.pc + 1 }

/-- RESET with no sweep of the sequencer and no store of the host in progress: data memory, mapping table, return stack
and PID bank at their reset values, ERROR and HALTED set, code 9; `pc`, `debug`, the program store and the time base
kept (R392; log 7). That a pending access of the network port survives is the model's choice (log 20). -/
def Obligations.ResetInstructionResult : Prop :=
  ∀ s : State, s.quiet →
    ∃ t, exec .reset s = .next t ∧
      t = { State.resetWith s.cfg with
        pc := s.pc
        flags := s.flags ||| 0b011
        status := s.status ||| 9
        debug := s.debug
        prog := s.prog
        timeBase := s.timeBase
        pid := t.pid
        netPending := s.netPending } ∧
      ∀ k : PidId, t.pid[k] = if k.val < s.cfg.nPid then Pid.resetValue else s.pid[k]
end

