-- ==== Sys2Proof/Laws/Memory.lean ====
section
/-! SUPPORT. Laws of the byte stores (R84 to R88): read after write, the canonical form is kept, and the
little-endian composition. -/

namespace Sys2Proof

@[simp] theorem leBytes_length (n v : Nat) : (leBytes n v).length = n := by
  induction n generalizing v with
  | zero => rfl
  | succ n ih => simp [leBytes, ih]

theorem leValue_lt (bs : List Byte) : leValue bs < 256 ^ bs.length := by
  induction bs with
  | nil => simp [leValue]
  | cons b bs ih =>
    have hb : b.toNat < 256 := b.isLt
    simp only [leValue, List.length_cons, pow_succ]
    omega

theorem leValue_leBytes (n v : Nat) : leValue (leBytes n v) = v % 256 ^ n := by
  induction n generalizing v with
  | zero => simp [leBytes, leValue, Nat.mod_one]
  | succ n ih =>
    simp only [leBytes, leValue, ih, BitVec.toNat_ofNat]
    rw [show 256 ^ (n + 1) = 256 * 256 ^ n by rw [pow_succ, Nat.mul_comm], Nat.mod_mul]

theorem leBytes_leValue (bs : List Byte) : leBytes bs.length (leValue bs) = bs := by
  induction bs with
  | nil => rfl
  | cons b bs ih =>
    have hb : b.toNat < 256 := b.isLt
    simp only [List.length_cons, leBytes, leValue]
    congr 1
    · apply BitVec.eq_of_toNat_eq
      simp only [BitVec.toNat_ofNat]
      omega
    · have : (b.toNat + 256 * leValue bs) / 256 = leValue bs := by omega
      rw [this, ih]

/-- The bytes of a value depend on it modulo `256 ^ n` only: a store keeps the low bytes (R84). -/
theorem leBytes_mod (n v : Nat) : leBytes n (v % 256 ^ n) = leBytes n v := by
  have h := leBytes_leValue (leBytes n v)
  rwa [leBytes_length, leValue_leBytes] at h

namespace Machine

theorem Memory.wfFrom_mono {cap lo lo' : Nat} {m : Memory} (h : Memory.wfFrom cap lo m = true)
    (hl : lo' ≤ lo) : Memory.wfFrom cap lo' m = true := by
  cases m with
  | nil => rfl
  | cons c m =>
    obtain ⟨k, c⟩ := c
    simp only [Memory.wfFrom, Bool.and_eq_true, decide_eq_true_eq] at h ⊢
    exact ⟨⟨⟨by omega, h.1.1.2⟩, h.1.2⟩, h.2⟩

/-- An address below every listed one reads as 0. -/
theorem Memory.read_below {cap : Nat} {m : Memory} {lo y : Nat} (hw : Memory.wfFrom cap lo m = true)
    (hy : y < lo) : m.read y = 0 := by
  induction m generalizing lo with
  | nil => rfl
  | cons d m ih =>
    obtain ⟨j, d⟩ := d
    simp only [Memory.wfFrom, Bool.and_eq_true, decide_eq_true_eq] at hw
    simp only [Memory.read]
    rw [if_neg (by omega)]
    exact ih hw.2 (by omega)

theorem Memory.read_put {cap a x : Nat} {b : Byte} {m : Memory}
    (h : Memory.wfFrom cap (a + 1) m = true) :
    (Memory.put a b m).read x = if x = a then b else m.read x := by
  unfold Memory.put
  by_cases hb : b = 0
  · rw [if_pos hb]
    by_cases hx : x = a
    · rw [if_pos hx, hb, hx, Memory.read_below h (Nat.lt_succ_self a)]
    · rw [if_neg hx]
  · rw [if_neg hb]
    simp only [Memory.read, eq_comm]

/-- A byte reads back; every other address is left alone. -/
theorem Memory.read_write (m : Memory) (a x : Nat) (b : Byte) {cap lo : Nat}
    (h : Memory.wfFrom cap lo m = true) :
    (m.write a b).read x = if x = a then b else m.read x := by
  induction m generalizing lo with
  | nil => exact Memory.read_put (cap := cap) rfl
  | cons c m ih =>
    obtain ⟨k, c⟩ := c
    have h' := h
    simp only [Memory.wfFrom, Bool.and_eq_true, decide_eq_true_eq] at h'
    simp only [Memory.write]
    by_cases h1 : a < k
    · rw [if_pos h1]
      refine Memory.read_put (cap := cap) ?_
      simp only [Memory.wfFrom, Bool.and_eq_true, decide_eq_true_eq]
      exact ⟨⟨⟨by omega, h'.1.1.2⟩, h'.1.2⟩, h'.2⟩
    · rw [if_neg h1]
      by_cases h2 : a = k
      · subst h2
        rw [if_pos rfl, Memory.read_put h'.2]
        by_cases hx : x = a
        · rw [if_pos hx, if_pos hx]
        · rw [if_neg hx, if_neg hx]
          simp only [Memory.read]
          rw [if_neg (fun h => hx h.symm)]
      · rw [if_neg h2]
        simp only [Memory.read]
        rw [ih h'.2]
        by_cases hk : k = x
        · subst hk
          rw [if_pos rfl, if_neg (fun h => h2 h.symm), if_pos rfl]
        · rw [if_neg hk, if_neg hk]

theorem Memory.read_put_ne {a x : Nat} {b : Byte} {m : Memory} (hx : x ≠ a) :
    (Memory.put a b m).read x = m.read x := by
  unfold Memory.put
  split
  · rfl
  · simp only [Memory.read]
    rw [if_neg (fun h => hx h.symm)]

/-- A write leaves every other address alone, whatever the form of the store. -/
theorem Memory.read_write_ne {m : Memory} {a x : Nat} {b : Byte} (hx : x ≠ a) :
    (m.write a b).read x = m.read x := by
  induction m with
  | nil => exact Memory.read_put_ne hx
  | cons c m ih =>
    obtain ⟨k, c⟩ := c
    simp only [Memory.write]
    split_ifs with h1 h2
    · exact Memory.read_put_ne hx
    · rw [Memory.read_put_ne hx]
      simp only [Memory.read]
      rw [if_neg (fun h => hx (h.symm.trans h2.symm))]
    · simp only [Memory.read, ih]

theorem Memory.wfFrom_put {cap lo a : Nat} {b : Byte} {m : Memory}
    (h : Memory.wfFrom cap (a + 1) m = true) (hlo : lo ≤ a) (ha : a < cap) :
    Memory.wfFrom cap lo (Memory.put a b m) = true := by
  unfold Memory.put
  split_ifs with hb
  · exact Memory.wfFrom_mono h (by omega)
  · simp only [Memory.wfFrom, Bool.and_eq_true, decide_eq_true_eq, bne_iff_ne]
    exact ⟨⟨⟨hlo, ha⟩, hb⟩, h⟩

/-- Writing a byte below the capacity keeps the canonical form. -/
theorem Memory.wfFrom_write {cap lo : Nat} {m : Memory} {a : Nat} {b : Byte}
    (h : Memory.wfFrom cap lo m = true) (hlo : lo ≤ a) (ha : a < cap) :
    Memory.wfFrom cap lo (m.write a b) = true := by
  induction m generalizing lo with
  | nil => exact Memory.wfFrom_put rfl hlo ha
  | cons c m ih =>
    obtain ⟨k, c⟩ := c
    simp only [Memory.wfFrom, Bool.and_eq_true, decide_eq_true_eq] at h
    simp only [Memory.write]
    split_ifs with h1 h2
    · refine Memory.wfFrom_put ?_ hlo ha
      simp only [Memory.wfFrom, Bool.and_eq_true, decide_eq_true_eq]
      exact ⟨⟨⟨by omega, h.1.1.2⟩, h.1.2⟩, h.2⟩
    · subst h2
      exact Memory.wfFrom_put h.2 hlo ha
    · simp only [Memory.wfFrom, Bool.and_eq_true, decide_eq_true_eq]
      exact ⟨⟨⟨h.1.1.1, h.1.1.2⟩, h.1.2⟩, ih h.2 (by omega)⟩

theorem Memory.wf_write {cap : Nat} {m : Memory} {a : Nat} {b : Byte} (h : m.wf cap = true)
    (ha : a < cap) : (m.write a b).wf cap = true :=
  Memory.wfFrom_write h (Nat.zero_le a) ha

theorem Memory.wf_writeBytes {cap : Nat} {m : Memory} {a : Nat} {bs : List Byte}
    (h : m.wf cap = true) (ha : a + bs.length ≤ cap) : (m.writeBytes a bs).wf cap = true := by
  induction bs generalizing m a with
  | nil => exact h
  | cons b bs ih =>
    simp only [List.length_cons] at ha
    exact ih (Memory.wf_write h (by omega)) (by omega)

@[simp] theorem Memory.wf_nil (cap : Nat) : Memory.wf cap [] = true := rfl

/-- A run of bytes reads back; every other address is left alone (R84, R86). -/
theorem Memory.read_writeBytes {cap : Nat} {m : Memory} {a x : Nat} {bs : List Byte}
    (h : m.wf cap = true) (ha : a + bs.length ≤ cap) :
    (m.writeBytes a bs).read x =
      if a ≤ x ∧ x < a + bs.length then bs.getD (x - a) 0 else m.read x := by
  induction bs generalizing m a with
  | nil =>
    have : ¬ (a ≤ x ∧ x < a + ([] : List Byte).length) := by simp
    rw [if_neg this]; rfl
  | cons b bs ih =>
    simp only [List.length_cons] at ha
    have hw := Memory.wf_write (b := b) h (show a < cap by omega)
    simp only [Memory.writeBytes, List.length_cons]
    rw [ih hw (by omega), Memory.read_write m a x b h]
    by_cases hx : x = a
    · subst hx
      rw [if_neg (by omega), if_pos rfl, if_pos (by omega)]
      simp
    · rw [if_neg hx]
      by_cases h1 : a + 1 ≤ x ∧ x < a + 1 + bs.length
      · rw [if_pos h1, if_pos (by omega)]
        have : x - a = (x - (a + 1)) + 1 := by omega
        rw [this, List.getD_cons_succ]
      · rw [if_neg h1, if_neg (by omega)]

/-- A write of a run leaves every address outside it alone, whatever the form of the store. -/
theorem Memory.read_writeBytes_of_outside {m : Memory} {a x : Nat} {bs : List Byte}
    (hx : x < a ∨ a + bs.length ≤ x) : (m.writeBytes a bs).read x = m.read x := by
  induction bs generalizing m a with
  | nil => rfl
  | cons b bs ih =>
    simp only [List.length_cons] at hx
    simp only [Memory.writeBytes]
    rw [ih (by omega), Memory.read_write_ne (by omega)]

@[simp] theorem Memory.readBytes_length (m : Memory) (a n : Nat) : (m.readBytes a n).length = n := by
  induction n generalizing a with
  | zero => rfl
  | succ n ih => simp [Memory.readBytes, ih]

theorem Memory.readBytes_getD (m : Memory) (a n k : Nat) (hk : k < n) :
    (m.readBytes a n).getD k 0 = m.read (a + k) := by
  induction n generalizing a k with
  | zero => omega
  | succ n ih =>
    cases k with
    | zero => simp [Memory.readBytes]
    | succ k =>
      simp only [Memory.readBytes, List.getD_cons_succ]
      rw [ih (a + 1) k (by omega)]
      congr 1; omega

/-- Equal bytes make equal runs. -/
theorem Memory.readBytes_congr {m m' : Memory} {a n : Nat}
    (h : ∀ x, a ≤ x → x < a + n → m.read x = m'.read x) : m.readBytes a n = m'.readBytes a n := by
  induction n generalizing a with
  | zero => rfl
  | succ n ih =>
    simp only [Memory.readBytes]
    rw [h a (le_refl a) (by omega), ih (fun x h1 h2 => h x (by omega) (by omega))]

/-- `store` then `load` of a run of bytes returns what was stored (R87). -/
theorem Memory.readBytes_writeBytes {cap : Nat} {m : Memory} {a : Nat} {bs : List Byte}
    (h : m.wf cap = true) (ha : a + bs.length ≤ cap) :
    (m.writeBytes a bs).readBytes a bs.length = bs := by
  apply List.ext_getElem (by simp)
  intro k h1 h2
  have hk : k < bs.length := by simpa using h1
  have := Memory.readBytes_getD (m.writeBytes a bs) a bs.length k hk
  rw [Memory.read_writeBytes h ha, if_pos (by omega)] at this
  rw [List.getD_eq_getElem _ _ h1] at this
  rw [this]
  have e : a + k - a = k := by omega
  rw [e, List.getD_eq_getElem _ _ hk]

end Machine

end Sys2Proof
end

