-- ==== Sys2Proof/Laws/State.lean ====
section
/-! SUPPORT. What each named update of the state does to each field, so that no proof unfolds a record update. -/

namespace Sys2Proof.Machine

variable (s : State)

/-! ### `setFlags` -/

@[simp] theorem setFlags_cfg (f : BitVec 3) : (s.setFlags f).cfg = s.cfg := rfl
@[simp] theorem setFlags_pc (f : BitVec 3) : (s.setFlags f).pc = s.pc := rfl
@[simp] theorem setFlags_flags (f : BitVec 3) : (s.setFlags f).flags = s.flags ||| f := rfl
@[simp] theorem setFlags_status (f : BitVec 3) : (s.setFlags f).status = s.status := rfl
@[simp] theorem setFlags_debug (f : BitVec 3) : (s.setFlags f).debug = s.debug := rfl
@[simp] theorem setFlags_sp (f : BitVec 3) : (s.setFlags f).sp = s.sp := rfl
@[simp] theorem setFlags_stack (f : BitVec 3) : (s.setFlags f).stack = s.stack := rfl
@[simp] theorem setFlags_mem (f : BitVec 3) : (s.setFlags f).mem = s.mem := rfl
@[simp] theorem setFlags_map (f : BitVec 3) : (s.setFlags f).map = s.map := rfl
@[simp] theorem setFlags_pid (f : BitVec 3) : (s.setFlags f).pid = s.pid := rfl
@[simp] theorem setFlags_timeBase (f : BitVec 3) : (s.setFlags f).timeBase = s.timeBase := rfl
@[simp] theorem setFlags_prog (f : BitVec 3) : (s.setFlags f).prog = s.prog := rfl
@[simp] theorem setFlags_seq (f : BitVec 3) : (s.setFlags f).seq = s.seq := rfl
@[simp] theorem setFlags_netPending (f : BitVec 3) : (s.setFlags f).netPending = s.netPending := rfl
@[simp] theorem setFlags_hostPending (f : BitVec 3) : (s.setFlags f).hostPending = s.hostPending := rfl
@[simp] theorem setFlags_inputs (f : BitVec 3) : (s.setFlags f).inputs = s.inputs := rfl

/-! ### `seed` -/

@[simp] theorem seed_cfg (op : Byte) : (s.seed op).cfg = s.cfg := rfl
@[simp] theorem seed_pc (op : Byte) : (s.seed op).pc = s.pc := rfl
@[simp] theorem seed_flags (op : Byte) : (s.seed op).flags = s.flags := rfl
@[simp] theorem seed_status (op : Byte) : (s.seed op).status = seedStatus s.pc op := rfl
@[simp] theorem seed_debug (op : Byte) : (s.seed op).debug = s.debug := rfl
@[simp] theorem seed_sp (op : Byte) : (s.seed op).sp = s.sp := rfl
@[simp] theorem seed_stack (op : Byte) : (s.seed op).stack = s.stack := rfl
@[simp] theorem seed_mem (op : Byte) : (s.seed op).mem = s.mem := rfl
@[simp] theorem seed_map (op : Byte) : (s.seed op).map = s.map := rfl
@[simp] theorem seed_pid (op : Byte) : (s.seed op).pid = s.pid := rfl
@[simp] theorem seed_timeBase (op : Byte) : (s.seed op).timeBase = s.timeBase := rfl
@[simp] theorem seed_prog (op : Byte) : (s.seed op).prog = s.prog := rfl
@[simp] theorem seed_seq (op : Byte) : (s.seed op).seq = s.seq := rfl
@[simp] theorem seed_netPending (op : Byte) : (s.seed op).netPending = s.netPending := rfl
@[simp] theorem seed_hostPending (op : Byte) : (s.seed op).hostPending = s.hostPending := rfl
@[simp] theorem seed_inputs (op : Byte) : (s.seed op).inputs = s.inputs := rfl

/-! ### `haltWith` -/

@[simp] theorem haltWith_cfg (e : ErrorCode) (p : Addr) : (haltWith e p s).cfg = s.cfg := rfl
@[simp] theorem haltWith_pc (e : ErrorCode) (p : Addr) : (haltWith e p s).pc = p := rfl
@[simp] theorem haltWith_flags (e : ErrorCode) (p : Addr) : (haltWith e p s).flags = s.flags ||| (errorBit ||| haltedBit) := rfl
@[simp] theorem haltWith_status (e : ErrorCode) (p : Addr) : (haltWith e p s).status = s.status ||| e.code.setWidth 32 := rfl
@[simp] theorem haltWith_debug (e : ErrorCode) (p : Addr) : (haltWith e p s).debug = s.debug := rfl
@[simp] theorem haltWith_sp (e : ErrorCode) (p : Addr) : (haltWith e p s).sp = s.sp := rfl
@[simp] theorem haltWith_stack (e : ErrorCode) (p : Addr) : (haltWith e p s).stack = s.stack := rfl
@[simp] theorem haltWith_mem (e : ErrorCode) (p : Addr) : (haltWith e p s).mem = s.mem := rfl
@[simp] theorem haltWith_map (e : ErrorCode) (p : Addr) : (haltWith e p s).map = s.map := rfl
@[simp] theorem haltWith_pid (e : ErrorCode) (p : Addr) : (haltWith e p s).pid = s.pid := rfl
@[simp] theorem haltWith_timeBase (e : ErrorCode) (p : Addr) : (haltWith e p s).timeBase = s.timeBase := rfl
@[simp] theorem haltWith_prog (e : ErrorCode) (p : Addr) : (haltWith e p s).prog = s.prog := rfl
@[simp] theorem haltWith_seq (e : ErrorCode) (p : Addr) : (haltWith e p s).seq = s.seq := rfl
@[simp] theorem haltWith_netPending (e : ErrorCode) (p : Addr) : (haltWith e p s).netPending = s.netPending := rfl
@[simp] theorem haltWith_hostPending (e : ErrorCode) (p : Addr) : (haltWith e p s).hostPending = s.hostPending := rfl
@[simp] theorem haltWith_inputs (e : ErrorCode) (p : Addr) : (haltWith e p s).inputs = s.inputs := rfl

/-! ### `restart` -/

@[simp] theorem restart_cfg : (restart s).cfg = s.cfg := rfl
@[simp] theorem restart_pc : (restart s).pc = 0 := rfl
@[simp] theorem restart_flags : (restart s).flags = 0 := rfl
@[simp] theorem restart_status : (restart s).status = 0 := rfl
@[simp] theorem restart_debug : (restart s).debug = s.debug := rfl
@[simp] theorem restart_sp : (restart s).sp = s.sp := rfl
@[simp] theorem restart_stack : (restart s).stack = s.stack := rfl
@[simp] theorem restart_mem : (restart s).mem = s.mem := rfl
@[simp] theorem restart_map : (restart s).map = s.map := rfl
@[simp] theorem restart_pid : (restart s).pid = s.pid := rfl
@[simp] theorem restart_timeBase : (restart s).timeBase = s.timeBase := rfl
@[simp] theorem restart_prog : (restart s).prog = s.prog := rfl
@[simp] theorem restart_seq : (restart s).seq = s.seq := rfl
@[simp] theorem restart_netPending : (restart s).netPending = s.netPending := rfl
@[simp] theorem restart_hostPending : (restart s).hostPending = s.hostPending := rfl
@[simp] theorem restart_inputs : (restart s).inputs = s.inputs := rfl

/-! ### `setSlot` -/

@[simp] theorem setSlot_cfg (k : SlotId) (m : MapSlot) : (setSlot k m s).cfg = s.cfg := rfl
@[simp] theorem setSlot_pc (k : SlotId) (m : MapSlot) : (setSlot k m s).pc = s.pc := rfl
@[simp] theorem setSlot_flags (k : SlotId) (m : MapSlot) : (setSlot k m s).flags = s.flags := rfl
@[simp] theorem setSlot_status (k : SlotId) (m : MapSlot) : (setSlot k m s).status = s.status := rfl
@[simp] theorem setSlot_debug (k : SlotId) (m : MapSlot) : (setSlot k m s).debug = s.debug := rfl
@[simp] theorem setSlot_sp (k : SlotId) (m : MapSlot) : (setSlot k m s).sp = s.sp := rfl
@[simp] theorem setSlot_stack (k : SlotId) (m : MapSlot) : (setSlot k m s).stack = s.stack := rfl
@[simp] theorem setSlot_mem (k : SlotId) (m : MapSlot) : (setSlot k m s).mem = s.mem := rfl
@[simp] theorem setSlot_map (k : SlotId) (m : MapSlot) : (setSlot k m s).map = s.map.set k m := rfl
@[simp] theorem setSlot_pid (k : SlotId) (m : MapSlot) : (setSlot k m s).pid = s.pid := rfl
@[simp] theorem setSlot_timeBase (k : SlotId) (m : MapSlot) : (setSlot k m s).timeBase = s.timeBase := rfl
@[simp] theorem setSlot_prog (k : SlotId) (m : MapSlot) : (setSlot k m s).prog = s.prog := rfl
@[simp] theorem setSlot_seq (k : SlotId) (m : MapSlot) : (setSlot k m s).seq = s.seq := rfl
@[simp] theorem setSlot_netPending (k : SlotId) (m : MapSlot) : (setSlot k m s).netPending = s.netPending := rfl
@[simp] theorem setSlot_hostPending (k : SlotId) (m : MapSlot) : (setSlot k m s).hostPending = s.hostPending := rfl
@[simp] theorem setSlot_inputs (k : SlotId) (m : MapSlot) : (setSlot k m s).inputs = s.inputs := rfl

/-! ### `setPid` -/

@[simp] theorem setPid_cfg (i : PidId) (p : Pid) : (setPid i p s).cfg = s.cfg := rfl
@[simp] theorem setPid_pc (i : PidId) (p : Pid) : (setPid i p s).pc = s.pc := rfl
@[simp] theorem setPid_flags (i : PidId) (p : Pid) : (setPid i p s).flags = s.flags := rfl
@[simp] theorem setPid_status (i : PidId) (p : Pid) : (setPid i p s).status = s.status := rfl
@[simp] theorem setPid_debug (i : PidId) (p : Pid) : (setPid i p s).debug = s.debug := rfl
@[simp] theorem setPid_sp (i : PidId) (p : Pid) : (setPid i p s).sp = s.sp := rfl
@[simp] theorem setPid_stack (i : PidId) (p : Pid) : (setPid i p s).stack = s.stack := rfl
@[simp] theorem setPid_mem (i : PidId) (p : Pid) : (setPid i p s).mem = s.mem := rfl
@[simp] theorem setPid_map (i : PidId) (p : Pid) : (setPid i p s).map = s.map := rfl
@[simp] theorem setPid_pid (i : PidId) (p : Pid) : (setPid i p s).pid = s.pid.set i p := rfl
@[simp] theorem setPid_timeBase (i : PidId) (p : Pid) : (setPid i p s).timeBase = s.timeBase := rfl
@[simp] theorem setPid_prog (i : PidId) (p : Pid) : (setPid i p s).prog = s.prog := rfl
@[simp] theorem setPid_seq (i : PidId) (p : Pid) : (setPid i p s).seq = s.seq := rfl
@[simp] theorem setPid_netPending (i : PidId) (p : Pid) : (setPid i p s).netPending = s.netPending := rfl
@[simp] theorem setPid_hostPending (i : PidId) (p : Pid) : (setPid i p s).hostPending = s.hostPending := rfl
@[simp] theorem setPid_inputs (i : PidId) (p : Pid) : (setPid i p s).inputs = s.inputs := rfl

/-! ### `clearMem` -/

@[simp] theorem clearMem_cfg : (clearMem s).cfg = s.cfg := rfl
@[simp] theorem clearMem_pc : (clearMem s).pc = s.pc := rfl
@[simp] theorem clearMem_flags : (clearMem s).flags = s.flags := rfl
@[simp] theorem clearMem_status : (clearMem s).status = s.status := rfl
@[simp] theorem clearMem_debug : (clearMem s).debug = s.debug := rfl
@[simp] theorem clearMem_sp : (clearMem s).sp = s.sp := rfl
@[simp] theorem clearMem_stack : (clearMem s).stack = s.stack := rfl
@[simp] theorem clearMem_mem : (clearMem s).mem = [] := rfl
@[simp] theorem clearMem_map : (clearMem s).map = s.map := rfl
@[simp] theorem clearMem_pid : (clearMem s).pid = s.pid := rfl
@[simp] theorem clearMem_timeBase : (clearMem s).timeBase = s.timeBase := rfl
@[simp] theorem clearMem_prog : (clearMem s).prog = s.prog := rfl
@[simp] theorem clearMem_seq : (clearMem s).seq = s.seq := rfl
@[simp] theorem clearMem_netPending : (clearMem s).netPending = s.netPending := rfl
@[simp] theorem clearMem_hostPending : (clearMem s).hostPending = s.hostPending := rfl
@[simp] theorem clearMem_inputs : (clearMem s).inputs = s.inputs := rfl

/-! ### `clearMap` -/

@[simp] theorem clearMap_cfg : (clearMap s).cfg = s.cfg := rfl
@[simp] theorem clearMap_pc : (clearMap s).pc = s.pc := rfl
@[simp] theorem clearMap_flags : (clearMap s).flags = s.flags := rfl
@[simp] theorem clearMap_status : (clearMap s).status = s.status := rfl
@[simp] theorem clearMap_debug : (clearMap s).debug = s.debug := rfl
@[simp] theorem clearMap_sp : (clearMap s).sp = s.sp := rfl
@[simp] theorem clearMap_stack : (clearMap s).stack = s.stack := rfl
@[simp] theorem clearMap_mem : (clearMap s).mem = s.mem := rfl
@[simp] theorem clearMap_map : (clearMap s).map = Vector.replicate Config.maxSlots (MapSlot.unmapped s.cfg) := rfl
@[simp] theorem clearMap_pid : (clearMap s).pid = s.pid := rfl
@[simp] theorem clearMap_timeBase : (clearMap s).timeBase = s.timeBase := rfl
@[simp] theorem clearMap_prog : (clearMap s).prog = s.prog := rfl
@[simp] theorem clearMap_seq : (clearMap s).seq = s.seq := rfl
@[simp] theorem clearMap_netPending : (clearMap s).netPending = s.netPending := rfl
@[simp] theorem clearMap_hostPending : (clearMap s).hostPending = s.hostPending := rfl
@[simp] theorem clearMap_inputs : (clearMap s).inputs = s.inputs := rfl

/-! ### `clearStack` -/

@[simp] theorem clearStack_cfg : (clearStack s).cfg = s.cfg := rfl
@[simp] theorem clearStack_pc : (clearStack s).pc = s.pc := rfl
@[simp] theorem clearStack_flags : (clearStack s).flags = s.flags := rfl
@[simp] theorem clearStack_status : (clearStack s).status = s.status := rfl
@[simp] theorem clearStack_debug : (clearStack s).debug = s.debug := rfl
@[simp] theorem clearStack_sp : (clearStack s).sp = 0 := rfl
@[simp] theorem clearStack_stack : (clearStack s).stack = List.replicate s.cfg.stackDepth 0 := rfl
@[simp] theorem clearStack_mem : (clearStack s).mem = s.mem := rfl
@[simp] theorem clearStack_map : (clearStack s).map = s.map := rfl
@[simp] theorem clearStack_pid : (clearStack s).pid = s.pid := rfl
@[simp] theorem clearStack_timeBase : (clearStack s).timeBase = s.timeBase := rfl
@[simp] theorem clearStack_prog : (clearStack s).prog = s.prog := rfl
@[simp] theorem clearStack_seq : (clearStack s).seq = s.seq := rfl
@[simp] theorem clearStack_netPending : (clearStack s).netPending = s.netPending := rfl
@[simp] theorem clearStack_hostPending : (clearStack s).hostPending = s.hostPending := rfl
@[simp] theorem clearStack_inputs : (clearStack s).inputs = s.inputs := rfl

/-! ### `pidClearOp` -/

@[simp] theorem pidClearOp_cfg (i : PidId) : (pidClearOp i s).cfg = s.cfg := rfl
@[simp] theorem pidClearOp_pc (i : PidId) : (pidClearOp i s).pc = s.pc := rfl
@[simp] theorem pidClearOp_flags (i : PidId) : (pidClearOp i s).flags = s.flags := rfl
@[simp] theorem pidClearOp_status (i : PidId) : (pidClearOp i s).status = s.status := rfl
@[simp] theorem pidClearOp_debug (i : PidId) : (pidClearOp i s).debug = s.debug := rfl
@[simp] theorem pidClearOp_sp (i : PidId) : (pidClearOp i s).sp = s.sp := rfl
@[simp] theorem pidClearOp_stack (i : PidId) : (pidClearOp i s).stack = s.stack := rfl
@[simp] theorem pidClearOp_mem (i : PidId) : (pidClearOp i s).mem = s.mem := rfl
@[simp] theorem pidClearOp_map (i : PidId) : (pidClearOp i s).map = s.map := rfl
@[simp] theorem pidClearOp_pid (i : PidId) : (pidClearOp i s).pid = s.pid.set i { s.pid[i] with initialized := false } := rfl
@[simp] theorem pidClearOp_timeBase (i : PidId) : (pidClearOp i s).timeBase = s.timeBase := rfl
@[simp] theorem pidClearOp_prog (i : PidId) : (pidClearOp i s).prog = s.prog := rfl
@[simp] theorem pidClearOp_seq (i : PidId) : (pidClearOp i s).seq = s.seq := rfl
@[simp] theorem pidClearOp_netPending (i : PidId) : (pidClearOp i s).netPending = s.netPending := rfl
@[simp] theorem pidClearOp_hostPending (i : PidId) : (pidClearOp i s).hostPending = s.hostPending := rfl
@[simp] theorem pidClearOp_inputs (i : PidId) : (pidClearOp i s).inputs = s.inputs := rfl

/-! ### `pidResetOp` -/

@[simp] theorem pidResetOp_cfg (i : PidId) : (pidResetOp i s).cfg = s.cfg := rfl
@[simp] theorem pidResetOp_pc (i : PidId) : (pidResetOp i s).pc = s.pc := rfl
@[simp] theorem pidResetOp_flags (i : PidId) : (pidResetOp i s).flags = s.flags := rfl
@[simp] theorem pidResetOp_status (i : PidId) : (pidResetOp i s).status = s.status := rfl
@[simp] theorem pidResetOp_debug (i : PidId) : (pidResetOp i s).debug = s.debug := rfl
@[simp] theorem pidResetOp_sp (i : PidId) : (pidResetOp i s).sp = s.sp := rfl
@[simp] theorem pidResetOp_stack (i : PidId) : (pidResetOp i s).stack = s.stack := rfl
@[simp] theorem pidResetOp_mem (i : PidId) : (pidResetOp i s).mem = s.mem := rfl
@[simp] theorem pidResetOp_map (i : PidId) : (pidResetOp i s).map = s.map := rfl
@[simp] theorem pidResetOp_pid (i : PidId) : (pidResetOp i s).pid = s.pid.set i Pid.resetValue := rfl
@[simp] theorem pidResetOp_timeBase (i : PidId) : (pidResetOp i s).timeBase = s.timeBase := rfl
@[simp] theorem pidResetOp_prog (i : PidId) : (pidResetOp i s).prog = s.prog := rfl
@[simp] theorem pidResetOp_seq (i : PidId) : (pidResetOp i s).seq = s.seq := rfl
@[simp] theorem pidResetOp_netPending (i : PidId) : (pidResetOp i s).netPending = s.netPending := rfl
@[simp] theorem pidResetOp_hostPending (i : PidId) : (pidResetOp i s).hostPending = s.hostPending := rfl
@[simp] theorem pidResetOp_inputs (i : PidId) : (pidResetOp i s).inputs = s.inputs := rfl

/-! ### `placeAtPc` -/

@[simp] theorem placeAtPc_cfg (bs : List Byte) : (placeAtPc bs s).cfg = s.cfg := rfl
@[simp] theorem placeAtPc_pc (bs : List Byte) : (placeAtPc bs s).pc = s.pc := rfl
@[simp] theorem placeAtPc_flags (bs : List Byte) : (placeAtPc bs s).flags = s.flags := rfl
@[simp] theorem placeAtPc_status (bs : List Byte) : (placeAtPc bs s).status = s.status := rfl
@[simp] theorem placeAtPc_debug (bs : List Byte) : (placeAtPc bs s).debug = s.debug := rfl
@[simp] theorem placeAtPc_sp (bs : List Byte) : (placeAtPc bs s).sp = s.sp := rfl
@[simp] theorem placeAtPc_stack (bs : List Byte) : (placeAtPc bs s).stack = s.stack := rfl
@[simp] theorem placeAtPc_mem (bs : List Byte) : (placeAtPc bs s).mem = s.mem := rfl
@[simp] theorem placeAtPc_map (bs : List Byte) : (placeAtPc bs s).map = s.map := rfl
@[simp] theorem placeAtPc_pid (bs : List Byte) : (placeAtPc bs s).pid = s.pid := rfl
@[simp] theorem placeAtPc_timeBase (bs : List Byte) : (placeAtPc bs s).timeBase = s.timeBase := rfl
@[simp] theorem placeAtPc_prog (bs : List Byte) : (placeAtPc bs s).prog = s.prog.writeBytes s.pc.toNat (bs.take (s.cfg.progCap - s.pc.toNat)) := rfl
@[simp] theorem placeAtPc_seq (bs : List Byte) : (placeAtPc bs s).seq = s.seq := rfl
@[simp] theorem placeAtPc_netPending (bs : List Byte) : (placeAtPc bs s).netPending = s.netPending := rfl
@[simp] theorem placeAtPc_hostPending (bs : List Byte) : (placeAtPc bs s).hostPending = s.hostPending := rfl
@[simp] theorem placeAtPc_inputs (bs : List Byte) : (placeAtPc bs s).inputs = s.inputs := rfl

/-! ### `readyToStep` -/

@[simp] theorem readyToStep_cfg : (readyToStep s).cfg = s.cfg := rfl
@[simp] theorem readyToStep_pc : (readyToStep s).pc = s.pc := rfl
@[simp] theorem readyToStep_flags : (readyToStep s).flags = s.flags &&& ~~~haltedBit := rfl
@[simp] theorem readyToStep_status : (readyToStep s).status = s.status := rfl
@[simp] theorem readyToStep_debug : (readyToStep s).debug = s.debug := rfl
@[simp] theorem readyToStep_sp : (readyToStep s).sp = s.sp := rfl
@[simp] theorem readyToStep_stack : (readyToStep s).stack = s.stack := rfl
@[simp] theorem readyToStep_mem : (readyToStep s).mem = s.mem := rfl
@[simp] theorem readyToStep_map : (readyToStep s).map = s.map := rfl
@[simp] theorem readyToStep_pid : (readyToStep s).pid = s.pid := rfl
@[simp] theorem readyToStep_timeBase : (readyToStep s).timeBase = s.timeBase := rfl
@[simp] theorem readyToStep_prog : (readyToStep s).prog = s.prog := rfl
@[simp] theorem readyToStep_seq : (readyToStep s).seq = s.seq := rfl
@[simp] theorem readyToStep_netPending : (readyToStep s).netPending = s.netPending := rfl
@[simp] theorem readyToStep_hostPending : (readyToStep s).hostPending = s.hostPending := rfl
@[simp] theorem readyToStep_inputs : (readyToStep s).inputs = [] := rfl

end Sys2Proof.Machine
end

