-- ==== Sys2Proof/Laws/Ops.lean ====
section
/-! SUPPORT. One lemma per shared operation that says all it can do: results, data-memory accesses, operands, the
in-place frame, the return stack, and the mapping table. -/

namespace Sys2Proof.Machine

/-! ### Results -/

@[simp] theorem Res.bind_done {α β : Type} (a : α) (s : State) (f : α → State → Res β) :
    (Res.done a s).bind f = f a s := rfl

@[simp] theorem Res.bind_raised {α β : Type} (e : ErrorCode) (s : State) (f : α → State → Res β) :
    (Res.raised e s : Res α).bind f = .raised e s := rfl

theorem Res.bind_eq_done {α β : Type} {r : Res α} {f : α → State → Res β} {b : β} {t : State}
    (h : r.bind f = .done b t) : ∃ a s, r = .done a s ∧ f a s = .done b t := by
  cases r with
  | done a s => exact ⟨a, s, rfl, h⟩
  | raised e s => exact absurd h (by simp)

/-- Where a chain raises: its first part does, or its second part does from where the first left off. -/
theorem Res.bind_eq_raised {α β : Type} {r : Res α} {f : α → State → Res β} {e : ErrorCode} {t : State}
    (h : r.bind f = .raised e t) :
    r = .raised e t ∨ ∃ a s, r = .done a s ∧ f a s = .raised e t := by
  cases r with
  | done a s => exact .inr ⟨a, s, rfl, h⟩
  | raised e' s => left; simpa using h

@[simp] theorem conclude_done (p t : Addr) (s : State) :
    conclude p (.done t s) = .next { s with pc := t } := rfl

@[simp] theorem conclude_raised (p : Addr) (e : ErrorCode) (s : State) :
    conclude p (.raised e s) = .next (haltWith e p s) := rfl

@[simp] theorem concludeAfter_done (p : Addr) (n : Nat) (s : State) :
    concludeAfter p n (.done () s) = .next { s with pc := pcAfter p n } := rfl

@[simp] theorem concludeAfter_raised (p : Addr) (n : Nat) (e : ErrorCode) (s : State) :
    concludeAfter p n (.raised e s) = .next (haltWith e p s) := rfl

/-- An instruction ends in a completed step or in the fault entry (R404). -/
theorem conclude_next (p : Addr) (r : Res Addr) :
    ∃ t, conclude p r = .next t ∧
      ((∃ x s, r = .done x s ∧ t = { s with pc := x }) ∨
        ∃ e s, r = .raised e s ∧ t = haltWith e p s) := by
  cases r with
  | done x s => exact ⟨_, rfl, .inl ⟨x, s, rfl, rfl⟩⟩
  | raised e s => exact ⟨_, rfl, .inr ⟨e, s, rfl, rfl⟩⟩

theorem concludeAfter_next (p : Addr) (n : Nat) (r : Res Unit) :
    ∃ t, concludeAfter p n r = .next t ∧
      ((∃ s, r = .done () s ∧ t = { s with pc := pcAfter p n }) ∨
        ∃ e s, r = .raised e s ∧ t = haltWith e p s) := by
  cases r with
  | done x s => exact ⟨_, rfl, .inl ⟨s, rfl, rfl⟩⟩
  | raised e s => exact ⟨_, rfl, .inr ⟨e, s, rfl, rfl⟩⟩

/-! ### The other agents' turn -/

/-- With nothing scheduled, no other agent acts. -/
@[simp] theorem turn_of_inputs_nil (held : Option PidId) (s : State) (h : s.inputs = []) :
    turn held s = s := by
  simp only [turn, h, runMoves]
  cases s; simp_all

/-- With no transaction in progress on any controller, beginning one changes nothing. -/
theorem acquire_of_quiet (i : PidId) (s : State) (hq : s.seq = .idle) (hh : s.hostPending = none) :
    acquire i s = s := by
  simp [acquire, finishHostOn, hh, finishSequencerOn, hq, Sequencer.holds]

theorem beginBank_of_quiet (i : PidId) (s : State) (h : s.quiet) : beginBank i s = s := by
  obtain ⟨h1, h2, h3⟩ := h
  simp [beginBank, turn_of_inputs_nil _ s h1, acquire_of_quiet i s h2 h3]

/-! ### Bounds-checked data memory -/

theorem inBounds_iff (a n : Nat) (s : State) : inBounds a n s = true ↔ a + n ≤ s.cfg.memCap := by
  simp [inBounds]

theorem memRead_of_inBounds {a n : Nat} {s : State} (h : inBounds a n s = true) :
    memRead a n s = some (leValue (s.mem.readBytes a n)) := by
  simp [memRead, h]

theorem memRead_eq_some {a n v : Nat} {s : State} (h : memRead a n s = some v) :
    inBounds a n s = true ∧ v = leValue (s.mem.readBytes a n) := by
  unfold memRead at h
  split at h
  · rename_i hb; exact ⟨hb, by simpa using h.symm⟩
  · cases h

theorem memRead_eq_none {a n : Nat} {s : State} : memRead a n s = none ↔ inBounds a n s = false := by
  unfold memRead
  cases inBounds a n s <;> simp

theorem memWrite_of_inBounds {a n v : Nat} {s : State} (h : inBounds a n s = true) :
    memWrite a n v s = some { s with mem := s.mem.writeBytes a (leBytes n v) } := by
  simp [memWrite, h]

theorem memWrite_eq_some {a n v : Nat} {s t : State} (h : memWrite a n v s = some t) :
    inBounds a n s = true ∧ t = { s with mem := s.mem.writeBytes a (leBytes n v) } := by
  unfold memWrite at h
  split at h
  · rename_i hb; exact ⟨hb, by simpa using h.symm⟩
  · cases h

theorem memWrite_eq_none {a n v : Nat} {s : State} :
    memWrite a n v s = none ↔ inBounds a n s = false := by
  unfold memWrite
  cases inBounds a n s <;> simp

/-- A write within bounds keeps the data memory's canonical form. -/
theorem memWrite_wf {a n v : Nat} {s t : State} (h : memWrite a n v s = some t)
    (hw : s.mem.wf s.cfg.memCap = true) : t.mem.wf s.cfg.memCap = true := by
  obtain ⟨hb, rfl⟩ := memWrite_eq_some h
  exact Memory.wf_writeBytes hw (by rw [leBytes_length]; exact (inBounds_iff a n s).mp hb)

/-- `store` then `load` of the same type returns the written value, modulo its width (R87). -/
theorem memRead_memWrite {a n v : Nat} {s t : State} (h : memWrite a n v s = some t)
    (hw : s.mem.wf s.cfg.memCap = true) : memRead a n t = some (v % 256 ^ n) := by
  obtain ⟨hb, rfl⟩ := memWrite_eq_some h
  have hr := memRead_of_inBounds (s := { s with mem := s.mem.writeBytes a (leBytes n v) }) hb
  rw [hr]
  have ha : a + (leBytes n v).length ≤ s.cfg.memCap := by
    rw [leBytes_length]; exact (inBounds_iff a n s).mp hb
  have e := Memory.readBytes_writeBytes hw ha
  rw [leBytes_length] at e
  simp only [e, leValue_leBytes]

/-! ### Typed accesses and operands -/

/-- All that `Load_T` can do: the other agents' turn, then the value, or MemoryAccessViolation. -/
theorem loadTyped_eq (held : Option PidId) (t : Ty) (a : Nat) (s : State) :
    loadTyped held t a s =
      if inBounds a (t.width (turn held s).cfg) (turn held s) then
        .done (ofRaw t (leValue ((turn held s).mem.readBytes a (t.width (turn held s).cfg)))) (turn held s)
      else .raised .memoryAccessViolation (turn held s) := by
  unfold loadTyped memRead
  cases h : inBounds a (t.width (turn held s).cfg) (turn held s) <;> simp [h]

/-- All that `Store_T` can do. -/
theorem storeTyped_eq (t : Ty) (a : Nat) (v : Int) (s : State) :
    storeTyped t a v s =
      if inBounds a (t.width (turn none s).cfg) (turn none s) then
        .done () { turn none s with
          mem := (turn none s).mem.writeBytes a (leBytes (t.width (turn none s).cfg) (toRaw t v)) }
      else .raised .memoryAccessViolation (turn none s) := by
  unfold storeTyped memWrite
  cases h : inBounds a (t.width (turn none s).cfg) (turn none s) <;> simp [h]

@[simp] theorem evalOperand_lit (t : Ty) (raw : Word) (s : State) :
    evalOperand t (.lit raw) s = .done (ofRaw t raw.toNat) s := rfl

@[simp] theorem evalOperand_addr (t : Ty) (p : Addr) (s : State) :
    evalOperand t (.addr p) s = loadTyped none t p.toNat s := rfl

@[simp] theorem readTime_eq (s : State) :
    readTime s = .done (turn none s).timeBase.toNat (turn none s) := rfl

/-! ### Stored values depend on the raw pattern only -/

/-- A raw pattern read and stored again is the pattern, up to the bits of its type. -/
theorem toRaw_ofRaw (t : Ty) (raw : Nat) : toRaw t (ofRaw t raw) = raw % 2 ^ bits t := by
  cases t <;> simp only [toRaw, ofRaw, wrap, bits, sext32] <;> norm_num
  · omega
  · split_ifs <;> omega
  · omega
  · omega

/-! ### Return stack -/

theorem push_of_lt (v : Addr) (s : State) (h : s.sp < s.cfg.stackDepth) :
    push v s = .done () { s with sp := s.sp + 1, stack := s.stack.set s.sp v } := if_pos h

theorem push_of_full (v : Addr) (s : State) (h : s.sp = s.cfg.stackDepth) :
    push v s = .raised .stackOverflow s := if_neg (by omega)

theorem pop_of_empty (s : State) (h : s.sp = 0) : pop s = .raised .stackUnderflow s := by
  simp [pop, h]

/-- `pop` answers the entry below the pointer and keeps it stored (R38). -/
theorem pop_of_succ (s : State) {n : Nat} (h : s.sp = n + 1) :
    pop s = .done (s.stack.getD n 0) { s with sp := n } := by
  simp [pop, h]

/-! ### The slots and controllers that exist -/

theorem slotOf_eq_some {id : Nat} {s : State} {k : SlotId} :
    slotOf id s = some k ↔ k.val = id ∧ id < s.cfg.mapSlots := by
  have hk := k.isLt
  unfold slotOf
  split
  · rename_i h
    simp only [Option.some.injEq, Fin.ext_iff]
    omega
  · simp only [reduceCtorEq, false_iff]
    omega

theorem slotOf_eq_none {id : Nat} {s : State} :
    slotOf id s = none ↔ s.cfg.mapSlots ≤ id ∨ Config.maxSlots ≤ id := by
  unfold slotOf
  split <;> simp <;> omega

theorem pidOf_eq_some {id : Nat} {s : State} {i : PidId} :
    pidOf id s = some i ↔ i.val = id ∧ id < s.cfg.nPid := by
  have hi := i.isLt
  unfold pidOf
  split
  · rename_i h
    simp only [Option.some.injEq, Fin.ext_iff]
    omega
  · simp only [reduceCtorEq, false_iff]
    omega

theorem pidOf_eq_none {id : Nat} {s : State} :
    pidOf id s = none ↔ s.cfg.nPid ≤ id ∨ Config.maxPid ≤ id := by
  unfold pidOf
  split <;> simp <;> omega

/-! ### Mapping table -/

theorem mapEntry_of_some {id : Nat} {s : State} {k : SlotId} (h : slotOf id s = some k) (m : MapSlot) :
    mapEntry id m s = .done () (setSlot k { m with status := 0 } s) := by
  simp [mapEntry, h]

theorem unmap_of_some {id : Nat} {s : State} {k : SlotId} (h : slotOf id s = some k) :
    unmap id s = .done () (setSlot k (MapSlot.unmapped s.cfg) s) := by
  simp [unmap, h]

theorem checkMap_of_some {id : Nat} {s : State} {k : SlotId} (h : slotOf id s = some k) (del : Bool) :
    checkMap id del s = .done (slotReport s.cfg s.map[k])
      (if del && s.map[k].expires s.cfg then setSlot k (MapSlot.unmapped s.cfg) s else s) := by
  simp [checkMap, h]

/-- A table operation on a slot that does not exist faults and changes nothing (R94, R95, R99). -/
theorem mapEntry_of_none {id : Nat} {s : State} (h : slotOf id s = none) (m : MapSlot) :
    mapEntry id m s = .raised .idUnavailable s := by
  simp [mapEntry, h]

theorem unmap_of_none {id : Nat} {s : State} (h : slotOf id s = none) :
    unmap id s = .raised .idUnavailable s := by
  simp [unmap, h]

theorem checkMap_of_none {id : Nat} {s : State} (h : slotOf id s = none) (del : Bool) :
    checkMap id del s = .raised .idUnavailable s := by
  simp [checkMap, h]

@[simp] theorem unmapped_not_active (c : Config.Params) : (MapSlot.unmapped c).active c = false := by
  simp [MapSlot.unmapped, MapSlot.active]

/-- `getMapForAddress` answers a slot that exists and has that value address (R98). -/
theorem getMapForAddress_eq_some {a : Addr} {s : State} {i : SlotId} (h : getMapForAddress a s = some i) :
    i.val < s.cfg.mapSlots ∧ s.map[i].valueAddress = a := by
  simpa using List.find?_some h

theorem getMapForAddress_eq_none {a : Addr} {s : State} (h : getMapForAddress a s = none) (i : SlotId)
    (hi : i.val < s.cfg.mapSlots) : s.map[i].valueAddress ≠ a := by
  simpa [hi] using List.find?_eq_none.mp h i (List.mem_finRange i)

/-! ### The id check of the PID instructions -/

theorem withPidId_of_some {ot : Optype} {s : State} {i : PidId} (h : pidOf ot.id.toNat s = some i)
    (body : PidId → Res Unit) : withPidId ot s body = body i := by
  simp [withPidId, h]

theorem withPidId_of_none {ot : Optype} {s : State} (h : pidOf ot.id.toNat s = none)
    (body : PidId → Res Unit) : withPidId ot s body = .raised .idUnavailable s := by
  simp [withPidId, h]

end Sys2Proof.Machine
end

