-- ==== Sys2Proof/Laws/Agents.lean ====
section
/-! SUPPORT. What the other agents can do, said once (`AgentEffect`), and what follows from it: they leave the
engine's own state alone (R407, R421) and keep the invariants of the stores and of the bank. -/

namespace Sys2Proof.Machine

theorem sameEngine.refl (s : State) : sameEngine s s := ⟨rfl, rfl, rfl, rfl, rfl, rfl, rfl⟩

/-- A changed controller is sound where the old one was and what `sound` reads is the same. -/
theorem sound_of_fields {c : Config.Params} {p q : Pid} (h1 : q.initialized = true → p.initialized = true)
    (h2 : q.inAddr = p.inAddr) (h3 : q.outAddr = p.outAddr) (h4 : q.spAddr = p.spAddr)
    (h5 : q.sampleMs = p.sampleMs) : p.sound c → q.sound c := by
  intro h hi
  rw [h2, h3, h4, h5]
  exact h (h1 hi)

/-- What the other agents can do to a state: their own fields, a store within data memory, a controller that stays
sound, and the `status` of a mapping slot. The engine's own state is not among it (R407, R421). -/
inductive AgentEffect (s : State) : State → Prop
  | refl : AgentEffect s s
  | misc {t} (q : Sequencer) (np : Option NetAccess) (hp : Option LimitStore) (is : List Input) (tb : BitVec 64)
      (d : Bool) :
      AgentEffect s t → AgentEffect s
          { t with seq := q, netPending := np, hostPending := hp, inputs := is, timeBase := tb, debug := d }
  | store {t} (a : Nat) (bs : List Byte) : AgentEffect s t → a + bs.length ≤ t.cfg.memCap →
      AgentEffect s { t with mem := t.mem.writeBytes a bs }
  | pid {t} (k : PidId) (p : Pid) : AgentEffect s t → (t.pid[k].sound t.cfg → p.sound t.cfg) → AgentEffect s (setPid k p t)
  | slot {t} (k : SlotId) (st : Byte) : AgentEffect s t → AgentEffect s (setSlot k { t.map[k] with status := st } t)

theorem AgentEffect.trans {s t u} (h : AgentEffect s t) (h' : AgentEffect t u) : AgentEffect s u := by
  induction h' with
  | refl => exact h
  | misc q np hp is tb d _ ih => exact .misc q np hp is tb d ih
  | store a bs _ hb ih => exact .store a bs ih hb
  | pid k p _ hp ih => exact .pid k p ih hp
  | slot k st _ ih => exact .slot k st ih

theorem AgentEffect.memWrite {s t u a n v} (h : AgentEffect s t) (hw : memWrite a n v t = some u) :
    AgentEffect s u := by
  obtain ⟨hb, rfl⟩ := memWrite_eq_some hw
  exact .store a _ h (by simpa [inBounds] using hb)

theorem AgentEffect.seq {s t q} (h : AgentEffect s t) : AgentEffect s { t with seq := q } := .misc q _ _ _ _ _ h

theorem hostFinish_effect (s : State) : AgentEffect s (hostFinish s) := by
  unfold hostFinish
  cases hp : s.hostPending with
  | none => exact .refl
  | some l =>
    dsimp only
    have key : AgentEffect s { (storeRat s.pid[l.id].outAddr l.output s).getD s with hostPending := none } := by
      cases h : storeRat s.pid[l.id].outAddr l.output s with
      | none => exact .misc _ _ none _ _ _ .refl
      | some u => exact .misc _ _ none _ _ _ (AgentEffect.memWrite .refl h)
    refine .pid l.id _ key ?_
    refine sound_of_fields (p := _) ?_ ?_ ?_ ?_ ?_
    all_goals
      cases h : storeRat s.pid[l.id].outAddr l.output s with
      | none => simp
      | some u =>
        obtain ⟨hb, rfl⟩ := memWrite_eq_some h
        simp

theorem finishHostOn_effect (i) (s : State) : AgentEffect s (finishHostOn i s) := by
  unfold finishHostOn
  cases s.hostPending with
  | none => exact .refl
  | some l =>
    dsimp only
    split
    · exact hostFinish_effect s
    · exact .refl

theorem sequencerMove_effect (s : State) : AgentEffect s (sequencerMove s) := by
  unfold sequencerMove
  split
  · exact AgentEffect.seq .refl
  · dsimp only
    split
    · exact AgentEffect.seq (finishHostOn_effect _ s)
    · exact AgentEffect.seq (finishHostOn_effect _ s)
  · split <;> exact AgentEffect.seq .refl
  · split <;> exact AgentEffect.seq .refl
  · split
    · exact AgentEffect.seq .refl
    · exact .pid _ _ (AgentEffect.seq .refl) (sound_of_fields id rfl rfl rfl rfl)
  · dsimp only
    split
    · exact AgentEffect.seq .refl
    · rename_i u hu
      refine .pid _ _ (AgentEffect.seq (AgentEffect.memWrite .refl hu)) ?_
      obtain ⟨hb, rfl⟩ := memWrite_eq_some hu
      exact sound_of_fields id rfl rfl rfl rfl

theorem finishSequencerOn_effect (i n) (s : State) : AgentEffect s (finishSequencerOn i n s) := by
  induction n generalizing s with
  | zero => exact .refl
  | succ n ih =>
    unfold finishSequencerOn
    split
    · exact (sequencerMove_effect s).trans (ih _)
    · exact .refl

theorem acquire_effect (i) (s : State) : AgentEffect s (acquire i s) :=
    (finishHostOn_effect i s).trans (finishSequencerOn_effect i 4 _)

theorem setOutputLimits_effect (i lo hi) (s : State) : AgentEffect s (setOutputLimits i lo hi s) := by
  unfold setOutputLimits
  dsimp only
  split
  · exact .refl
  split
  · split
    · exact .pid _ _ .refl (sound_of_fields id rfl rfl rfl rfl)
    · split
      · exact .pid _ _ .refl (sound_of_fields id rfl rfl rfl rfl)
      · exact .misc _ _ _ _ _ _ (.pid _ _ .refl (sound_of_fields id rfl rfl rfl rfl))
  · exact .pid _ _ .refl (sound_of_fields id rfl rfl rfl rfl)

theorem setControllerDirection_effect (i d) (s : State) : AgentEffect s (setControllerDirection i d s) := by
  unfold setControllerDirection
  refine .pid _ _ .refl ?_
  split <;> exact sound_of_fields id rfl rfl rfl rfl

theorem hostAct_effect (op) (s : State) : AgentEffect s (hostAct op s) := by
  cases op with
  | writeDebug b => exact .misc _ _ _ _ _ b .refl
  | dumpPid id =>
    simp only [hostAct]; split
    · exact acquire_effect _ _
    · exact .refl
  | setOutputLimits id lo hi =>
    simp only [hostAct]; split
    · exact ((hostFinish_effect s).trans (acquire_effect _ _)).trans (setOutputLimits_effect _ _ _ _)
    · exact .refl
  | setControllerDirection id d =>
    simp only [hostAct]; split
    · exact ((hostFinish_effect s).trans (acquire_effect _ _)).trans (setControllerDirection_effect _ _ _)
    · exact .refl
  | _ => exact .refl

theorem netFinish_effect (s : State) : AgentEffect s (netFinish s) := by
  unfold netFinish
  split
  · exact .refl
  · split
    · exact .misc _ none _ _ _ _ .refl
    · rename_i a _ _ v _
      cases h : memWrite a.addr.toNat (a.ty.width s.cfg) v.toNat s with
      | none => exact .misc _ none _ _ _ _ .refl
      | some u => exact .misc _ none _ _ _ _ (AgentEffect.memWrite .refl h)

theorem netBegin_effect (op) (s : State) : AgentEffect s (netBegin op s) := by
  cases op with
  | readValue id => exact .misc _ _ _ _ _ _ .refl
  | writeValue id v => exact .misc _ _ _ _ _ _ .refl
  | mapDone id =>
    simp only [netBegin, mapDone]
    split
    · split
      · exact .slot _ _ .refl
      · exact .refl
    · exact .refl
  | mapError id c =>
    simp only [netBegin, mapError]
    split
    · split
      · exact .slot _ _ .refl
      · exact .refl
    · exact .refl
  | _ => exact .refl

theorem agentMove_effect (m) (s : State) : AgentEffect s (agentMove m s) := by
  cases m with
  | elapse us => exact .misc _ _ _ _ _ _ .refl
  | sequencer => exact sequencerMove_effect s
  | net op => exact (netFinish_effect s).trans (netBegin_effect op _)
  | netFinish => exact netFinish_effect s
  | host op => exact hostAct_effect op s
  | hostFinish => exact hostFinish_effect s

theorem AgentEffect.inputs {s t is} (h : AgentEffect s t) : AgentEffect s { t with inputs := is } :=
    .misc _ _ _ is _ _ h

theorem runMoves_effect (held l) (s : State) : AgentEffect s (runMoves held l s) := by
  induction l generalizing s with
  | nil => exact AgentEffect.inputs .refl
  | cons x l ih =>
    cases x with
    | agent m =>
      simp only [runMoves]
      split
      · exact AgentEffect.inputs .refl
      · exact (agentMove_effect m s).trans (ih _)
    | proceed => exact AgentEffect.inputs .refl
    | control c => exact AgentEffect.inputs .refl

theorem turn_effect (held) (s : State) : AgentEffect s (turn held s) := runMoves_effect _ _ _


theorem AgentEffect.sameEngine {s t} (h : AgentEffect s t) : sameEngine s t := by
  induction h with
  | refl => exact sameEngine.refl s
  | misc => assumption
  | store => assumption
  | pid => assumption
  | slot => assumption

theorem AgentEffect.storesCanonical {s t} (h : AgentEffect s t) (hs : s.storesCanonical) : t.storesCanonical := by
  induction h with
  | refl => exact hs
  | misc => assumption
  | store a bs _ hb ih => exact ⟨Memory.wf_writeBytes ih.1 hb, ih.2⟩
  | pid => assumption
  | slot => assumption

theorem bankSound_setPid {t : State} {k p} (h : t.bankSound) (hp : t.pid[k].sound t.cfg → p.sound t.cfg) :
    (setPid k p t).bankSound := by
  intro j
  simp only [setPid]
  by_cases hj : j = k
  · subst hj
    simpa using hp (h j)
  · have : (k : Nat) ≠ j := fun e => hj (Fin.ext e.symm)
    simpa [Vector.getElem_set, this] using h j

theorem AgentEffect.bankSound {s t} (h : AgentEffect s t) (hs : s.bankSound) : t.bankSound := by
  induction h with
  | refl => exact hs
  | misc => assumption
  | store => assumption
  | pid k p _ hp ih => exact bankSound_setPid ih hp
  | slot => assumption

/-- No move of another agent touches the engine's own state (R407). -/
theorem agentMove_sameEngine (m : AgentMove) (s : State) : Machine.sameEngine s (agentMove m s) :=
  (agentMove_effect m s).sameEngine

/-- The other agents' turn leaves the engine's own state alone. -/
theorem turn_sameEngine (held : Option PidId) (s : State) : Machine.sameEngine s (turn held s) :=
  (turn_effect held s).sameEngine

/-- Beginning a bank transaction leaves the engine's own state alone. -/
theorem acquire_sameEngine (i : PidId) (s : State) : Machine.sameEngine s (acquire i s) :=
  (acquire_effect i s).sameEngine

@[simp] theorem turn_cfg (held : Option PidId) (s : State) : (turn held s).cfg = s.cfg :=
  (turn_sameEngine held s).2.2.2.2.2.2

@[simp] theorem acquire_cfg (i : PidId) (s : State) : (acquire i s).cfg = s.cfg :=
  (acquire_sameEngine i s).2.2.2.2.2.2

@[simp] theorem beginBank_cfg (i : PidId) (s : State) : (beginBank i s).cfg = s.cfg := by
  simp [beginBank]

/-- A clearing of the bank is made of agents' effects and controllers at their reset values. -/
theorem clearBank_effect (l : List PidId) (s : State) : AgentEffect s (clearBank l s) := by
  induction l generalizing s with
  | nil => exact .refl
  | cons i l ih =>
    exact (AgentEffect.pid i Pid.resetValue ((turn_effect none s).trans (acquire_effect i _))
      fun _ h => by simp [Pid.resetValue] at h).trans (ih _)

end Sys2Proof.Machine
end

