-- ==== Sys2Proof/Laws/Decode.lean ====
section
/-! SUPPORT. Laws of the fields of the instruction stream: each field's reader undoes its writer, and the optype
and opcode bytes are read as they are written (R141 to R147). -/

namespace Sys2Proof

theorem takeLE_leBytes (n v : Nat) (rest : List Byte) :
    takeLE n (leBytes n v ++ rest) = some (v % 256 ^ n, rest) := by
  induction n generalizing v with
  | zero => simp [takeLE, leBytes, Nat.mod_one]
  | succ n ih =>
    simp only [leBytes, List.cons_append, takeLE, ih]
    rw [show 256 ^ (n + 1) = 256 * 256 ^ n by rw [pow_succ, Nat.mul_comm], Nat.mod_mul]
    simp

/-- A field reader that answers consumed exactly the bytes of its value. -/
theorem takeLE_eq_some {n v : Nat} {bs rest : List Byte} (h : takeLE n bs = some (v, rest)) :
    bs = leBytes n v ++ rest ∧ v < 256 ^ n := by
  induction n generalizing v bs with
  | zero =>
    simp only [takeLE, Option.some.injEq, Prod.mk.injEq] at h
    obtain ⟨rfl, rfl⟩ := h
    simp [leBytes]
  | succ n ih =>
    cases bs with
    | nil => simp [takeLE] at h
    | cons b bs =>
      simp only [takeLE] at h
      split at h
      · cases h
      · rename_i w r hw
        simp only [Option.some.injEq, Prod.mk.injEq] at h
        obtain ⟨rfl, rfl⟩ := h
        obtain ⟨rfl, hlt⟩ := ih hw
        have hb : b.toNat < 256 := b.isLt
        constructor
        · simp only [leBytes, List.cons_append]
          congr 1
          · apply BitVec.eq_of_toNat_eq
            simp only [BitVec.toNat_ofNat]
            omega
          · rw [show (b.toNat + 256 * w) / 256 = w by omega]
        · rw [show 256 ^ (n + 1) = 256 * 256 ^ n by rw [pow_succ, Nat.mul_comm]]
          omega

/-- Too few bytes: nothing is read (R153). -/
theorem takeLE_eq_none {n : Nat} {bs : List Byte} : takeLE n bs = none ↔ bs.length < n := by
  induction n generalizing bs with
  | zero => simp [takeLE]
  | succ n ih =>
    cases bs with
    | nil => simp [takeLE]
    | cons b bs =>
      simp only [takeLE, List.length_cons, Nat.add_lt_add_iff_right, ← ih]
      split <;> simp_all

@[simp] theorem takeAddr_encodeAddr (a : Addr) (rest : List Byte) :
    takeAddr (encodeAddr a ++ rest) = some (a, rest) := by
  have ha : a.toNat % 256 ^ 2 = a.toNat := Nat.mod_eq_of_lt a.isLt
  simp only [takeAddr, encodeAddr, takeLE_leBytes, ha, Option.map_some, BitVec.ofNat_toNat,
    BitVec.setWidth_eq]

@[simp] theorem takeByte_cons (b : Byte) (rest : List Byte) : takeByte (b :: rest) = some (b, rest) := by
  simp [takeByte, takeLE]

theorem optype_ofByte_toByte (ot : Optype) : Optype.ofByte ot.toByte = ot := by
  obtain ⟨id, m2, t, m⟩ := ot
  have key : ∀ id : BitVec 4, ∀ m2 t m,
      Optype.ofByte (Optype.toByte ⟨id, m2, t, m⟩) = ⟨id, m2, t, m⟩ := by
    intro id m2 t m
    cases m2 <;> cases t <;> cases m <;> revert id <;> decide
  exact key id m2 t m

theorem optype_toByte_ofByte (b : Byte) : (Optype.ofByte b).toByte = b := by
  revert b; decide

@[simp] theorem takeOptype_cons (ot : Optype) (rest : List Byte) :
    takeOptype (ot.toByte :: rest) = some (ot, rest) := by
  simp [takeOptype, optype_ofByte_toByte]

@[simp] theorem opcode_ofByte_toByte (o : Opcode) : Opcode.ofByte o.toByte = some o := by
  cases o <;> decide

/-- The reserved bytes are those from 0x1D up (R149). -/
theorem opcode_ofByte_eq_none (b : Byte) : Opcode.ofByte b = none ↔ 0x1D ≤ b.toNat := by
  revert b; decide

theorem opcode_toByte_of_ofByte {b : Byte} {o : Opcode} (h : Opcode.ofByte b = some o) : o.toByte = b := by
  have := List.find?_some h
  simpa using this

theorem takeOperand_encode {c : Config.Params} {t : Ty} {m : Mode} {o : Operand} (h : o.wf c t m = true) (rest : List Byte) :
    takeOperand c t m (o.encode c t ++ rest) = some (o, rest) := by
  cases o with
  | lit raw =>
    simp only [Operand.wf, Bool.and_eq_true, beq_iff_eq, decide_eq_true_eq] at h
    obtain ⟨rfl, hlt⟩ := h
    have e : takeLE (t.width c) (leBytes (t.width c) raw.toNat ++ rest) = some (raw.toNat, rest) := by
      rw [takeLE_leBytes, Nat.mod_eq_of_lt hlt]
    simp [takeOperand, Operand.encode, e]
  | addr p =>
    simp only [Operand.wf, beq_iff_eq] at h
    subst h
    have := takeAddr_encodeAddr p rest
    simp only [encodeAddr] at this
    simp [takeOperand, Operand.encode, this]

theorem takeOperands_encode {c : Config.Params} {t : Ty} {m : Mode} {os : List Operand} (h : os.all (·.wf c t m) = true)
    (rest : List Byte) :
    takeOperands c t m os.length (os.flatMap (·.encode c t) ++ rest) = (os, rest) := by
  induction os with
  | nil => rfl
  | cons o os ih =>
    simp only [List.all_cons, Bool.and_eq_true] at h
    simp only [List.length_cons, List.flatMap_cons, List.append_assoc, takeOperands,
      takeOperand_encode h.1, ih h.2]

theorem takeString_append {bytes : List Byte} (h : bytes.all (· != 0) = true) (rest : List Byte) :
    takeString (bytes ++ 0 :: rest) = some (bytes, rest) := by
  induction bytes with
  | nil => simp [takeString]
  | cons b bytes ih =>
    simp only [List.all_cons, Bool.and_eq_true, bne_iff_ne] at h
    simp only [List.cons_append, takeString]
    rw [if_neg h.1, ih h.2]
    rfl

theorem takeStrField_encode {m : Mode} {f : StrField} (h : f.wf m = true) (rest : List Byte) :
    takeStrField m (f.encode ++ rest) = some (f, rest) := by
  cases f with
  | inline bytes =>
    simp only [StrField.wf, Bool.and_eq_true, beq_iff_eq] at h
    obtain ⟨rfl, hb⟩ := h
    have := takeString_append hb rest
    simp only [takeStrField, StrField.encode, List.append_assoc, List.singleton_append, this,
      Option.map_some]
  | addr a =>
    simp only [StrField.wf, beq_iff_eq] at h
    subst h
    have := takeAddr_encodeAddr a rest
    simp only [encodeAddr] at this
    simp [takeStrField, StrField.encode, this]

/-! ### What a field's reader has read -/

theorem takeAddr_some {bs rest : List Byte} {a : Addr} (h : takeAddr bs = some (a, rest)) : bs =
    encodeAddr a ++ rest := by
  unfold takeAddr at h
  simp only [Option.map_eq_some_iff, Prod.mk.injEq] at h
  obtain ⟨⟨v, r⟩, h1, rfl, rfl⟩ := h
  obtain ⟨rfl, hlt⟩ := takeLE_eq_some h1
  have : (BitVec.ofNat 16 v).toNat = v := by simp at hlt ⊢; omega
  simp [encodeAddr, this]

theorem takeByte_some {bs rest : List Byte} {b : Byte} (h : takeByte bs = some (b, rest)) : bs = b :: rest := by
  cases bs with
  | nil => simp [takeByte, takeLE] at h
  | cons c cs => simp at h; obtain ⟨rfl, rfl⟩ := h; rfl

theorem takeOptype_some {bs rest : List Byte} {ot : Optype} (h : takeOptype bs = some (ot, rest)) : bs =
    ot.toByte :: rest := by
  unfold takeOptype at h
  simp only [Option.map_eq_some_iff, Prod.mk.injEq] at h
  obtain ⟨⟨b, r⟩, h1, rfl, rfl⟩ := h
  simp [takeByte_some h1, optype_toByte_ofByte]

theorem takeOperand_some {c : Config.Params} (hc : c.ratBytes ≤ 4) {t m} {bs rest : List Byte} {o : Operand} (h : takeOperand c t m bs = some (o, rest)) :
    bs = o.encode c t ++ rest ∧ o.wf c t m = true := by
  unfold takeOperand at h
  cases m with
  | literal =>
    simp only [Option.map_eq_some_iff, Prod.mk.injEq] at h
    obtain ⟨⟨v, r⟩, h1, rfl, rfl⟩ := h
    obtain ⟨rfl, hlt⟩ := takeLE_eq_some h1
    have hw : 256 ^ (t.width c) ≤ 2 ^ 32 := by
      have h4 : t.width c ≤ 4 := by cases t <;> simp [Ty.width, hc]
      exact le_trans (Nat.pow_le_pow_right (by norm_num) h4) (by norm_num)
    have : (BitVec.ofNat 32 v).toNat = v := by simp; omega
    simp [Operand.encode, Operand.wf, this, hlt]
  | address =>
    simp only [Option.map_eq_some_iff, Prod.mk.injEq] at h
    obtain ⟨⟨a, r⟩, h1, rfl, rfl⟩ := h
    have := takeAddr_some h1
    simpa [Operand.encode, Operand.wf, encodeAddr] using this

/-- An operand field is not read exactly where the stream holds less than one (R148, R153). -/
theorem takeOperand_eq_none {c : Config.Params} {t m} {bs : List Byte} :
    takeOperand c t m bs = none ↔ bs.length < operandWidth c t m := by
  cases m <;> simp [takeOperand, takeAddr, operandWidth, takeLE_eq_none]

/-- What the reader of MULTILOAD's source fields has read: all of them, or as many as are whole, with less than one
field left over. -/
theorem takeOperands_some {c : Config.Params} (hc : c.ratBytes ≤ 4) {t m} {n} {bs rest : List Byte} {os : List Operand}
    (h : takeOperands c t m n bs = (os, rest)) :
    os.all (·.wf c t m) = true ∧
      ((os.length = n ∧ bs = os.flatMap (·.encode c t) ++ rest) ∨
        (os.length < n ∧ rest = [] ∧
          ∃ part, bs = os.flatMap (·.encode c t) ++ part ∧ part.length < operandWidth c t m)) := by
  induction n generalizing bs os with
  | zero => simp [takeOperands] at h; obtain ⟨rfl, rfl⟩ := h; simp
  | succ n ih =>
    unfold takeOperands at h
    split at h
    · rename_i hn
      simp at h; obtain ⟨rfl, rfl⟩ := h
      simpa using takeOperand_eq_none.mp hn
    · rename_i o r ho
      obtain ⟨rfl, hw⟩ := takeOperand_some hc ho
      simp only [Prod.mk.injEq] at h
      obtain ⟨rfl, rfl⟩ := h
      obtain ⟨h1, h2⟩ := ih (bs := r) (os := (takeOperands c t m n r).1) (Prod.ext rfl rfl)
      refine ⟨by simp only [List.all_cons, hw, h1, Bool.and_self], ?_⟩
      rcases h2 with ⟨h3, h4⟩ | ⟨h3, h4, part, h5, h6⟩
      · left
        refine ⟨by simp [h3], ?_⟩
        simp only [List.flatMap_cons, List.append_assoc]
        rw [← h4]
      · right
        refine ⟨by simp; omega, h4, part, ?_, h6⟩
        simp only [List.flatMap_cons, List.append_assoc]
        rw [← h5]

theorem takeString_some {bs rest s : List Byte} (h : takeString bs = some (s, rest)) : bs = s ++ 0 :: rest ∧
    s.all (· != 0) = true := by
  induction bs generalizing s with
  | nil => simp [takeString] at h
  | cons b bs ih =>
    unfold takeString at h
    by_cases hb : b = 0
    · rw [if_pos hb] at h
      simp only [Option.some.injEq, Prod.mk.injEq] at h
      obtain ⟨rfl, rfl⟩ := h
      exact ⟨by rw [hb]; rfl, rfl⟩
    · rw [if_neg hb] at h
      simp only [Option.map_eq_some_iff, Prod.mk.injEq] at h
      obtain ⟨⟨v, r⟩, h1, rfl, rfl⟩ := h
      obtain ⟨rfl, h2⟩ := ih h1
      refine ⟨rfl, ?_⟩
      simp only [List.all_cons, h2, Bool.and_true, bne_iff_ne]
      exact hb

theorem takeStrField_some {m} {bs rest : List Byte} {f : StrField} (h : takeStrField m bs = some (f, rest)) :
    bs = f.encode ++ rest ∧ f.wf m = true := by
  unfold takeStrField at h
  cases m with
  | literal =>
    simp only [Option.map_eq_some_iff, Prod.mk.injEq] at h
    obtain ⟨⟨v, r⟩, h1, rfl, rfl⟩ := h
    obtain ⟨rfl, h2⟩ := takeString_some h1
    refine ⟨by simp only [StrField.encode, List.append_assoc, List.singleton_append], ?_⟩
    simp only [StrField.wf, h2]; rfl
  | address =>
    simp only [Option.map_eq_some_iff, Prod.mk.injEq] at h
    obtain ⟨⟨a, r⟩, h1, rfl, rfl⟩ := h
    have := takeAddr_some h1
    simpa [StrField.encode, StrField.wf, encodeAddr] using this

end Sys2Proof
end

