-- ==== Sys2Proof/Laws/Instructions.lean ====
section
/-! SUPPORT. What an instruction can do, said once for all of them (`exec_effect`): a proof about every instruction
is a proof about these few effects. -/

set_option maxRecDepth 4000

namespace Sys2Proof.Machine

/-- What the instruction `i` can do, piece by piece: give the other agents their turn, store within its span,
and change the return stack, the slot or the controller that it works on; RESET clears. -/
inductive InstrEffect (i : Instr) (s : State) : State → Prop
  | refl : InstrEffect i s s
  | turn {t} (h : Option PidId) : InstrEffect i s t → InstrEffect i s (turn h t)
  | acquire {t} (k : PidId) : InstrEffect i s t → InstrEffect i s (acquire k t)
  | store {t} (a : Nat) (bs : List Byte) : InstrEffect i s t → (i.storeSpan s.cfg).1 ≤ a →
      a + bs.length ≤ (i.storeSpan s.cfg).1 + (i.storeSpan s.cfg).2 → a + bs.length ≤ t.cfg.memCap →
      InstrEffect i s { t with mem := t.mem.writeBytes a bs }
  | stack {t} (p : Nat) (v : List Addr) : InstrEffect i s t →
      ((∃ ot x, i = .call ot x) ∨ i = .ret) →
      (t.sp ≤ t.cfg.stackDepth → p ≤ t.cfg.stackDepth) → v.length = t.stack.length →
      InstrEffect i s { t with sp := p, stack := v }
  | slot {t} (k : SlotId) (m : MapSlot) : InstrEffect i s t → i.mapsSlot = some (BitVec.ofNat 4 k.val) →
      InstrEffect i s (setSlot k m t)
  | pid {t} (k : PidId) (p : Pid) : InstrEffect i s t → i.controlsPid = some (BitVec.ofNat 4 k.val) →
      (t.pid[k].sound t.cfg → p.sound t.cfg) → InstrEffect i s (setPid k p t)
  | clearMem {t} : InstrEffect i s t → i = .reset → InstrEffect i s (clearMem t)
  | clearMap {t} : InstrEffect i s t → i = .reset → InstrEffect i s (clearMap t)
  | clearStack {t} : InstrEffect i s t → i = .reset → InstrEffect i s (clearStack t)
  | clearPid {t} (k : PidId) : InstrEffect i s t → i = .reset → InstrEffect i s (pidResetOp k t)

/-- No effect of an instruction changes the parameters (R8). -/
theorem InstrEffect.cfg {i s t} (h : InstrEffect i s t) : t.cfg = s.cfg := by
  induction h with
  | turn h _ ih => exact (turn_cfg h _).trans ih
  | acquire k _ ih => exact (acquire_cfg k _).trans ih
  | _ => first | rfl | assumption

/-- What a part of instruction `i` that began in state `s` has done, whether it goes on or raises a fault. -/
def Res.OfInstr {α : Type} (i : Instr) (s : State) : Res α → Prop
  | .done _ t => InstrEffect i s t
  | .raised e t => (e ≠ .divideByZero ∧ InstrEffect i s t) ∨
      (e = .divideByZero ∧ ∃ u, InstrEffect i s u ∧ t = u.setFlags divideZeroBit)

theorem Res.OfInstr.bind {α β : Type} {i s} {r : Res α} {f : α → State → Res β} (h : Res.OfInstr i s r)
    (hf : ∀ a t, InstrEffect i s t → Res.OfInstr i s (f a t)) : Res.OfInstr i s (r.bind f) := by
  cases r with
  | done a t => exact hf a t h
  | raised e t => exact h

theorem loadTyped_ofInstr {i s t} (held ty a) (h : InstrEffect i s t) : Res.OfInstr i s (loadTyped held ty a t) := by
  rw [loadTyped_eq]
  split
  · exact .turn held h
  · exact .inl ⟨by decide, .turn held h⟩

theorem storeTyped_ofInstr {i s t} (ty a v) (h : InstrEffect i s t) (h1 : (i.storeSpan s.cfg).1 ≤ a)
    (h2 : a + ty.width s.cfg ≤ (i.storeSpan s.cfg).1 + (i.storeSpan s.cfg).2) : Res.OfInstr i s (storeTyped ty a v t) := by
  rw [storeTyped_eq]
  split
  · rename_i hb
    refine .store (t := turn none t) a _ (.turn none h) h1 ?_ ?_
    · simpa [h.cfg] using h2
    · simpa [inBounds] using hb
  · exact .inl ⟨by decide, .turn none h⟩

theorem evalOperand_ofInstr {i s t} (ty o) (h : InstrEffect i s t) : Res.OfInstr i s (evalOperand ty o t) := by
  cases o with
  | lit raw => exact h
  | addr p => exact loadTyped_ofInstr _ _ _ h

theorem evalTarget_ofInstr {i s t} (o) (h : InstrEffect i s t) : Res.OfInstr i s (evalTarget o t) :=
  (evalOperand_ofInstr _ _ h).bind fun _ _ h => h

theorem readTime_ofInstr {i s t} (h : InstrEffect i s t) : Res.OfInstr i s (readTime t) := .turn none h

theorem inPlace_ofInstr {i s t} (ty dst src op) (h : InstrEffect i s t)
    (h1 : i.storeSpan s.cfg = (BitVec.toNat dst, ty.width s.cfg))
    (hop : ∀ d v u, InstrEffect i s u → Res.OfInstr i s (op d v u)) : Res.OfInstr i s (inPlace ty dst src op t) := by
  refine (evalOperand_ofInstr _ _ h).bind fun v u hu => (loadTyped_ofInstr _ _ _ hu).bind fun d u hu =>
      (hop d v u hu).bind fun r u hu => ?_
  exact storeTyped_ofInstr _ _ _ hu (by simp [h1]) (by simp [h1])

theorem bitwise_ofInstr {i s t} (ty dst src op) (h : InstrEffect i s t)
    (h1 : i.storeSpan s.cfg = (BitVec.toNat dst, ty.width s.cfg)) : Res.OfInstr i s (bitwiseInPlace ty dst src op t) := by
  unfold bitwiseInPlace
  split
  · exact .inl ⟨by decide, h⟩
  · exact inPlace_ofInstr _ _ _ _ h h1 fun _ _ _ h => h

theorem divideOr_ofInstr {i s t} (f d v) (h : InstrEffect i s t) : Res.OfInstr i s (divideOr f d v t) := by
  unfold divideOr
  split
  · exact .inr ⟨rfl, t, h, rfl⟩
  · exact h

theorem withPid_ofInstr {i s t} (ot) (h : InstrEffect i s t) (body : PidId → Res Unit)
    (hb : ∀ k : PidId, ot.id = BitVec.ofNat 4 k.val → Res.OfInstr i s (body k)) :
        Res.OfInstr i s (withPidId ot t body) := by
  unfold withPidId
  split
  · rename_i k hk
    exact hb k (by simp [(pidOf_eq_some.mp hk).1])
  · exact .inl ⟨by decide, h⟩

theorem loadElements_ofInstr {i s} (ty) (os : List Operand) (a : Nat) (t) (h : InstrEffect i s t)
    (h1 : (i.storeSpan s.cfg).1 ≤ a)
    (h2 : a + os.length * ty.width s.cfg ≤ (i.storeSpan s.cfg).1 + (i.storeSpan s.cfg).2) : Res.OfInstr i s (loadElements ty a os t) := by
  induction os generalizing a t with
  | nil => exact h
  | cons o os ih =>
    simp only [List.length_cons, Nat.succ_mul] at h2
    refine (evalOperand_ofInstr _ _ h).bind fun v u hu => (storeTyped_ofInstr _ _ _ hu h1 (by omega)).bind fun _
        u hu => ?_
    exact ih _ _ hu (by omega) (by rw [hu.cfg]; omega)

theorem clearBank_ofInstr {s} (l : List PidId) (t) (h : InstrEffect .reset s t) :
    InstrEffect .reset s (clearBank l t) := by
  induction l generalizing t with
  | nil => exact h
  | cons k l ih => exact ih _ (.clearPid k (.acquire k (.turn none h)) rfl)

theorem sampleFloor_toNat (c : Config.Params) (ms : BitVec 16) :
    (BitVec.ofNat 16 (sampleFloor c ms.toNat)).toNat = max ms.toNat c.pidMinSampleMs.toNat := by
  have := ms.isLt
  have := c.pidMinSampleMs.isLt
  have e : sampleFloor c ms.toNat = max ms.toNat c.pidMinSampleMs.toNat := rfl
  rw [e, BitVec.toNat_ofNat, Nat.mod_eq_of_lt (by omega)]

/-- How an instruction's step ends after its effects: with a new `pc` (R155), as HALT (R390), or with the fault
entry (R403). -/
def StepEnds (i : Instr) (s u t : State) : Prop :=
  (i ≠ .halt ∧ ∃ x, t = { u with pc := x }) ∨
    (i = .halt ∧ t = { u with flags := u.flags ||| haltedBit, pc := s.pc + 1 }) ∨
    (∃ e, e ≠ .divideByZero ∧ t = haltWith e s.pc u) ∨
    t = haltWith .divideByZero s.pc (u.setFlags divideZeroBit)

theorem concludeAfter_ofInstr {i : Instr} {s t : State} (hne : i ≠ .halt) (n : Nat) (r : Res Unit)
    (hr : Res.OfInstr i s r) (hc : concludeAfter s.pc n r = .next t) :
    ∃ u, InstrEffect i s u ∧ StepEnds i s u t := by
  cases r with
  | done a u => rw [concludeAfter_done] at hc; injection hc with hc; exact ⟨u, hr, .inl ⟨hne, _, hc.symm⟩⟩
  | raised e u =>
    rw [concludeAfter_raised] at hc; injection hc with hc
    rcases hr with ⟨hd, hr⟩ | ⟨rfl, v, hv, rfl⟩
    · exact ⟨u, hr, .inr (.inr (.inl ⟨e, hd, hc.symm⟩))⟩
    · exact ⟨v, hv, .inr (.inr (.inr hc.symm))⟩

theorem conclude_ofInstr {i : Instr} {s t : State} (hne : i ≠ .halt) (r : Res Addr)
    (hr : Res.OfInstr i s r) (hc : conclude s.pc r = .next t) :
    ∃ u, InstrEffect i s u ∧ StepEnds i s u t := by
  cases r with
  | done a u => rw [conclude_done] at hc; injection hc with hc; exact ⟨u, hr, .inl ⟨hne, _, hc.symm⟩⟩
  | raised e u =>
    rw [conclude_raised] at hc; injection hc with hc
    rcases hr with ⟨hd, hr⟩ | ⟨rfl, v, hv, rfl⟩
    · exact ⟨u, hr, .inr (.inr (.inl ⟨e, hd, hc.symm⟩))⟩
    · exact ⟨v, hv, .inr (.inr (.inr hc.symm))⟩

/-- All that an instruction can do: its effects, and then the end of its step. -/
theorem exec_effect (i : Instr) (s t : State) (h : exec i s = .next t) :
    ∃ u, InstrEffect i s u ∧ StepEnds i s u t := by
  have h0 : InstrEffect i s s := .refl
  cases i with
  | halt =>
    simp only [exec, execHalt] at h
    rw [concludeAfter_done] at h; injection h with h
    exact ⟨s, h0, .inr (.inl ⟨rfl, h.symm⟩)⟩
  | add ot dst src =>
    refine concludeAfter_ofInstr (by simp) _ _ ?_ h
    exact inPlace_ofInstr _ _ _ _ h0 rfl fun _ _ _ h => h
  | sub ot dst src =>
    refine concludeAfter_ofInstr (by simp) _ _ ?_ h
    exact inPlace_ofInstr _ _ _ _ h0 rfl fun _ _ _ h => h
  | mul ot dst src =>
    refine concludeAfter_ofInstr (by simp) _ _ ?_ h
    exact inPlace_ofInstr _ _ _ _ h0 rfl fun _ _ _ h => h
  | div ot dst src =>
    refine concludeAfter_ofInstr (by simp) _ _ ?_ h
    exact inPlace_ofInstr _ _ _ _ h0 rfl fun _ _ _ h => divideOr_ofInstr _ _ _ h
  | mod ot dst src =>
    refine concludeAfter_ofInstr (by simp) _ _ ?_ h
    exact inPlace_ofInstr _ _ _ _ h0 rfl fun _ _ _ h => divideOr_ofInstr _ _ _ h
  | bitAnd ot dst src =>
    refine concludeAfter_ofInstr (by simp) _ _ ?_ h
    exact bitwise_ofInstr _ _ _ _ h0 rfl
  | bitOr ot dst src =>
    refine concludeAfter_ofInstr (by simp) _ _ ?_ h
    exact bitwise_ofInstr _ _ _ _ h0 rfl
  | bitXor ot dst src =>
    refine concludeAfter_ofInstr (by simp) _ _ ?_ h
    exact bitwise_ofInstr _ _ _ _ h0 rfl
  | lshift ot dst src =>
    refine concludeAfter_ofInstr (by simp) _ _ ?_ h
    exact bitwise_ofInstr _ _ _ _ h0 rfl
  | rshift ot dst src =>
    refine concludeAfter_ofInstr (by simp) _ _ ?_ h
    exact bitwise_ofInstr _ _ _ _ h0 rfl
  | bitNot ot dst =>
    refine concludeAfter_ofInstr (by simp) _ _ ?_ h
    split
    · exact .inl ⟨by decide, h0⟩
    · exact (loadTyped_ofInstr _ _ _ h0).bind fun d u hu => storeTyped_ofInstr _ _ _ hu (le_refl _) (le_refl _)
  | load ot dst src =>
    refine concludeAfter_ofInstr (by simp) _ _ ?_ h
    exact (evalOperand_ofInstr _ _ h0).bind fun d u hu => storeTyped_ofInstr _ _ _ hu (le_refl _) (le_refl _)
  | multiload ot dst count srcs =>
    refine concludeAfter_ofInstr (by simp) _ _ ((loadElements_ofInstr _ _ _ _ h0 (le_refl _) (le_refl _)).bind fun _ u hu => ?_) h
    split
    · exact .inl ⟨by decide, hu⟩
    · exact hu
  | copy ot src len dst =>
    refine concludeAfter_ofInstr (by simp) _ _ ?_ h
    unfold copyBlock
    split
    · exact h0
    · split
      · rename_i hb
        simp only [Bool.and_eq_true, inBounds_iff] at hb
        refine .store (t := turn none (turn none s)) _ _ (.turn none (.turn none h0)) ?_ ?_ ?_ <;> simp
            [Instr.storeSpan]
        simpa using hb.2
      · exact .inl ⟨by decide, h0⟩
  | jump ot target =>
    refine conclude_ofInstr (by simp) _ ?_ h
    exact evalTarget_ofInstr _ h0
  | compare ot addr src a b c =>
    refine conclude_ofInstr (by simp) _ ?_ h
    exact (evalOperand_ofInstr _ _ h0).bind fun _ _ hu => (loadTyped_ofInstr _ _ _ hu).bind fun _ _ hu => hu
  | call ot target =>
    refine conclude_ofInstr (by simp) _ ?_ h
    refine (evalTarget_ofInstr _ h0).bind fun _ u hu => Res.OfInstr.bind ?_ fun _ _ hu => hu
    unfold push
    split
    · rename_i hlt
      exact .stack _ _ hu (.inl ⟨_, _, rfl⟩) (fun _ => hlt) (by simp)
    · exact .inl ⟨by decide, hu⟩
  | ret =>
    refine conclude_ofInstr (by simp) _ ?_ h
    unfold pop
    split
    · exact .inl ⟨by decide, h0⟩
    · rename_i n hn
      exact .stack _ s.stack h0 (.inr rfl) (fun h => by omega) rfl
  | time ot dst =>
    refine concludeAfter_ofInstr (by simp) _ _ ?_ h
    exact (readTime_ofInstr h0).bind fun _ _ hu => storeTyped_ofInstr _ _ _ hu (le_refl _) (le_refl _)
  | compareTime ot addr timeout a b =>
    refine conclude_ofInstr (by simp) _ ?_ h
    exact (loadTyped_ofInstr _ _ _ h0).bind fun _ _ hu => (readTime_ofInstr hu).bind fun _ _ hu => hu
  | urlmap ot o v p url res =>
    refine concludeAfter_ofInstr (by simp) _ _ ?_ h
    unfold mapEntry
    split
    · rename_i k hk
      exact .slot k _ (.turn none h0) (by simp [Instr.mapsSlot, (slotOf_eq_some.mp hk).1])
    · exact .inl ⟨by decide, .turn none h0⟩
  | urlmapCheck ot dst =>
    refine concludeAfter_ofInstr (by simp) _ _ ?_ h
    split
    · refine Res.OfInstr.bind ?_ fun _ u hu => storeTyped_ofInstr _ _ _ hu (le_refl _) (le_refl _)
      unfold checkMap
      split
      · rename_i k hk
        show InstrEffect _ _ _
        split
        · exact .slot k _ (.turn none h0) (by simp [Instr.mapsSlot, (slotOf_eq_some.mp hk).1])
        · exact .turn none h0
      · exact .inl ⟨by decide, .turn none h0⟩
    · exact .inl ⟨by decide, h0⟩
  | urlmapDelete ot =>
    refine concludeAfter_ofInstr (by simp) _ _ ?_ h
    unfold unmap
    split
    · rename_i k hk
      exact .slot k _ (.turn none h0) (by simp [Instr.mapsSlot, (slotOf_eq_some.mp hk).1])
    · exact .inl ⟨by decide, .turn none h0⟩
  | pidInit ot f =>
    refine concludeAfter_ofInstr (by simp) _ _ (withPid_ofInstr _ h0 _ fun k hk => ?_) h
    refine (evalOperand_ofInstr _ _ h0).bind fun _ _ hu => (evalOperand_ofInstr _ _ hu).bind fun _ _ hu =>
        (evalOperand_ofInstr _ _ hu).bind fun _ _ hu => (evalOperand_ofInstr _ _ hu).bind fun _ _ hu =>
        (evalOperand_ofInstr _ _ hu).bind fun _ u hu => ?_
    unfold initOp
    dsimp only
    have hb : InstrEffect (.pidInit ot f) s (beginBank k u) := .acquire k (.turn none hu)
    split
    · exact .inl ⟨by decide, hb⟩
    · split
      · rename_i hv
        refine .pid k _ (.turn _ (.turn _ hb)) (by simp [Instr.controlsPid, hk]) fun _ => ?_
        intro _
        simp only [boundAddressesValid, Bool.and_eq_true, inBounds_iff] at hv
        refine ⟨by simpa [initialController, and_assoc] using hv, ?_⟩
        simp only [initialController, sampleFloor_toNat]
        omega
      · exact .inl ⟨by decide, hb⟩
  | pidClear ot =>
    refine concludeAfter_ofInstr (by simp) _ _ (withPid_ofInstr _ h0 _ fun k hk => ?_) h
    exact .pid k _ (.acquire k (.turn none h0)) (by simp [Instr.controlsPid, hk])
        (sound_of_fields (by simp) rfl rfl rfl rfl)
  | pidStop ot =>
    refine concludeAfter_ofInstr (by simp) _ _ (withPid_ofInstr _ h0 _ fun k hk => ?_) h
    exact .pid k _ (.acquire k (.turn none h0)) (by simp [Instr.controlsPid, hk]) (sound_of_fields id rfl rfl rfl rfl)
  | pidRun ot =>
    refine concludeAfter_ofInstr (by simp) _ _ (withPid_ofInstr _ h0 _ fun k hk => ?_) h
    unfold setAutomatic
    dsimp only
    have hb : InstrEffect (.pidRun ot) s (beginBank k s) := .acquire k (.turn none h0)
    split
    · refine (loadTyped_ofInstr _ _ _ hb).bind fun _ _ hu => (loadTyped_ofInstr _ _ _ hu).bind fun _ _ hu => ?_
      exact .pid k _ hu (by simp [Instr.controlsPid, hk]) (sound_of_fields id rfl rfl rfl rfl)
    · exact .pid k _ hb (by simp [Instr.controlsPid, hk]) (sound_of_fields id rfl rfl rfl rfl)
  | reset =>
    refine conclude_ofInstr (by simp) (.raised .resetRequested (clearAll s)) (Or.inl ⟨by decide, ?_⟩) h
    unfold clearAll
    exact clearBank_ofInstr _ _ (.clearStack (.clearMap (.turn none (.clearMem (.turn none h0) rfl)) rfl) rfl)

theorem InstrEffect.storesCanonical {i s t} (h : InstrEffect i s t) (hs : s.storesCanonical) : t.storesCanonical := by
  induction h with
  | refl => exact hs
  | turn h _ ih => exact (turn_effect h _).storesCanonical ih
  | acquire k _ ih => exact (acquire_effect k _).storesCanonical ih
  | store a bs _ _ _ hb ih => exact ⟨Memory.wf_writeBytes ih.1 hb, ih.2⟩
  | stack p v _ _ hp hv ih => exact ⟨ih.1, ih.2.1, hv.trans ih.2.2.1, hp ih.2.2.2⟩
  | clearMem _ _ ih => exact ⟨rfl, ih.2⟩
  | clearStack _ _ ih => exact ⟨ih.1, ih.2.1, List.length_replicate, Nat.zero_le _⟩
  | _ => assumption

theorem InstrEffect.bankSound {i s t} (h : InstrEffect i s t) (hs : s.bankSound) : t.bankSound := by
  induction h with
  | refl => exact hs
  | turn h _ ih => exact (turn_effect h _).bankSound ih
  | acquire k _ ih => exact (acquire_effect k _).bankSound ih
  | pid k p _ _ hp ih => exact bankSound_setPid ih hp
  | clearPid k _ _ ih => exact bankSound_setPid ih (fun _ h => by simp [Pid.resetValue] at h)
  | _ => assumption

/-- The engine registers, the program store, the parameters and the return stack as an instruction's effects leave them. -/
theorem InstrEffect.regs {i s t} (h : InstrEffect i s t) : t.pc = s.pc ∧ t.flags = s.flags ∧ t.status =
    s.status ∧ t.prog = s.prog ∧ t.cfg = s.cfg ∧
    (((∀ ot x, i ≠ .call ot x) ∧ i ≠ .ret ∧ i ≠ .reset) → t.sp = s.sp ∧ t.stack = s.stack) := by
  induction h with
  | refl => exact ⟨rfl, rfl, rfl, rfl, rfl, fun _ => ⟨rfl, rfl⟩⟩
  | turn h _ ih =>
    obtain ⟨a, b, c, d, e, f, g⟩ := (turn_effect h _).sameEngine
    exact ⟨a.trans ih.1, b.trans ih.2.1, c.trans ih.2.2.1, f.trans ih.2.2.2.1, g.trans ih.2.2.2.2.1,
      fun hn => ⟨d.trans (ih.2.2.2.2.2 hn).1, e.trans (ih.2.2.2.2.2 hn).2⟩⟩
  | acquire k _ ih =>
    obtain ⟨a, b, c, d, e, f, g⟩ := (acquire_effect k _).sameEngine
    exact ⟨a.trans ih.1, b.trans ih.2.1, c.trans ih.2.2.1, f.trans ih.2.2.2.1, g.trans ih.2.2.2.2.1,
      fun hn => ⟨d.trans (ih.2.2.2.2.2 hn).1, e.trans (ih.2.2.2.2.2 hn).2⟩⟩
  | stack p v _ hc _ _ ih =>
    refine ⟨ih.1, ih.2.1, ih.2.2.1, ih.2.2.2.1, ih.2.2.2.2.1, fun hn => ?_⟩
    rcases hc with ⟨ot, x, rfl⟩ | rfl
    · exact absurd rfl (hn.1 ot x)
    · exact absurd rfl hn.2.1
  | clearStack _ hc ih =>
    exact ⟨ih.1, ih.2.1, ih.2.2.1, ih.2.2.2.1, ih.2.2.2.2.1, fun hn => absurd hc hn.2.2⟩
  | _ => assumption

end Sys2Proof.Machine
end

