-- ==== Sys2Proof/Laws/PerInstr.lean ====
section
/-! SUPPORT. Families of lemmas with one lemma per constructor of `Instr`. -/

namespace Sys2Proof.Laws

/-! ### Lengths (R148): an instruction's length is the number of bytes of its encoding -/

@[simp] theorem encodeAddr_length (a : Addr) : (encodeAddr a).length = 2 := by simp [encodeAddr]

@[simp] theorem operand_encode_length (c : Config.Params) (t : Ty) (o : Operand) : (o.encode c t).length = o.length c t := by
  cases o <;> simp [Operand.encode, Operand.length]

@[simp] theorem strField_encode_length (f : StrField) : f.encode.length = f.length := by
  cases f <;> simp [StrField.encode, StrField.length]

theorem operands_encode_length (c : Config.Params) (t : Ty) (os : List Operand) :
    (os.flatMap (·.encode c t)).length = (os.map (·.length c t)).sum := by
  induction os with
  | nil => rfl
  | cons o os ih => simp [ih]

/-- The length that moves the `pc` is the length of the encoding, where the bank has the id of a PIDINIT (R351). -/
def EncodedLength.Statement (i : Instr) : Prop :=
  ∀ c : Config.Params, (∀ ot f, i = .pidInit ot f → ot.id.toNat < c.nPid) → (encode c i).length = i.length c

theorem encodeDstSrc_length (c : Config.Params) (ot : Optype) (dst : Addr) (src : Operand) :
    (encodeDstSrc c ot dst src).length = 3 + src.length c ot.ty := by
  simp [encodeDstSrc]; omega

theorem encodeBitwise_length (c : Config.Params) (ot : Optype) (dst : Addr) (src : Operand) :
    (encodeBitwise c ot dst src).length = if ot.ty = .rat then 1 else 3 + src.length c ot.ty := by
  unfold encodeBitwise
  split
  · rfl
  · exact encodeDstSrc_length c ot dst src

theorem bitwise_total (c : Config.Params) (ot : Optype) (dst : Addr) (src : Operand) :
    (encodeBitwise c ot dst src).length + 1 = if ot.ty = .rat then 2 else 4 + src.length c ot.ty := by
  rw [encodeBitwise_length]
  split <;> omega

namespace EncodedLength

theorem halt : Statement .halt := fun _ _ => rfl

theorem add (ot : Optype) (dst : Addr) (src : Operand) : Statement (.add ot dst src) := by
  intro c hid
  simp [encode, Instr.encodeBody, encodeDstSrc_length, Instr.length]; omega

theorem sub (ot : Optype) (dst : Addr) (src : Operand) : Statement (.sub ot dst src) := by
  intro c hid
  simp [encode, Instr.encodeBody, encodeDstSrc_length, Instr.length]; omega

theorem mul (ot : Optype) (dst : Addr) (src : Operand) : Statement (.mul ot dst src) := by
  intro c hid
  simp [encode, Instr.encodeBody, encodeDstSrc_length, Instr.length]; omega

theorem div (ot : Optype) (dst : Addr) (src : Operand) : Statement (.div ot dst src) := by
  intro c hid
  simp [encode, Instr.encodeBody, encodeDstSrc_length, Instr.length]; omega

theorem mod (ot : Optype) (dst : Addr) (src : Operand) : Statement (.mod ot dst src) := by
  intro c hid
  simp [encode, Instr.encodeBody, encodeDstSrc_length, Instr.length]; omega

theorem bitAnd (ot : Optype) (dst : Addr) (src : Operand) : Statement (.bitAnd ot dst src) := by
  intro c hid
  simp only [encode, Instr.encodeBody, Instr.length, List.length_cons, bitwise_total]

theorem bitOr (ot : Optype) (dst : Addr) (src : Operand) : Statement (.bitOr ot dst src) := by
  intro c hid
  simp only [encode, Instr.encodeBody, Instr.length, List.length_cons, bitwise_total]

theorem bitNot (ot : Optype) (dst : Addr) : Statement (.bitNot ot dst) := by
  intro c hid
  simp only [encode, Instr.encodeBody, Instr.length, List.length_cons]
  split <;> simp

theorem bitXor (ot : Optype) (dst : Addr) (src : Operand) : Statement (.bitXor ot dst src) := by
  intro c hid
  simp only [encode, Instr.encodeBody, Instr.length, List.length_cons, bitwise_total]

theorem lshift (ot : Optype) (dst : Addr) (src : Operand) : Statement (.lshift ot dst src) := by
  intro c hid
  simp only [encode, Instr.encodeBody, Instr.length, List.length_cons, bitwise_total]

theorem rshift (ot : Optype) (dst : Addr) (src : Operand) : Statement (.rshift ot dst src) := by
  intro c hid
  simp only [encode, Instr.encodeBody, Instr.length, List.length_cons, bitwise_total]

theorem load (ot : Optype) (dst : Addr) (src : Operand) : Statement (.load ot dst src) := by
  intro c hid
  simp [encode, Instr.encodeBody, encodeDstSrc_length, Instr.length]; omega

theorem multiload (ot : Optype) (dst : Addr) (count : Byte) (srcs : List Operand) :
    Statement (.multiload ot dst count srcs) := by
  intro c hid
  have := operands_encode_length c ot.ty srcs
  simp only [encode, Instr.encodeBody, Instr.length, List.length_cons, List.length_append,
    encodeAddr_length, this]
  omega

theorem copy (ot : Optype) (src : Addr) (len : BitVec 16) (dst : Addr) :
    Statement (.copy ot src len dst) := by
  intro c hid
  simp [encode, Instr.encodeBody, Instr.length]

/-- A target operand has 2 bytes in either form (R148). -/
theorem target_length (c : Config.Params) (o : Operand) : o.length c .u16 = 2 := by cases o <;> rfl

theorem jump (ot : Optype) (target : Operand) : Statement (.jump ot target) := by
  intro c hid
  simp [encode, Instr.encodeBody, Instr.length, target_length]

theorem compare (ot : Optype) (addr : Addr) (src : Operand) (tLess tEqual tGreater : Addr) :
    Statement (.compare ot addr src tLess tEqual tGreater) := by
  intro c hid
  simp [encode, Instr.encodeBody, Instr.length]; omega

theorem call (ot : Optype) (target : Operand) : Statement (.call ot target) := by
  intro c hid
  simp [encode, Instr.encodeBody, Instr.length, target_length]

theorem ret : Statement .ret := fun _ _ => rfl

theorem time (ot : Optype) (dst : Addr) : Statement (.time ot dst) := by
  intro c hid
  simp [encode, Instr.encodeBody, Instr.length]

theorem compareTime (ot : Optype) (addr : Addr) (timeout : Word) (tElapsed tNotElapsed : Addr) :
    Statement (.compareTime ot addr timeout tElapsed tNotElapsed) := by
  intro c hid
  simp [encode, Instr.encodeBody, Instr.length]

theorem urlmap (ot : Optype) (options : Byte) (value : Addr) (port : BitVec 16) (url resource : StrField) :
    Statement (.urlmap ot options value port url resource) := by
  intro c hid
  simp [encode, Instr.encodeBody, Instr.length]; omega

theorem urlmapCheck (ot : Optype) (dst : Addr) : Statement (.urlmapCheck ot dst) := by
  intro c hid
  simp [encode, Instr.encodeBody, Instr.length]

theorem urlmapDelete (ot : Optype) : Statement (.urlmapDelete ot) := fun _ _ => rfl

theorem pidInit (ot : Optype) (fields : PidInitFields) : Statement (.pidInit ot fields) := by
  intro c hid
  simp only [encode, Instr.encodeBody, Instr.length, List.length_cons]
  rw [if_pos (hid ot fields rfl)]
  simp [PidInitFields.encode]; omega

theorem pidClear (ot : Optype) : Statement (.pidClear ot) := fun _ _ => rfl

theorem pidStop (ot : Optype) : Statement (.pidStop ot) := fun _ _ => rfl

theorem pidRun (ot : Optype) : Statement (.pidRun ot) := fun _ _ => rfl

theorem reset : Statement .reset := fun _ _ => rfl

end EncodedLength

end Sys2Proof.Laws
end

