-- ==== Sys2Proof/Laws/Pid.lean ====
section
/-! SUPPORT. Laws of the mapping table's and the bank's updates, of clamping and saturation, and of the moves of
the PID sequencer one by one (R370 to R375). -/

namespace Sys2Proof.Machine

theorem setSlot_get (id k : SlotId) (m) (s : State) : (setSlot id m s).map[k] = if k = id then m else s.map[k] := by
  simp only [setSlot]
  by_cases hk : k = id
  · subst hk; simp
  · have : ¬ id.val = k.val := fun e => hk (Fin.ext e.symm)
    simp [this, hk]

theorem setPid_get (id k : PidId) (m) (s : State) : (setPid id m s).pid[k] = if k = id then m else s.pid[k] := by
  simp only [setPid]
  by_cases hk : k = id
  · subst hk; simp
  · have : ¬ id.val = k.val := fun e => hk (Fin.ext e.symm)
    simp [this, hk]

theorem setPid_self (id : PidId) (p) (s : State) : (setPid id p s).pid[id] = p :=
    (setPid_get id id p s).trans (if_pos rfl)

theorem setPid_setPid (id : PidId) (p q) (s : State) : setPid id q (setPid id p s) = setPid id q s := by
  unfold setPid
  simp

/-- A saturated word as an integer (R213). -/
theorem satWord_toInt (x : Int) : (satWord x).toInt = max (-2147483648) (min x 2147483647) := by
  unfold satWord sat32
  rw [BitVec.toInt_ofInt, Int.bmod_def]
  norm_num
  split_ifs <;> omega

/-- A clamped word as an integer (R212). -/
theorem clampWord_toInt (x : Int) (lo hi : Word) : (clampWord x lo hi).toInt =
    if hi.toInt < x then hi.toInt else if x < lo.toInt then lo.toInt else x := by
  unfold clampWord clamp
  have a1 := lo.toInt_lt; have a2 := lo.le_toInt; have b1 := hi.toInt_lt; have b2 := hi.le_toInt
  split_ifs
  · simp
  · simp
  · rw [BitVec.toInt_ofInt, Int.bmod_def]; norm_num at *; split_ifs <;> omega

/-- The bound addresses of an initialized controller are valid (R360). -/
theorem bankSound_bounds {s : State} {id : PidId} (hb : s.bankSound) (h : s.pid[id].initialized = true) :
    s.pid[id].inAddr.toNat + s.cfg.ratBytes ≤ s.cfg.memCap ∧ s.pid[id].outAddr.toNat + s.cfg.ratBytes ≤ s.cfg.memCap ∧
      s.pid[id].spAddr.toNat + s.cfg.ratBytes ≤ s.cfg.memCap :=
  (hb id h).1

theorem loadRat_eq {a : Addr} {s : State} (h : a.toNat + s.cfg.ratBytes ≤ s.cfg.memCap) : loadRat a s =
    some (BitVec.ofNat 32 (s.rawAt .rat a.toNat)) := by
  unfold loadRat; rw [memRead_of_inBounds ((inBounds_iff _ _ _).mpr h)]; rfl

theorem storeRat_eq {a : Addr} {v : Word} {s : State} (h : a.toNat + s.cfg.ratBytes ≤ s.cfg.memCap) : storeRat a v s =
    some { s with mem := s.mem.writeBytes a.toNat (leBytes s.cfg.ratBytes v.toNat) } :=
  memWrite_of_inBounds ((inBounds_iff _ _ _).mpr h)

theorem finishHostOn_none {i} {s : State} (h : s.hostPending = none) : finishHostOn i s = s := by
  unfold finishHostOn; rw [h]

/-- The sequencer's move at the mode test and the mapping gate (R370, R371). -/
theorem sequencerMove_mapGate {s : State} {id : PidId} (hseq : s.seq = .mapGate id) (hh : s.hostPending = none)
    : sequencerMove s =
    if s.pid[id].live && mapGateOpen s.pid[id] s then { s with seq := .timeGate id } else
        { s with seq := sweepAfter id s } := by
  unfold sequencerMove; rw [hseq]; dsimp only; rw [finishHostOn_none hh]

/-- The sequencer's move at the time gate (R372). -/
theorem sequencerMove_timeGate {s : State} {id : PidId} (hseq : s.seq = .timeGate id) : sequencerMove s =
    if timeGateOpen s.pid[id] s.timeBase then { s with seq := .readInput id s.timeBase } else
        { s with seq := sweepAfter id s } := by
  unfold sequencerMove; rw [hseq]

/-- The sequencer's read of the input cell (R373). -/
theorem sequencerMove_readInput {s : State} {id : PidId} {now} (hseq : s.seq = .readInput id now)
    (hb : s.pid[id].inAddr.toNat + s.cfg.ratBytes ≤ s.cfg.memCap) : sequencerMove s =
    { s with seq := .readSetpoint id now (BitVec.ofNat 32 (s.rawAt .rat s.pid[id].inAddr.toNat)) } := by
  unfold sequencerMove; rw [hseq]; dsimp only; rw [loadRat_eq hb]

/-- The sequencer's read of the setpoint, with the new accumulator and output (R373, R374). -/
theorem sequencerMove_readSetpoint {s : State} {id : PidId} {now inp} (hseq : s.seq = .readSetpoint id now inp)
    (hb : s.pid[id].spAddr.toNat + s.cfg.ratBytes ≤ s.cfg.memCap)
    (sp : Word) (hsp : sp = BitVec.ofNat 32 (s.rawAt .rat s.pid[id].spAddr.toNat)) : sequencerMove s =
    setPid id { s.pid[id] with iSum := nextISum s.cfg s.pid[id] inp sp }
        { s with seq := .writeOutput id now inp (nextOutput s.cfg s.pid[id] (nextISum s.cfg s.pid[id] inp sp) inp sp) } :=
        by
  subst hsp; unfold sequencerMove; rw [hseq]; dsimp only; rw [loadRat_eq hb]

/-- The sequencer's write of the output (R375). -/
theorem sequencerMove_writeOutput {s : State} {id : PidId} {now inp out}
    (hseq : s.seq = .writeOutput id now inp out) (hb : s.pid[id].outAddr.toNat + s.cfg.ratBytes ≤ s.cfg.memCap) : sequencerMove s =
    setPid id { s.pid[id] with lastInput := inp, lastTime := now }
        { s with mem := s.mem.writeBytes s.pid[id].outAddr.toNat (leBytes s.cfg.ratBytes out.toNat), seq := sweepAfter id s } := by
  unfold sequencerMove; rw [hseq]; dsimp only; rw [storeRat_eq hb]

theorem qmul_ediv (c : Config.Params) (y x : Int) : qmul c y x = y * x / 2 ^ c.ratFrac := by
  unfold qmul ratScale; exact Int.fdiv_eq_ediv_of_nonneg _ (by positivity)

end Sys2Proof.Machine
end

