-- ==== Sys2Proof/Laws/Quiet.lean ====
section
/-! SUPPORT. The shared operations where the schedule is empty, in the terms of the claims (`rawAt`, `operandRaw`,
`withRaw`), and the values of the numeric helpers. -/

namespace Sys2Proof.Machine

theorem loadTyped_quiet {held t a} {s : State} (h : s.inputs = []) (hb : a + t.width s.cfg ≤ s.cfg.memCap) :
    loadTyped held t a s = .done (ofRaw t (s.rawAt t a)) s := by
  rw [loadTyped_eq, turn_of_inputs_nil _ _ h, if_pos ((inBounds_iff _ _ _).mpr hb)]; rfl

theorem loadTyped_outOfBounds {held t a} {s : State} (h : s.inputs = []) (hb : s.cfg.memCap < a + t.width s.cfg) :
    loadTyped held t a s = .raised .memoryAccessViolation s := by
  rw [loadTyped_eq, turn_of_inputs_nil _ _ h, if_neg]; rw [inBounds_iff]; exact Nat.not_le.mpr hb

theorem storeTyped_quiet {t a v} {s : State} (h : s.inputs = []) (hb : a + t.width s.cfg ≤ s.cfg.memCap) (x : Nat)
    (hx : toRaw t v % 256 ^ t.width s.cfg = x % 256 ^ t.width s.cfg) :
    storeTyped t a v s = .done () (s.withRaw t a x) := by
  rw [storeTyped_eq, turn_of_inputs_nil _ _ h, if_pos ((inBounds_iff _ _ _).mpr hb), State.withRaw, ← leBytes_mod, hx, leBytes_mod]

theorem storeTyped_outOfBounds {t a v} {s : State} (h : s.inputs = []) (hb : s.cfg.memCap < a + t.width s.cfg) :
    storeTyped t a v s = .raised .memoryAccessViolation s := by
  rw [storeTyped_eq, turn_of_inputs_nil _ _ h, if_neg]; rw [inBounds_iff]; exact Nat.not_le.mpr hb

theorem evalOperand_quiet {t o} {s : State} (h : s.inputs = []) (hb : o.readable s t = true) :
    evalOperand t o s = .done (ofRaw t (s.operandRaw t o)) s := by
  cases o with
  | lit raw => rfl
  | addr p => exact loadTyped_quiet h (by simpa [Operand.readable] using hb)

theorem evalOperand_outOfBounds {t o} {s : State} (h : s.inputs = []) (hb : o.readable s t = false) :
    evalOperand t o s = .raised .memoryAccessViolation s := by
  cases o with
  | lit raw => cases hb
  | addr p => exact loadTyped_outOfBounds h (by simpa [Operand.readable] using hb)

theorem inPlace_quiet {t dst src op} {s : State} (h : s.inputs = []) (hs : src.readable s t = true)
    (hd : BitVec.toNat dst + t.width s.cfg ≤ s.cfg.memCap) (r : Int)
    (hop : op (ofRaw t (s.rawAt t dst.toNat)) (ofRaw t (s.operandRaw t src)) s = .done r s) (x : Nat)
    (hx : toRaw t r % 256 ^ t.width s.cfg = x % 256 ^ t.width s.cfg) :
    inPlace t dst src op s = .done () (s.withRaw t dst.toNat x) := by
  unfold inPlace
  rw [evalOperand_quiet h hs, Res.bind_done, loadTyped_quiet h hd, Res.bind_done, hop, Res.bind_done]
  exact storeTyped_quiet h hd x hx

theorem rawAt_lt (s : State) (t : Ty) (a : Nat) : s.rawAt t a < 256 ^ t.width s.cfg := by
  have := leValue_lt (s.mem.readBytes a (t.width s.cfg))
  rwa [Memory.readBytes_length] at this

/-- With a legal width of a rational, a value fits the 4 bytes of a word (R8). -/
theorem width_le_four {c : Config.Params} (hc : c.legal) (t : Ty) : t.width c ≤ 4 := by
  have h4 : c.ratBytes = 4 := hc.2.2.2.2.2.1
  cases t <;> simp [Ty.width, h4]

/-- With a legal width of a rational, the bits of a type's raw value are those of its bytes (R8, R202). -/
theorem bits_of_legal {c : Config.Params} (hc : c.legal) (t : Ty) : bits t = 8 * t.width c := by
  have h4 : c.ratBytes = 4 := hc.2.2.2.2.2.1
  cases t <;> simp [bits, Ty.width, h4]

theorem bits_of_int {t : Ty} (h : t ≠ .rat) (c : Config.Params) : bits t = 8 * t.width c := by
  cases t <;> first | rfl | exact absurd rfl h

theorem operandRaw_lt {s : State} (hc : s.cfg.legal) (t : Ty) (o) : s.operandRaw t o < 2 ^ 32 := by
  cases o with
  | lit raw => exact raw.isLt
  | addr p =>
    refine lt_of_lt_of_le (rawAt_lt s t p.toNat) ?_
    exact le_trans (Nat.pow_le_pow_right (by norm_num) (width_le_four hc t)) (by norm_num)

theorem ofRaw_rat (raw : Nat) : ofRaw .rat raw = (BitVec.ofNat 32 raw).toInt := by
  simp only [ofRaw, sext32, wrap, BitVec.toInt_eq_toNat_cond, BitVec.toNat_ofNat]
  norm_num
  split_ifs <;> omega

theorem toRaw_rat (v : Int) : toRaw .rat v = (BitVec.ofInt 32 v).toNat := by
  simp [toRaw, wrap, bits, BitVec.toNat_ofInt]

theorem ofRaw_int {t : Ty} (h : t ≠ .rat) (raw : Nat) : ofRaw t raw = raw :=
    by cases t <;> first | rfl | exact absurd rfl h

theorem wrap_sext (x : Int) : wrap 32 (sext32 (wrap 32 x)) = wrap 32 x := by
  simp only [wrap, sext32]; norm_num; split_ifs <;> omega

/-- The integer that a typed load answers is the one that its raw value stands for (R202). -/
theorem ofRaw_eq (t : Ty) (raw : Nat) : ofRaw t raw = signedValue t raw := by
  by_cases h : t = .rat
  · subst h; rw [ofRaw_rat]; rfl
  · rw [ofRaw_int h, signedValue, if_neg h]

theorem pow8 (c : Config.Params) (t : Ty) : (256 : Nat) ^ t.width c = 2 ^ (8 * t.width c) := by
  rw [pow_mul]; rfl

/-- A raw value loaded and stored again leaves its bytes (R84, R87). -/
theorem toRaw_ofRaw_mod {c : Config.Params} (hc : c.legal) (t : Ty) (raw : Nat) :
    toRaw t (ofRaw t raw) % 256 ^ t.width c = raw % 256 ^ t.width c := by
  rw [toRaw_ofRaw, bits_of_legal hc, pow8, Nat.mod_mod]

end Sys2Proof.Machine
end

