-- ==== Sys2Proof/Laws/Step.lean ====
section
/-! SUPPORT. What a transition can be (R400, R421): another agent's move, a control operation of the host, or a
step of the engine. -/

namespace Sys2Proof.Machine

/-- Where the engine is next, the transition is an engine step with the schedule's entry used up. -/
theorem step_of_engineNext {s : State} (h : s.engineNext = true) :
    step s = engineStep { s with inputs := s.inputs.tail } := by
  unfold State.engineNext at h
  unfold step
  split <;> rename_i hi <;> simp [hi] at h ⊢
  · congr 1; cases s; simp_all

/-- A step of a running engine, by what the bytes at `pc` decode to (R400). -/
theorem engineStep_running {s : State} (h2 : s.halted = false) :
    engineStep s = match decode s.cfg (programFrom s.pc s) with
    | .instr i _ => exec i (s.seed i.opcode.toByte)
    | .reserved op => rejectFetch .unsupportedOperation op s
    | .cutShort op => rejectFetch .memoryAccessViolation op s
    | .noOpcode => rejectFetch .memoryAccessViolation 0 s := by
  unfold engineStep
  rw [if_neg (by simp [h2])]
  rfl

/-- The program bytes from a `pc` within the store begin with the opcode byte. -/
theorem programFrom_cons {s : State} (h : s.pc.toNat < s.cfg.progCap) : programFrom s.pc s =
    s.prog.read s.pc.toNat :: s.prog.readBytes (s.pc.toNat + 1) (s.cfg.progCap - 1 - s.pc.toNat) := by
  unfold programFrom
  rw [show s.cfg.progCap - s.pc.toNat = (s.cfg.progCap - 1 - s.pc.toNat) + 1 by omega]
  rfl

/-- From a `pc` past the program store there is no byte (R400). -/
theorem programFrom_past {s : State} (h : s.cfg.progCap ≤ s.pc.toNat) : programFrom s.pc s = [] := by
  unfold programFrom
  rw [Nat.sub_eq_zero_of_le h]
  rfl

/-- A stream that is no whole instruction begins with the byte that the decoder names (R149, R153, R400). -/
theorem decode_opcode {c : Config.Params} {bs : List Byte} :
    (∀ op, decode c bs = .reserved op → ∃ r, bs = op :: r) ∧
    (∀ op, decode c bs = .cutShort op → ∃ r, bs = op :: r) ∧
    (decode c bs = .noOpcode → bs = []) := by
  cases bs with
  | nil => simp [decode]
  | cons b bs =>
    simp only [decode]
    split
    · simp
    · split <;> simp

/-- A code ORed into a seeded status. -/
theorem seed_or (pc : Addr) (op : Byte) (k : Byte) : seedStatus pc op ||| BitVec.setWidth 32 k = pc ++ op ++ k := by
  unfold seedStatus
  apply BitVec.eq_of_getLsbD_eq
  intro i hi
  simp only [BitVec.getLsbD_or, BitVec.getLsbD_setWidth, BitVec.getLsbD_append]
  by_cases h8 : i < 8
  · simp [h8, hi]
  · have : k.getLsbD i = false := BitVec.getLsbD_of_ge k i (by omega)
    simp [h8, this]

/-- A step whose bytes are no whole instruction: the fault entry on the seeded status (R400, R403). -/
theorem rejectFetch_eq (e op s) : rejectFetch e op s =
    .next { s with flags := s.flags ||| 0b011, status := s.pc ++ op ++ e.code } := by
  simp only [rejectFetch, haltWith, State.seed, seed_or]
  rfl

/-- What a transition can be. -/
theorem step_cases {s t : State} (h : step s = .next t) :
    (∃ m rest, s.inputs = .agent m :: rest ∧ t = agentMove m { s with inputs := rest }) ∨
    (∃ c rest, s.inputs = .control c :: rest ∧ t = controlAct c { s with inputs := rest }) ∨
    (s.engineNext = true ∧ engineStep { s with inputs := s.inputs.tail } = .next t) := by
  have h0 := h
  unfold step at h
  split at h <;> rename_i hi
  · right; right; have : s.engineNext = true := by simp [State.engineNext, hi]
    exact ⟨this, by rw [← step_of_engineNext this]; exact h0⟩
  · right; right; have : s.engineNext = true := by simp [State.engineNext, hi]
    exact ⟨this, by rw [← step_of_engineNext this]; exact h0⟩
  · left; injection h with h; exact ⟨_, _, hi, h.symm⟩
  · right; left; injection h with h; exact ⟨_, _, hi, h.symm⟩

/-- What an engine step can be: nothing, an instruction, or the fault of a fetch. -/
theorem engineStep_cases {s t : State} (h : engineStep s = .next t) :
    (s.halted = true ∧ t = s) ∨
    (s.halted = false ∧
      ((∃ i rest, decode s.cfg (programFrom s.pc s) = .instr i rest ∧ exec i (s.seed i.opcode.toByte) = .next t) ∨
      ∃ e, e ≠ .divideByZero ∧
        t = { s with flags := s.flags ||| 0b011, status := s.pc ++ s.opcodeByte ++ ErrorCode.code e })) := by
  cases hh : s.halted with
  | true =>
    simp [engineStep, hh] at h
    exact .inl ⟨rfl, h.symm⟩
  | false =>
    refine .inr ⟨rfl, ?_⟩
    rw [engineStep_running hh] at h
    have hop := decode_opcode (c := s.cfg) (bs := programFrom s.pc s)
    have first : ∀ op r, programFrom s.pc s = op :: r → s.opcodeByte = op := by
      intro op r e
      unfold State.opcodeByte
      split
      · rename_i hlt
        rw [programFrom_cons hlt] at e
        injection e
      · rename_i hge
        rw [programFrom_past (by omega)] at e
        cases e
    split at h <;> rename_i hd
    · exact .inl ⟨_, _, hd, h⟩
    · obtain ⟨r, hr⟩ := hop.1 _ hd
      rw [rejectFetch_eq] at h; injection h with h
      exact .inr ⟨.unsupportedOperation, by decide, by rw [first _ _ hr]; exact h.symm⟩
    · obtain ⟨r, hr⟩ := hop.2.1 _ hd
      rw [rejectFetch_eq] at h; injection h with h
      exact .inr ⟨.memoryAccessViolation, by decide, by rw [first _ _ hr]; exact h.symm⟩
    · have hr := hop.2.2 hd
      rw [rejectFetch_eq] at h; injection h with h
      have : s.opcodeByte = 0 := by
        unfold State.opcodeByte
        split
        · rename_i hlt
          rw [programFrom_cons hlt] at hr
          cases hr
        · rfl
      exact .inr ⟨.memoryAccessViolation, by decide, by rw [this]; exact h.symm⟩

end Sys2Proof.Machine
end

