-- ==== Sys2Proof/Tests/Slice0.lean ====
section
/-! SUPPORT. Tests: an ill-formed term for each check of WellFormed, the words of every constructor written out from
the spec's encoding, steps from the spec's test vectors (95_test_vectors.md, named V<n>), and for each statement
with hypotheses a state that meets them (`witness_<name>`). -/

set_option maxRecDepth 4000

open Sys2Proof Sys2Proof.Machine

namespace Sys2Proof.Tests

/-! ### States -/

/-- This hardware's parameters. -/
abbrev hw : Config.Params := Config.thisHardware

/-- The reset state with a program from address `at_` up, the engine there, and typed cells
(address, width, value) of data memory. -/
def start (at_ : Addr) (program : List Byte) (cells : List (Nat × Nat × Nat)) : State :=
  { State.reset with
    pc := at_
    prog := Memory.writeBytes [] at_.toNat program
    mem := cells.foldl (fun m c => Memory.writeBytes m c.1 (leBytes c.2.1 c.2.2)) [] }

/-- The reset state of a hardware with the smallest sizes that these tests use: 8 bytes of data memory, 4 of program
store, 2 slots, 1 stack entry, 2 controllers; the fixed parameters as R8 has them; and the whole error mask for
"not found". -/
def small : State := State.resetWith ⟨8, 4, 2, 1, 2, 4, 16, 100, 1000, 0xFFFF, 0x7E⟩

/-- One step answers a next state that passes the check. -/
def stepGives (s : State) (check : State → Bool) : Bool :=
  match step s with
  | .next t => check t
  | .fault _ => false
  | .refused _ => false

/-- `n` steps answer a state that passes the check. -/
def stepsGive (n : Nat) (s : State) (check : State → Bool) : Bool :=
  match Host.Core.run Sys2Proof.core n s with
  | .next t => check t
  | .fault _ => false
  | .refused _ => false

/-- The slot of the URLMAP example of R330. -/
def slotOnce : MapSlot := ⟨0x09, 0x01, 0x0080, 0x0100, 0x0110, 0x1633, 0x00⟩

/-- The controller that the PIDINIT example of R352 leaves at time 1 000 000 (V40). -/
def pidManual : Pid :=
  ⟨0x20000, 0x1999, 0x50000, 0, 0x640000, .direct, 100, 0, 0, 900000, .manual, true, 0x100, 0x104, 0x108, none⟩

/-- The cells of Setup A: input 20.0, setpoint 25.0. -/
def cellsA : List (Nat × Nat × Nat) := [(0x100, 4, 0x140000), (0x108, 4, 0x190000)]

/-- The state of Setup A with a controller in place of `pid[0]`. -/
def withPid0 (program : List Byte) (p : Pid) : State :=
  { start 0 program cellsA with timeBase := 1000000, pid := State.reset.pid.set 0 p }

/-- The state of Setup A with the output cell at 50.0 and the setpoint equal to the input (V55). -/
def steadyState : State :=
  { start 0 [] [(0x100, 4, 0x140000), (0x104, 4, 0x320000), (0x108, 4, 0x140000)] with
    timeBase := 1000000
    pid := State.reset.pid.set 0 pidManual }

/-! ### WellFormed: one ill-formed term for each check -/

theorem test_refuses_operand_form :
    Instr.wf hw (.add ⟨0, .literal, .u8, .literal⟩ 0 (.addr 0)) = false := by decide

theorem test_refuses_pointer_form :
    Instr.wf hw (.add ⟨0, .literal, .u8, .address⟩ 0 (.lit 0)) = false := by decide

theorem test_refuses_literal_too_wide :
    Instr.wf hw (.load ⟨0, .literal, .u8, .literal⟩ 0 (.lit 0x100)) = false := by decide

theorem test_refuses_string_with_nul :
    Instr.wf hw (.urlmap ⟨0, .address, .u32, .literal⟩ 0 0 0 (.inline [0x61, 0x00]) (.addr 0)) = false := by decide

theorem test_refuses_string_form :
    Instr.wf hw (.urlmap ⟨0, .literal, .u32, .address⟩ 0 0 0 (.addr 0) (.addr 0)) = false := by decide

theorem test_refuses_bitwise_rational_destination :
    Instr.wf hw (.bitAnd ⟨0, .literal, .rat, .literal⟩ 1 (.lit 0)) = false := by decide

theorem test_refuses_bitwise_rational_source :
    Instr.wf hw (.lshift ⟨0, .literal, .rat, .literal⟩ 0 (.lit 1)) = false := by decide

theorem test_refuses_bitwise_operand :
    Instr.wf hw (.bitXor ⟨0, .literal, .u16, .literal⟩ 0 (.lit 0x10000)) = false := by decide

theorem test_refuses_not_rational_destination :
    Instr.wf hw (.bitNot ⟨0, .literal, .rat, .literal⟩ 1) = false := by decide

theorem test_refuses_multiload_count :
    Instr.wf hw (.multiload ⟨0, .literal, .u8, .literal⟩ 0 2 [.lit 1]) = false := by decide

theorem test_refuses_multiload_operand :
    Instr.wf hw (.multiload ⟨0, .literal, .u8, .literal⟩ 0 1 [.addr 1]) = false := by decide

theorem test_refuses_jump_target :
    Instr.wf hw (.jump ⟨0, .literal, .u32, .literal⟩ (.lit 0x10000)) = false := by decide

theorem test_refuses_call_target :
    Instr.wf hw (.call ⟨0, .literal, .u32, .address⟩ (.lit 0)) = false := by decide

theorem test_refuses_compare_operand :
    Instr.wf hw (.compare ⟨0, .literal, .u32, .address⟩ 0 (.lit 0) 0 0 0) = false := by decide

theorem test_refuses_pidinit_one_mode :
    Instr.wf hw (.pidInit ⟨0, .literal, .u32, .literal⟩ ⟨0, 0, 0, .lit 0, .lit 0, .addr 0, 0, 0, .lit 0, .lit 0⟩) = false := by decide

theorem test_refuses_pidinit_unavailable_id :
    Instr.wf hw (.pidInit ⟨4, .literal, .u32, .literal⟩ ⟨1, 0, 0, .lit 0, .lit 0, .lit 0, 0, 0, .lit 0, .lit 0⟩) = false := by decide

/-! ### Decoding: words written out from the encodings of R141 to R147 -/

theorem test_decodes_halt :
    decode hw [0x00] =
      .instr (.halt) [] := by decide

theorem test_decodes_add :
    decode hw [0x01, 0x04, 0x20, 0x00, 0x01] =
      .instr (.add ⟨0, .literal, .u8, .literal⟩ 0x0020 (.lit 1)) [] := by decide

theorem test_decodes_sub :
    decode hw [0x02, 0x06, 0x20, 0x00, 0x01, 0x00] =
      .instr (.sub ⟨0, .literal, .u16, .literal⟩ 0x0020 (.lit 1)) [] := by decide

theorem test_decodes_mul :
    decode hw [0x03, 0x02, 0x30, 0x00, 0x00, 0x40, 0x02, 0x00] =
      .instr (.mul ⟨0, .literal, .rat, .literal⟩ 0x0030 (.lit 0x00024000)) [] := by decide

theorem test_decodes_div :
    decode hw [0x04, 0x07, 0x20, 0x00, 0x40, 0x00] =
      .instr (.div ⟨0, .literal, .u16, .address⟩ 0x0020 (.addr 0x0040)) [] := by decide

theorem test_decodes_mod :
    decode hw [0x05, 0x06, 0x20, 0x00, 0x03, 0x00] =
      .instr (.mod ⟨0, .literal, .u16, .literal⟩ 0x0020 (.lit 3)) [] := by decide

theorem test_decodes_and :
    decode hw [0x06, 0x04, 0x20, 0x00, 0x0F] =
      .instr (.bitAnd ⟨0, .literal, .u8, .literal⟩ 0x0020 (.lit 0x0F)) [] := by decide

theorem test_decodes_or :
    decode hw [0x07, 0x06, 0x20, 0x00, 0x0F, 0x00] =
      .instr (.bitOr ⟨0, .literal, .u16, .literal⟩ 0x0020 (.lit 0x0F)) [] := by decide

theorem test_decodes_not :
    decode hw [0x08, 0x06, 0x20, 0x00] =
      .instr (.bitNot ⟨0, .literal, .u16, .literal⟩ 0x0020) [] := by decide

theorem test_decodes_xor :
    decode hw [0x09, 0x01, 0x10, 0x00, 0x10, 0x00] =
      .instr (.bitXor ⟨0, .literal, .u32, .address⟩ 0x0010 (.addr 0x0010)) [] := by decide

theorem test_decodes_lshift :
    decode hw [0x0A, 0x04, 0x20, 0x00, 0x03] =
      .instr (.lshift ⟨0, .literal, .u8, .literal⟩ 0x0020 (.lit 3)) [] := by decide

theorem test_decodes_rshift :
    decode hw [0x0B, 0x00, 0x10, 0x00, 0x1F, 0x00, 0x00, 0x00] =
      .instr (.rshift ⟨0, .literal, .u32, .literal⟩ 0x0010 (.lit 31)) [] := by decide

theorem test_decodes_load :
    decode hw [0x0C, 0x00, 0xFC, 0x03, 0x78, 0x56, 0x34, 0x12] =
      .instr (.load ⟨0, .literal, .u32, .literal⟩ 0x03FC (.lit 0x12345678)) [] := by decide

theorem test_decodes_multiload :
    decode hw [0x0D, 0x07, 0x40, 0x00, 0x02, 0x50, 0x00, 0x52, 0x00] =
      .instr (.multiload ⟨0, .literal, .u16, .address⟩ 0x0040 2 [.addr 0x0050, .addr 0x0052]) [] := by decide

theorem test_decodes_copy :
    decode hw [0x0E, 0x00, 0x40, 0x00, 0x03, 0x00, 0x41, 0x00] =
      .instr (.copy ⟨0, .literal, .u32, .literal⟩ 0x0040 3 0x0041) [] := by decide

theorem test_decodes_jump :
    decode hw [0x0F, 0x02, 0x34, 0x12] =
      .instr (.jump ⟨0, .literal, .rat, .literal⟩ (.lit 0x1234)) [] := by decide

theorem test_decodes_compare :
    decode hw [0x10, 0x04, 0x20, 0x00, 0x01, 0x00, 0x01, 0x00, 0x02, 0x00, 0x03] =
      .instr (.compare ⟨0, .literal, .u8, .literal⟩ 0x0020 (.lit 1) 0x0100 0x0200 0x0300) [] := by decide

theorem test_decodes_call :
    decode hw [0x11, 0x01, 0x50, 0x00] =
      .instr (.call ⟨0, .literal, .u32, .address⟩ (.addr 0x0050)) [] := by decide

theorem test_decodes_return :
    decode hw [0x12] =
      .instr (.ret) [] := by decide

theorem test_decodes_time :
    decode hw [0x13, 0x00, 0x60, 0x00] =
      .instr (.time ⟨0, .literal, .u32, .literal⟩ 0x0060) [] := by decide

theorem test_decodes_comparetime :
    decode hw [0x14, 0x00, 0x60, 0x00, 0xF0, 0x8C, 0x41, 0x00, 0x00, 0x02, 0x00, 0x03] =
      .instr (.compareTime ⟨0, .literal, .u32, .literal⟩ 0x0060 0x00418CF0 0x0200 0x0300) [] := by decide

theorem test_decodes_urlmap :
    decode hw [0x15, 0x08, 0x00, 0x80, 0x00, 0x50, 0x00, 0x61, 0x62, 0x00, 0x00, 0x02] =
      .instr (.urlmap ⟨0, .address, .u32, .literal⟩ 0 0x0080 80 (.inline [0x61, 0x62]) (.addr 0x0200)) [] := by decide

theorem test_decodes_urlmapcheck :
    decode hw [0x16, 0xF0, 0x90, 0x00] =
      .instr (.urlmapCheck ⟨15, .literal, .u32, .literal⟩ 0x0090) [] := by decide

theorem test_decodes_urlmapdelete :
    decode hw [0x17, 0x30] =
      .instr (.urlmapDelete ⟨3, .literal, .u32, .literal⟩) [] := by decide

theorem test_decodes_pidinit :
    decode hw [0x18, 0x01, 0x00, 0x01, 0x04, 0x01, 0x08, 0x01, 0x20, 0x00, 0x24, 0x00, 0x28, 0x00, 0x64, 0x00, 0x01, 0x2C, 0x00, 0x30, 0x00] =
      .instr (.pidInit ⟨0, .literal, .u32, .address⟩
        ⟨0x0100, 0x0104, 0x0108, .addr 0x0020, .addr 0x0024, .addr 0x0028, 100, 1, .addr 0x002C, .addr 0x0030⟩) [] := by decide

theorem test_decodes_pidclear :
    decode hw [0x19, 0x00] =
      .instr (.pidClear ⟨0, .literal, .u32, .literal⟩) [] := by decide

theorem test_decodes_pidstop :
    decode hw [0x1A, 0x10] =
      .instr (.pidStop ⟨1, .literal, .u32, .literal⟩) [] := by decide

theorem test_decodes_pidrun :
    decode hw [0x1B, 0x20] =
      .instr (.pidRun ⟨2, .literal, .u32, .literal⟩) [] := by decide

theorem test_decodes_reset :
    decode hw [0x1C] =
      .instr (.reset) [] := by decide

theorem test_reserved_opcode : decode hw [0x1D, 0x00] = .reserved 0x1D := by decide

theorem test_bitwise_rational_reads_no_field :
    decode hw [0x06, 0x02, 0x30, 0x00] =
      .instr (.bitAnd ⟨0, .literal, .rat, .literal⟩ 0 (.lit 0)) [0x30, 0x00] := by decide

theorem test_table_word :
    decodeTableWord 16 0x3017 = some (.urlmapDelete ⟨3, .literal, .u32, .literal⟩) := by decide

theorem test_fetch_word :
    stepGives (State.reset.withFetchWord 40 0x0100200401) (fun t => t.mem == [(0x20, 1)] && t.pc == 5) = true := by
  decide

/-! ### Each parameter of R8 is an argument: other values than this hardware's, worked by hand -/

theorem test_rational_parameters :
    Ty.rat.width { hw with ratBytes := 2 } = 2 ∧ qmul { hw with ratFrac := 8 } 0x200 0x380 = 0x700 := by decide

theorem test_minimum_sample_parameter :
    sampleFloor { hw with pidMinSampleMs := 250 } 100 = 250 ∧ sampleFloor { hw with pidMinSampleMs := 250 } 300 = 300 := by
  decide

/-- A timeout of 3 units of 10 µs, at 30 and at 29 µs. -/
theorem test_timeout_scale_parameter :
    compareTimeTarget { hw with timeoutScale := 10 } 30 3 0xA 0xB = 0xA ∧
      compareTimeTarget { hw with timeoutScale := 10 } 29 3 0xA 0xB = 0xB := by decide

theorem test_no_mapping_parameter :
    (MapSlot.unmapped { hw with noMapping := 0xABCD }).valueAddress = 0xABCD := rfl

/-! ### Steps: at most two of the spec's vectors for each instruction -/

/-- V130. -/
theorem test_halt :
    stepGives (start 8 [0x00] [])
      (fun t => t.pc == 9 && t.flags == 0b001 && t.status == 0x00080000) = true := by
  decide

/-- V10. -/
theorem test_add :
    stepGives (start 0 [0x01, 0x04, 0x20, 0x00, 0x01] [(0x20, 1, 0xFF)])
      (fun t => t.rawAt .u8 0x20 == 0 && t.pc == 5 && t.status == 0x100 && t.flags == 0) = true := by
  decide

/-- V13. -/
theorem test_add_rational :
    stepGives (start 0 [0x01, 0x02, 0x30, 0x00, 0x00, 0x80, 0x00, 0x00] [(0x30, 4, 0x18000)])
      (fun t => t.rawAt .rat 0x30 == 0x20000) = true := by
  decide

/-- V14. -/
theorem test_sub :
    stepGives (start 0 [0x02, 0x06, 0x20, 0x00, 0x01, 0x00] [])
      (fun t => t.rawAt .u16 0x20 == 0xFFFF) = true := by
  decide

/-- V16. -/
theorem test_sub_rational :
    stepGives (start 0 [0x02, 0x02, 0x30, 0x00, 0x01, 0x00, 0x00, 0x00] [(0x30, 4, 0x80000000)])
      (fun t => t.rawAt .rat 0x30 == 0x7FFFFFFF) = true := by
  decide

/-- V18. -/
theorem test_mul :
    stepGives (start 0 [0x03, 0x04, 0x20, 0x00, 0x10] [(0x20, 1, 0x13)])
      (fun t => t.rawAt .u8 0x20 == 0x30) = true := by
  decide

/-- V19a. -/
theorem test_mul_rational :
    stepGives (start 0 [0x03, 0x02, 0x30, 0x00, 0x00, 0x80, 0x00, 0x00] [(0x30, 4, 0xFFFFFFFF)])
      (fun t => t.rawAt .rat 0x30 == 0xFFFFFFFF) = true := by
  decide

/-- V23. -/
theorem test_div_rational :
    stepGives (start 0 [0x04, 0x02, 0x30, 0x00, 0x00, 0x00, 0x03, 0x00] [(0x30, 4, 0xFFFF0000)])
      (fun t => t.rawAt .rat 0x30 == 0xFFFFAAAB) = true := by
  decide

/-- V2. -/
theorem test_div_by_zero :
    stepGives (start 0 [0x04, 0x00, 0x10, 0x00, 0x00, 0x00, 0x00, 0x00] [(0x10, 4, 2)])
      (fun t => t.rawAt .u32 0x10 == 2 && t.flags == 0b111 && t.status == 0x404 && t.pc == 0) = true := by
  decide

/-- V25. -/
theorem test_mod :
    stepGives (start 0 [0x05, 0x06, 0x20, 0x00, 0x03, 0x00] [(0x20, 2, 7)])
      (fun t => t.rawAt .u16 0x20 == 1) = true := by
  decide

/-- V28. -/
theorem test_mod_rational :
    stepGives (start 0 [0x05, 0x02, 0x30, 0x00, 0x00, 0x00, 0x02, 0x00] [(0x30, 4, 0xFFFA8000)])
      (fun t => t.rawAt .rat 0x30 == 0xFFFE8000) = true := by
  decide

/-- V30. -/
theorem test_and :
    stepGives (start 0 [0x06, 0x04, 0x20, 0x00, 0x0F] [(0x20, 1, 0x3C)])
      (fun t => t.rawAt .u8 0x20 == 0x0C && t.pc == 5) = true := by
  decide

/-- V39. -/
theorem test_and_rational :
    stepGives (start 0 [0x06, 0x02, 0x30, 0x00, 0x00, 0x00, 0x01, 0x00] [])
      (fun t => t.flags == 0b011 && t.status == 0x605 && t.pc == 0) = true := by
  decide

/-- V31. -/
theorem test_or :
    stepGives (start 0 [0x07, 0x06, 0x20, 0x00, 0x0F, 0x00] [(0x20, 2, 0xF0)])
      (fun t => t.rawAt .u16 0x20 == 0xFF) = true := by
  decide

/-- V32. -/
theorem test_not :
    stepGives (start 0 [0x08, 0x06, 0x20, 0x00] [(0x20, 2, 0xF0)])
      (fun t => t.rawAt .u16 0x20 == 0xFF0F && t.pc == 4) = true := by
  decide

/-- V34. -/
theorem test_xor :
    stepGives (start 0 [0x09, 0x01, 0x10, 0x00, 0x10, 0x00] [(0x10, 4, 0xDEADBEEF)])
      (fun t => t.mem == []) = true := by
  decide

/-- V35. -/
theorem test_lshift :
    stepGives (start 0 [0x0A, 0x04, 0x20, 0x00, 0x03] [(0x20, 1, 0x81)])
      (fun t => t.rawAt .u8 0x20 == 0x08) = true := by
  decide

/-- V36. -/
theorem test_lshift_by_width :
    stepGives (start 0 [0x0A, 0x04, 0x20, 0x00, 0x08] [(0x20, 1, 0x81)])
      (fun t => t.rawAt .u8 0x20 == 0) = true := by
  decide

/-- V37. -/
theorem test_rshift :
    stepGives (start 0 [0x0B, 0x00, 0x10, 0x00, 0x1F, 0x00, 0x00, 0x00] [(0x10, 4, 0x80000000)])
      (fun t => t.rawAt .u32 0x10 == 1) = true := by
  decide

/-- V64. -/
theorem test_load :
    stepGives (start 0 [0x0C, 0x00, 0xFC, 0x03, 0x78, 0x56, 0x34, 0x12] [])
      (fun t => t.mem == [(0x3FC, 0x78), (0x3FD, 0x56), (0x3FE, 0x34), (0x3FF, 0x12)]) = true := by
  decide

/-- V65. -/
theorem test_load_outside :
    stepGives (start 0 [0x0C, 0x00, 0xFD, 0x03, 0x78, 0x56, 0x34, 0x12] [])
      (fun t => t.mem == [] && t.flags == 0b011 && t.status == 0xC01) = true := by
  decide

/-- V63. -/
theorem test_multiload :
    stepGives (start 0 [0x0D, 0x07, 0x40, 0x00, 0x02, 0x50, 0x00, 0x52, 0x00] [(0x50, 2, 0xAAAA), (0x52, 2, 0xBBBB)])
      (fun t => t.rawAt .u32 0x40 == 0xBBBBAAAA && t.pc == 9) = true := by
  decide

/-- V69. -/
theorem test_multiload_outside :
    stepGives (start 0 [0x0D, 0x06, 0xFC, 0x03, 0x03, 0x11, 0x11, 0x22, 0x22, 0x33, 0x33] [])
      (fun t => t.rawAt .u32 0x3FC == 0x22221111 && t.status == 0xD01 && t.pc == 0) = true := by
  decide

/-- V70. -/
theorem test_copy :
    stepGives (start 0 [0x0E, 0x00, 0x40, 0x00, 0x03, 0x00, 0x41, 0x00] [(0x40, 4, 0x00030201)])
      (fun t => t.rawAt .u32 0x40 == 0x03020101) = true := by
  decide

/-- V72. -/
theorem test_copy_nothing :
    stepGives (start 0 [0x0E, 0x00, 0xFF, 0xFF, 0x00, 0x00, 0xFF, 0xFF] [])
      (fun t => t.pc == 8 && t.flags == 0) = true := by
  decide

/-- V77. -/
theorem test_jump :
    stepGives (start 0 [0x0F, 0x01, 0x50, 0x00] [(0x50, 2, 0x200)])
      (fun t => t.pc == 0x200) = true := by
  decide

/-- V83. -/
theorem test_compare_rational :
    stepGives (start 0 [0x10, 0x02, 0x30, 0x00, 0x00, 0x80, 0x00, 0x00, 0x00, 0x01, 0x00, 0x02, 0x00, 0x03] [(0x30, 4, 0xFFFF0000)])
      (fun t => t.pc == 0x100) = true := by
  decide

/-- V84. -/
theorem test_compare :
    stepGives (start 0 [0x10, 0x01, 0x10, 0x00, 0x14, 0x00, 0x00, 0x01, 0x00, 0x02, 0x00, 0x03] [(0x10, 4, 0x80000000), (0x14, 4, 1)])
      (fun t => t.pc == 0x300) = true := by
  decide

/-- V86. -/
theorem test_call :
    stepGives (start 0x10 [0x11, 0x00, 0x00, 0x01] [])
      (fun t => t.stack[0]? == some 0x14 && t.sp == 1 && t.pc == 0x100 && t.status == 0x00101100) = true := by
  decide

/-- V88. -/
theorem test_call_full :
    stepGives { start 0x10 [0x11, 0x00, 0x00, 0x01] [] with sp := 20 }
      (fun t => t.flags == 0b011 && t.status == 0x00101102 && t.pc == 0x10 && t.sp == 20) = true := by
  decide

/-- V89. -/
theorem test_return :
    stepGives { start 0x100 [0x12] [] with sp := 1, stack := State.reset.stack.set 0 0x14 }
      (fun t => t.pc == 0x14 && t.sp == 0) = true := by
  decide

/-- V90. -/
theorem test_return_empty :
    stepGives (start 0x100 [0x12] [])
      (fun t => t.pc == 0x100 && t.status == 0x01001203) = true := by
  decide

/-- V100. -/
theorem test_time :
    stepGives { start 0 [0x13, 0x00, 0x60, 0x00] [] with timeBase := 4294967301 }
      (fun t => t.rawAt .u32 0x60 == 5 && t.pc == 4) = true := by
  decide

/-- V105. -/
theorem test_comparetime_wraps :
    stepGives { start 0 [0x14, 0x00, 0x60, 0x00, 0x01, 0x00, 0x00, 0x00, 0x00, 0x02, 0x00, 0x03] [(0x60, 4, 4294967040)] with timeBase := 4294968064 }
      (fun t => t.pc == 0x200) = true := by
  decide

/-- V102. -/
theorem test_comparetime :
    stepGives { start 0 [0x14, 0x00, 0x60, 0x00, 0x64, 0x00, 0x00, 0x00, 0x00, 0x02, 0x00, 0x03] [(0x60, 4, 1000000)] with timeBase := 1099999 }
      (fun t => t.pc == 0x300) = true := by
  decide

/-- V110. -/
theorem test_urlmap :
    stepGives (start 0 [0x15, 0x09, 0x01, 0x80, 0x00, 0x33, 0x16, 0x00, 0x01, 0x10, 0x01] [])
      (fun t => t.map[0] == slotOnce && t.pc == 11) = true := by
  decide

/-- V112. -/
theorem test_urlmap_inline :
    stepGives (start 0 [0x15, 0x08, 0x00, 0x80, 0x00, 0x50, 0x00, 0x61, 0x62, 0x00, 0x00, 0x02] [])
      (fun t => t.map[0].urlAddress == 7 && t.map[0].resourceAddress == 0x200 && t.pc == 12) = true := by
  decide

/-- V3c. -/
theorem test_urlmapcheck_deletes :
    stepGives { start 0 [0x16, 0x00, 0x90, 0x00] [] with map := State.reset.map.set 0 { slotOnce with status := 0x01 } }
      (fun t => t.rawAt .u8 0x90 == 1 && t.map[0] == ⟨0, 0, 0xFFFF, 0xFFFF, 0xFFFF, 0, 0x80⟩) = true := by
  decide

/-- V3b. -/
theorem test_urlmapcheck_keeps :
    stepGives { start 0 [0x16, 0x00, 0x90, 0x00] [] with map := State.reset.map.set 0 { slotOnce with status := 0x03 } }
      (fun t => t.rawAt .u8 0x90 == 3 && t.map[0] == { slotOnce with status := 0x03 }) = true := by
  decide

/-- V120. -/
theorem test_urlmapdelete :
    stepGives { start 0 [0x17, 0x30] [] with map := State.reset.map.set 3 slotOnce }
      (fun t => t.map[3] == ⟨0, 0, 0xFFFF, 0xFFFF, 0xFFFF, 0, 0x80⟩ && t.pc == 2) = true := by
  decide

/-- V40. -/
theorem test_pidinit :
    stepGives { start 0 [0x18, 0x00, 0x00, 0x01, 0x04, 0x01, 0x08, 0x01, 0x00, 0x00, 0x02, 0x00, 0x00, 0x00, 0x01, 0x00, 0x00, 0x80, 0x00, 0x00, 0x64, 0x00, 0x00, 0x00, 0x00, 0x00, 0x00, 0x00, 0x00, 0x64, 0x00] [] with timeBase := 1000000 }
      (fun t => t.pid[0] == pidManual && t.pc == 0x1F) = true := by
  decide

/-- V46. -/
theorem test_pidinit_saturates :
    stepGives (start 0 [0x18, 0x00, 0x00, 0x01, 0x04, 0x01, 0x08, 0x01, 0x00, 0x00, 0x00, 0x00, 0xFF, 0xFF, 0xFF, 0x7F, 0x00, 0x00, 0x00, 0x7F, 0x64, 0x00, 0x01, 0x00, 0x00, 0x00, 0x00, 0x00, 0x00, 0x64, 0x00] [])
      (fun t => t.pid[0].ki == -0x0CCCCCCC && t.pid[0].kd == 0x80000000 && t.pid[0].kp == 0) = true := by
  decide

/-- V58. -/
theorem test_pidclear :
    stepGives (withPid0 [0x19, 0x00] pidManual)
      (fun t => t.pid[0] == { pidManual with initialized := false } && t.pc == 2) = true := by
  decide

/-- V51. -/
theorem test_pidstop :
    stepGives (withPid0 [0x1A, 0x00] { pidManual with mode := .automatic })
      (fun t => t.pid[0] == pidManual) = true := by
  decide

/-- V47. -/
theorem test_pidrun :
    stepGives (withPid0 [0x1B, 0x00] pidManual)
      (fun t => t.pid[0] == { pidManual with mode := .automatic, lastInput := 0x140000 } && t.rawAt .rat 0x104 == 0) = true := by
  decide

/-- V56. -/
theorem test_pidrun_clamps :
    stepGives { withPid0 [0x1B, 0x00] pidManual with mem := Memory.writeBytes [] 0x104 (leBytes 4 0xC80000) }
      (fun t => t.pid[0].iSum == 0x640000 && t.rawAt .rat 0x104 == 0xC80000) = true := by
  decide

/-- V131. -/
theorem test_reset :
    stepGives { start 0x40 [0x1C] [(5, 1, 7)] with sp := 2, map := State.reset.map.set 2 slotOnce, pid := State.reset.pid.set 1 pidManual }
      (fun t => t == { State.reset with pc := 0x40, flags := 0b011, status := 0x00401C09, prog := t.prog }) = true := by
  decide

/-- V48: a tick, and the compute of controller 0 as its five accesses. -/
theorem test_compute :
    stepsGive 7
      { withPid0 [] { pidManual with mode := .automatic, lastInput := 0x140000 } with
        inputs := .agent (.elapse 10) :: List.replicate 6 (.agent .sequencer) }
      (fun t => t.rawAt .rat 0x104 == 0xA7FFD && t.pid[0].iSum == 32765 && t.pid[0].lastTime == 1000010 &&
        t.seq == .mapGate 1) = true := by
  decide

/-- V134: a reserved opcode. -/
theorem test_reserved_faults :
    stepGives (start 0x22 [0x1D] []) (fun t => t.pc == 0x22 && t.flags == 0b011 && t.status == 0x00221D06) = true := by
  decide

/-- V136: an instruction that runs past the program store. -/
theorem test_cut_short_faults :
    stepGives (start 0xFFFC [0x01, 0x00, 0x10, 0x00] [])
      (fun t => t.pc == 0xFFFC && t.flags == 0b011 && t.status == 0xFFFC0101) = true := by
  decide

/-! ### Witnesses: for each statement with hypotheses, a state and operands that meet them -/

theorem bankSound_setup : steadyState.bankSound := by unfold State.bankSound Pid.sound; decide

theorem canonical_reset : State.reset.storesCanonical := ⟨rfl, rfl, rfl, by decide⟩

theorem legal_hw : hw.legal := by unfold Config.Params.legal; decide

theorem quiet_reset : State.reset.quiet := ⟨rfl, rfl, rfl⟩

theorem witness_DecodeOfEncode :
    Instr.wf hw (.multiload ⟨15, .address, .u16, .literal⟩ 0xFFFF 2 [.lit 0xFFFF, .lit 0]) = true := by decide

theorem witness_EncodeOfDecode_whole : hw.legal ∧ decode hw [0x12, 0x34] = .instr .ret [0x34] :=
  ⟨legal_hw, by decide⟩

theorem witness_EncodeOfDecode_cutShort :
    hw.legal ∧
      decode hw [0x0D, 0x06, 0x40, 0x00, 0x02, 0x11, 0x11, 0x22] =
        .instr (.multiload ⟨0, .literal, .u16, .literal⟩ 0x40 2 [.lit 0x1111]) [] ∧
      ([0x22] : List Byte).length + 1 = operandWidth hw .u16 .literal := ⟨legal_hw, by decide⟩

theorem witness_ReservedOpcodeHalts :
    (start 0xFFFF [0x1D] []).engineNext = true ∧ (start 0xFFFF [0x1D] []).halted = false ∧
      (start 0xFFFF [0x1D] []).pc.toNat + 1 = (start 0xFFFF [0x1D] []).cfg.progCap ∧
      0x1D ≤ ((start 0xFFFF [0x1D] []).prog.read (start 0xFFFF [0x1D] []).pc.toNat).toNat := by decide

theorem witness_CutShortInstructionFaults :
    (start 0xFFFC [0x0C, 0x04, 0x10, 0x00] []).cfg.legal ∧
      Instr.wf hw (.load ⟨0, .literal, .u8, .literal⟩ 0x10 (.lit 0xAB)) = true ∧
      (start 0xFFFC [0x0C, 0x04, 0x10, 0x00] []).engineNext = true ∧
      (start 0xFFFC [0x0C, 0x04, 0x10, 0x00] []).halted = false ∧
      (start 0xFFFC [0x0C, 0x04, 0x10, 0x00] []).pc.toNat < (start 0xFFFC [0x0C, 0x04, 0x10, 0x00] []).cfg.progCap ∧
      (start 0xFFFC [0x0C, 0x04, 0x10, 0x00] []).prog.readBytes 0xFFFC
          ((start 0xFFFC [0x0C, 0x04, 0x10, 0x00] []).cfg.progCap - 0xFFFC) ++ [0xAB] =
        encode hw (.load ⟨0, .literal, .u8, .literal⟩ 0x10 (.lit 0xAB)) ∧ ([0xAB] : List Byte) ≠ [] :=
  ⟨legal_hw, by decide⟩

/-- A program store of 4 bytes, and a `pc` just past it (R400, R464). -/
theorem witness_CutShortInstructionFaults_past :
    ∃ s : State, s.cfg.legal ∧ s.engineNext = true ∧ s.halted = false ∧ s.pc.toNat = s.cfg.progCap :=
  ⟨{ small with pc := 4 }, by unfold Config.Params.legal; decide, rfl, rfl, rfl⟩

/-- V137: the last byte of the instruction is the last byte of the program store. -/
theorem witness_StepRunsDecoded :
    (start 0xFFFB [0x0C, 0x04, 0x10, 0x00, 0xAB] []).engineNext = true ∧
      (start 0xFFFB [0x0C, 0x04, 0x10, 0x00, 0xAB] []).halted = false ∧
      decode hw ((start 0xFFFB [0x0C, 0x04, 0x10, 0x00, 0xAB] []).prog.readBytes 0xFFFB
          ((start 0xFFFB [0x0C, 0x04, 0x10, 0x00, 0xAB] []).cfg.progCap - 0xFFFB)) =
        .instr (.load ⟨0, .literal, .u8, .literal⟩ 0x10 (.lit 0xAB)) [] := by decide

/-- A MULTILOAD cut short by the end of the program store runs its whole elements (log 16). -/
theorem witness_StepRunsDecoded_cutShort :
    (start 0xFFF9 [0x0D, 0x04, 0x40, 0x00, 0x03, 0x11, 0x22] []).engineNext = true ∧
      (start 0xFFF9 [0x0D, 0x04, 0x40, 0x00, 0x03, 0x11, 0x22] []).halted = false ∧
      decode hw ((start 0xFFF9 [0x0D, 0x04, 0x40, 0x00, 0x03, 0x11, 0x22] []).prog.readBytes 0xFFF9
          ((start 0xFFF9 [0x0D, 0x04, 0x40, 0x00, 0x03, 0x11, 0x22] []).cfg.progCap - 0xFFF9)) =
        .instr (.multiload ⟨0, .literal, .u8, .literal⟩ 0x40 3 [.lit 0x11, .lit 0x22]) [] := by decide

theorem witness_HaltedStepChangesNothing :
    ({ State.reset with flags := 0b001, inputs := [.proceed] } : State).engineNext = true ∧
      ({ State.reset with flags := 0b001, inputs := [.proceed] } : State).halted = true := by decide

theorem witness_HaltedUntilClear :
    (∀ c rest, State.reset.inputs ≠ .control c :: rest) ∧ (∃ t, step State.reset = .next t) ∧
      ∃ s t : State, (∀ c rest, s.inputs ≠ .control c :: rest) ∧ step s = .next t ∧ s.halted = true :=
  ⟨fun _ _ h => (nomatch h), ⟨_, rfl⟩, { State.reset with flags := 1 }, _, fun _ _ h => (nomatch h), rfl, rfl⟩

theorem witness_StatusAfterStep_code0 :
    ∃ s t : State, s.engineNext = true ∧ s.halted = false ∧ step s = .next t ∧ t.status = s.pc ++ (0x17 : Byte) ++ (0 : Byte) :=
  ⟨start 0xFFFE [0x17, 0x30] [], _, rfl, rfl, rfl, rfl⟩

theorem witness_StatusAfterStep_halt :
    ∃ s t : State, s.engineNext = true ∧ s.halted = false ∧ step s = .next t ∧ t.halted = true ∧ s.opcodeByte = 0 :=
  ⟨State.reset, _, rfl, rfl, rfl, rfl, rfl⟩

theorem witness_StatusAfterStep_code4 :
    ∃ s t : State, s.engineNext = true ∧ s.halted = false ∧ step s = .next t ∧
      t.status = s.pc ++ (0x04 : Byte) ++ (4 : Byte) :=
  ⟨start 0xFFFB [0x04, 0x04, 0x10, 0x00, 0x00] [], _, rfl, rfl, rfl, rfl⟩

theorem witness_StatusAfterStep_code9 :
    ∃ s t : State, s.engineNext = true ∧ s.halted = false ∧ step s = .next t ∧
      t.status = s.pc ++ (0x1C : Byte) ++ (9 : Byte) :=
  ⟨start 0xFFFF [0x1C] [], _, rfl, rfl, rfl, rfl⟩

theorem witness_FaultHasNoOtherEffect :
    ∃ t, State.reset.quiet ∧ State.reset.error = false ∧
      exec (.div ⟨0, .literal, .u8, .literal⟩ 0x10 (.lit 0)) State.reset = .next t ∧ t.error = true :=
  ⟨_, quiet_reset, rfl, rfl, rfl⟩

theorem witness_StepKeeps :
    ∃ t, State.reset.storesCanonical ∧ State.reset.bankSound ∧ State.reset.flagsCoherent ∧ step State.reset = .next t :=
  ⟨_, canonical_reset, by unfold State.bankSound Pid.sound; decide, by unfold State.flagsCoherent; decide, rfl⟩

theorem witness_StepKeepsBank_initialized :
    ∃ t, steadyState.bankSound ∧ steadyState.pid[0].initialized = true ∧ step steadyState = .next t :=
  ⟨_, bankSound_setup, rfl, rfl⟩

theorem witness_ClearRestarts :
    ({ steadyState with inputs := [.control .clear] } : State).inputs = [.control .clear] ∧
      steadyState.seq = .idle ∧ steadyState.hostPending = none := ⟨rfl, rfl, rfl⟩

theorem witness_LoadReplacesProgram_fits :
    ∃ (s : State) (bytes : List Byte), s.inputs = [.control (.load bytes)] ∧ s.seq = .idle ∧ s.hostPending = none ∧
      bytes.length = s.cfg.progCap :=
  ⟨{ State.reset with inputs := [.control (.load (List.replicate 65536 0))] }, _, rfl, rfl, rfl, List.length_replicate⟩

theorem witness_LoadReplacesProgram_refused :
    ∃ (s : State) (bytes : List Byte), s.inputs = [.control (.load bytes)] ∧ s.seq = .idle ∧ s.hostPending = none ∧
      bytes.length = s.cfg.progCap + 1 :=
  ⟨{ State.reset with inputs := [.control (.load (List.replicate 65537 0))] }, _, rfl, rfl, rfl, List.length_replicate⟩

theorem witness_ProgramStoreOnlyLoaded :
    ∃ t, (∀ bytes rest, State.reset.inputs ≠ .control (.load bytes) :: rest) ∧ step State.reset = .next t :=
  ⟨_, fun _ _ h => (nomatch h), rfl⟩

theorem witness_AgentWrites (m : AgentMove) :
    ∃ (s t : State) (rest : List Input), s.inputs = .agent m :: rest ∧ step s = .next t :=
  ⟨{ steadyState with inputs := [.agent m] }, _, [], rfl, rfl⟩

/-- The bytes just below and just above the output cell that a compute stores to. -/
theorem witness_AgentWrites_memory :
    ∀ a ∈ [0x103, 0x108], ∀ p ∈ AgentMove.sequencer.storeSpans
        { steadyState with seq := .writeOutput 0 1000000 0 0 }, a < p.1 ∨ p.1 + p.2 ≤ a := by decide

/-- A dump of a controller on which no transaction is in progress. -/
theorem witness_AgentWrites_dumpPid :
    ∀ i : PidId, i.val = 3 → 3 < steadyState.cfg.nPid →
      steadyState.seq.holds i = false ∧ ∀ l, steadyState.hostPending = some l → l.id ≠ i :=
  fun _ _ _ => ⟨rfl, fun _ h => (nomatch h)⟩

theorem witness_AgentWrites_refused : steadyState.cfg.nPid ≤ 4 := by decide

theorem witness_AddLosesUpdate :
    ∃ s : State, s.storesCanonical ∧ (0x03FF : Addr).toNat < s.cfg.memCap ∧
      s.netPending = some ⟨0x03FF, .u8, some 7⟩ ∧ s.inputs = [.proceed, .agent .netFinish] :=
  ⟨{ State.reset with netPending := some ⟨0x03FF, .u8, some 7⟩, inputs := [.proceed, .agent .netFinish] },
    canonical_reset, by decide, rfl, rfl⟩

theorem witness_MappingReports_done :
    ∃ (s t : State), s.netPending = none ∧ s.inputs = .agent (.net (.mapDone 15)) :: [] ∧ step s = .next t ∧
      s.map[15].active s.cfg = true :=
  ⟨{ State.reset with map := State.reset.map.set 15 slotOnce, inputs := [.agent (.net (.mapDone 15))] },
    _, rfl, rfl, rfl, by decide⟩

theorem witness_MappingReports_error :
    ∃ (s t : State), s.netPending = none ∧ s.inputs = .agent (.net (.mapError 16 0xFF)) :: [] ∧ step s = .next t :=
  ⟨{ State.reset with inputs := [.agent (.net (.mapError 16 0xFF))] }, _, rfl, rfl, rfl⟩

/-- "Not found" with the whole error mask for `ERR_404`. -/
theorem witness_MappingReports_notFound :
    ∃ (s t : State), s.netPending = none ∧ s.cfg.legal ∧ s.cfg.err404 = 0x7E ∧
      s.inputs = .agent (.net (reportNotFound 1 s)) :: [] ∧ step s = .next t ∧ s.map[1].active s.cfg = true :=
  ⟨{ small with map := State.reset.map.set 1 slotOnce, inputs := [.agent (.net (.mapError 1 0x7E))] },
    _, rfl, by unfold Config.Params.legal; decide, rfl, rfl, rfl, by decide⟩

theorem witness_NetworkWritesValue_stores :
    ∃ s : State, s.inputs = [.agent (.net (.writeValue 15 42)), .agent .netFinish] ∧ s.netPending = none ∧
      15 < s.cfg.mapSlots ∧ s.map[15].active s.cfg = true ∧
      s.map[15].valueAddress.toNat + s.map[15].ty.width s.cfg = s.cfg.memCap :=
  ⟨{ State.reset with
      map := State.reset.map.set 15 { slotOnce with optype := 0, valueAddress := 0x03FC }
      inputs := [.agent (.net (.writeValue 15 42)), .agent .netFinish] }, rfl, rfl, by decide, by decide, by decide⟩

theorem witness_NetworkWritesValue_inactive :
    ∃ s : State, s.inputs = [.agent (.net (.writeValue 15 42)), .agent .netFinish] ∧ s.netPending = none ∧
      15 < s.cfg.mapSlots ∧ s.map[15].active s.cfg = false :=
  ⟨{ State.reset with inputs := [.agent (.net (.writeValue 15 42)), .agent .netFinish] }, rfl, rfl, by decide, by decide⟩

theorem witness_NetworkWritesValue_outside :
    ∃ s : State, s.inputs = [.agent (.net (.writeValue 15 42)), .agent .netFinish] ∧ s.netPending = none ∧
      s.map[15].active s.cfg = true ∧ s.map[15].valueAddress.toNat + s.map[15].ty.width s.cfg = s.cfg.memCap + 1 :=
  ⟨{ State.reset with
      map := State.reset.map.set 15 { slotOnce with optype := 0, valueAddress := 0x03FD }
      inputs := [.agent (.net (.writeValue 15 42)), .agent .netFinish] }, rfl, rfl, by decide, by decide⟩

theorem witness_NetworkWritesValue_noSlot :
    ∃ s : State, s.inputs = [.agent (.net (.writeValue 2 42)), .agent .netFinish] ∧ s.netPending = none ∧
      s.cfg.mapSlots = 2 :=
  ⟨{ small with inputs := [.agent (.net (.writeValue 2 42)), .agent .netFinish] }, rfl, rfl, rfl⟩

/-- The bytes just below and just above the span. -/
theorem witness_MemoryFrame :
    ∃ t, State.reset.quiet ∧ exec (.load ⟨0, .literal, .u16, .literal⟩ 0x10 (.lit 0x1234)) State.reset = .next t ∧
      (0x0F < ((Instr.load ⟨0, .literal, .u16, .literal⟩ 0x10 (.lit 0x1234)).storeSpan hw).1) ∧
      ((Instr.load ⟨0, .literal, .u16, .literal⟩ 0x10 (.lit 0x1234)).storeSpan hw).1 +
        ((Instr.load ⟨0, .literal, .u16, .literal⟩ 0x10 (.lit 0x1234)).storeSpan hw).2 ≤ 0x12 :=
  ⟨_, quiet_reset, rfl, by decide, by decide⟩

theorem witness_RegisterFrame :
    ∃ t, State.reset.quiet ∧ exec (.pidStop ⟨3, .literal, .u32, .literal⟩) State.reset = .next t ∧ t.error = false ∧
      (Instr.pidStop ⟨3, .literal, .u32, .literal⟩).controlsPid ≠ some (BitVec.ofNat 4 2) ∧
      (Instr.pidStop ⟨3, .literal, .u32, .literal⟩).mapsSlot ≠ some (BitVec.ofNat 4 3) :=
  ⟨_, quiet_reset, rfl, rfl, by decide, by decide⟩

theorem witness_EngineFrameUnderRaces :
    ∃ s t, s.inputs = [.agent .sequencer, .proceed, .agent (.elapse 1)] ∧
      exec (.add ⟨0, .literal, .u8, .address⟩ 0x03FF (.addr 0x03FF)) s = .next t ∧ t.error = false :=
  ⟨{ steadyState with inputs := [.agent .sequencer, .proceed, .agent (.elapse 1)] }, _, rfl, rfl, rfl⟩

/-- One access a single byte too far, for each form that has accesses. -/
theorem witness_OutOfBoundsFaults :
    [Instr.add ⟨0, .literal, .u32, .literal⟩ 0x03FD (.lit 0), .sub ⟨0, .literal, .u16, .address⟩ 0 (.addr 0x03FF),
      .mul ⟨0, .literal, .rat, .literal⟩ 0x03FD (.lit 0), .div ⟨0, .literal, .u8, .literal⟩ 0x0400 (.lit 0),
      .mod ⟨0, .literal, .u8, .address⟩ 0 (.addr 0x0400), .bitAnd ⟨0, .literal, .u16, .literal⟩ 0x03FF (.lit 0),
      .bitOr ⟨0, .literal, .u16, .literal⟩ 0x03FF (.lit 0), .bitNot ⟨0, .literal, .u32, .literal⟩ 0x03FD,
      .bitXor ⟨0, .literal, .u8, .literal⟩ 0x0400 (.lit 0), .lshift ⟨0, .literal, .u8, .address⟩ 0 (.addr 0x0400),
      .rshift ⟨0, .literal, .u8, .literal⟩ 0x0400 (.lit 0), .load ⟨0, .literal, .rat, .address⟩ 0 (.addr 0x03FD),
      .copy ⟨0, .literal, .u32, .literal⟩ 0x03FF 2 0, .copy ⟨0, .literal, .u32, .literal⟩ 0 2 0x03FF,
      .jump ⟨0, .literal, .u32, .address⟩ (.addr 0x03FF), .compare ⟨0, .literal, .u16, .literal⟩ 0x03FF (.lit 0) 0 0 0,
      .call ⟨0, .literal, .u32, .address⟩ (.addr 0x03FF), .time ⟨0, .literal, .u8, .literal⟩ 0x03FD,
      .compareTime ⟨0, .literal, .u8, .literal⟩ 0x03FD 0 0 0, .urlmapCheck ⟨0, .literal, .u32, .literal⟩ 0x0400,
      .pidInit ⟨3, .literal, .u32, .address⟩
        ⟨0, 0, 0, .addr 0, .addr 0, .addr 0, 0, 0, .addr 0, .addr 0x03FD⟩].all
      (fun i => (i.accesses hw).any (fun p => decide (State.reset.cfg.memCap < p.1 + p.2))) = true ∧ State.reset.inputs = [] := by decide

/-- AddSubResult, MulResult, LoadResult: a literal and the last cell, and a pointer to the last cell, for each
type. -/
theorem witness_TypedResult :
    State.reset.cfg.legal ∧ State.reset.inputs = [] ∧
      [Ty.u32, .rat, .u8, .u16].all (fun t =>
        (Operand.lit 0xFFFFFFFF).readable State.reset t &&
          (Operand.addr (BitVec.ofNat 16 (State.reset.cfg.memCap - t.width hw))).readable State.reset t &&
          decide ((BitVec.ofNat 16 (State.reset.cfg.memCap - t.width hw)).toNat + t.width hw ≤ State.reset.cfg.memCap)) = true :=
  ⟨legal_hw, by decide⟩

theorem witness_DivModResult :
    State.reset.cfg.legal ∧ State.reset.inputs = [] ∧ (Operand.lit 1).readable State.reset .rat = true ∧
      (0x03FC : Addr).toNat + Ty.rat.width hw ≤ State.reset.cfg.memCap ∧
      State.reset.operandRaw .rat (.lit 1) ≠ 0 :=
  ⟨legal_hw, by decide⟩

theorem witness_DivideByZeroFaults :
    State.reset.inputs = [] ∧ (Operand.addr 0x03FC).readable State.reset .rat = true ∧
      (0x03FC : Addr).toNat + Ty.rat.width hw ≤ State.reset.cfg.memCap ∧
      State.reset.operandRaw .rat (.addr 0x03FC) = 0 := by decide

/-- BitwiseResult and ShiftResult; the second operand is a shift by exactly the width. -/
theorem witness_BitwiseResult :
    State.reset.inputs = [] ∧ Ty.u8 ≠ .rat ∧ (Operand.lit 8).readable State.reset .u8 = true ∧
      (0x03FF : Addr).toNat + Ty.u8.width hw ≤ State.reset.cfg.memCap := by decide

theorem witness_BitwiseRationalFaults_first :
    (start 0xFFFE [0x06, 0x02] []).engineNext = true ∧ (start 0xFFFE [0x06, 0x02] []).halted = false ∧
      (start 0xFFFE [0x06, 0x02] []).pc.toNat + 2 = State.reset.cfg.progCap ∧
      0x06 ≤ ((start 0xFFFE [0x06, 0x02] []).prog.read 0xFFFE).toNat ∧
      ((start 0xFFFE [0x06, 0x02] []).prog.read 0xFFFE).toNat ≤ 0x0B ∧
      ((start 0xFFFE [0x06, 0x02] []).prog.read 0xFFFF).extractLsb' 1 2 = 0b01 := by decide

theorem witness_BitwiseRationalFaults_last :
    (start 0 [0x0B, 0xFB] []).engineNext = true ∧ (start 0 [0x0B, 0xFB] []).halted = false ∧
      0x06 ≤ ((start 0 [0x0B, 0xFB] []).prog.read 0).toNat ∧ ((start 0 [0x0B, 0xFB] []).prog.read 0).toNat ≤ 0x0B ∧
      ((start 0 [0x0B, 0xFB] []).prog.read 1).extractLsb' 1 2 = 0b01 := by decide

theorem witness_MultiloadResult :
    State.reset.cfg.legal ∧ State.reset.inputs = [] ∧ [Operand.lit 1, .addr 0x03FE].length = (2 : Byte).toNat ∧
      [Operand.lit 1, .addr 0x03FE].all (·.readable State.reset .u16) = true ∧ (0x03FC : Addr).toNat + 2 * Ty.u16.width hw ≤ State.reset.cfg.memCap ∧
      ([] : List Operand).length = (0 : Byte).toNat :=
  ⟨legal_hw, by decide⟩

theorem witness_MultiloadKeepsEarlierStores :
    State.reset.cfg.legal ∧ State.reset.inputs = [] ∧ [Operand.lit 1].all (·.readable State.reset .u16) = true ∧
      (0x03FE : Addr).toNat + [Operand.lit 1].length * Ty.u16.width hw ≤ State.reset.cfg.memCap ∧
      (Operand.addr 0x03FF).readable State.reset .u16 = false ∧
      State.reset.cfg.memCap < (0x03FE : Addr).toNat + ([Operand.lit 1].length + 1) * Ty.u16.width hw ∧
      [Operand.lit 1].length < (2 : Byte).toNat :=
  ⟨legal_hw, by decide⟩

theorem witness_CopyResult_moves :
    State.reset.storesCanonical ∧ State.reset.inputs = [] ∧
      (0x03FE : Addr).toNat + (2 : BitVec 16).toNat ≤ State.reset.cfg.memCap ∧ (0 : Addr).toNat + (2 : BitVec 16).toNat ≤ State.reset.cfg.memCap :=
  ⟨canonical_reset, rfl, by decide, by decide⟩

theorem witness_CopyResult_nothing :
    State.reset.storesCanonical ∧ State.reset.inputs = [] ∧ (0 : BitVec 16) = 0 := ⟨canonical_reset, rfl, rfl⟩

theorem witness_JumpResult :
    State.reset.inputs = [] ∧ (Operand.addr 0x03FE).readable State.reset .u16 = true ∧ (Operand.lit 0xFFFF).readable State.reset .u16 = true := by
  decide

theorem witness_CompareResult :
    State.reset.inputs = [] ∧ (Operand.lit 0x80000000).readable State.reset .rat = true ∧
      (0x03FC : Addr).toNat + Ty.rat.width hw ≤ State.reset.cfg.memCap := by decide

theorem witness_CallPushes :
    ({ State.reset with sp := 19 } : State).storesCanonical ∧ ({ State.reset with sp := 20 } : State).storesCanonical ∧
      State.reset.inputs = [] ∧ (Operand.lit 0x0100).readable State.reset .u16 = true ∧
      19 < State.reset.cfg.stackDepth ∧ State.reset.cfg.stackDepth = 20 :=
  ⟨⟨rfl, rfl, rfl, by decide⟩, ⟨rfl, rfl, rfl, by decide⟩, rfl, rfl, by decide, rfl⟩

theorem witness_ReturnPops :
    ({ State.reset with sp := 20 } : State).sp = 19 + 1 ∧ State.reset.stack[19]? = some 0 ∧
      ({ State.reset with sp := 1 } : State).sp = 0 + 1 ∧ State.reset.stack[0]? = some 0 ∧ State.reset.sp = 0 := by
  decide

theorem witness_CallReturnPair :
    ∃ (s t u : State), s.storesCanonical ∧ s.inputs = [] ∧ (Operand.lit 0x0100).readable s .u16 = true ∧
      s.sp < s.cfg.stackDepth ∧ exec (.call ⟨0, .literal, .u32, .literal⟩ (.lit 0x0100)) s = .next t ∧
      u.sp = t.sp ∧ u.stack = t.stack :=
  ⟨{ State.reset with sp := 19 }, _, _, ⟨rfl, rfl, rfl, by decide⟩, rfl, rfl, by decide, rfl, rfl, rfl⟩

/-- TimeResult and CompareTimeResult at the last cell. -/
theorem witness_TimeResult :
    State.reset.inputs = [] ∧ (0x03FC : Addr).toNat + 4 = State.reset.cfg.memCap := by decide

/-- UrlmapResult and UrlmapDeleteResult: the last slot of 16, and the first id past a table of 2. -/
theorem witness_UrlmapResult :
    State.reset.inputs = [] ∧ (15 : BitVec 4).toNat + 1 = State.reset.cfg.mapSlots ∧
      small.inputs = [] ∧ small.cfg.mapSlots = (2 : BitVec 4).toNat := by decide

/-- The slot that UrlmapCheckResult unmaps, with the destination the last byte. -/
theorem witness_UrlmapCheckResult :
    ∃ s : State, s.inputs = [] ∧ (0x03FF : Addr).toNat + 1 = s.cfg.memCap ∧ (15 : SlotId).val = (15 : BitVec 4).toNat ∧
      15 < s.cfg.mapSlots ∧ s.map[15].active s.cfg = true ∧ s.map[15].status = 0x01 ∧ s.map[15].options.getLsbD 0 = true :=
  ⟨{ State.reset with map := State.reset.map.set 15 { slotOnce with status := 0x01 } },
    rfl, by decide, by decide, by decide, by decide, by decide, by decide⟩

/-- The first id past a table of 2, with the destination the last byte of 8. -/
theorem witness_UrlmapCheckResult_unavailable :
    small.inputs = [] ∧ (7 : Addr).toNat < small.cfg.memCap ∧ (2 : SlotId).val = (2 : BitVec 4).toNat ∧
      small.cfg.mapSlots = 2 := by decide

theorem witness_PidInitResult :
    State.reset.quiet ∧ (3 : BitVec 4).toNat = (3 : PidId).val ∧ (3 : PidId).val + 1 = State.reset.cfg.nPid ∧
      (Operand.addr 0x03FC).readable State.reset .rat = true ∧
      State.reset.pid[3].initialized = false ∧ (0x03FC : Addr).toNat + 4 = State.reset.cfg.memCap :=
  ⟨quiet_reset, by decide, by decide, by decide, by decide, by decide⟩

theorem witness_PidInitFaults_initialized :
    steadyState.quiet ∧ (0 : BitVec 4).toNat = (0 : PidId).val ∧ (0 : PidId).val < steadyState.cfg.nPid ∧
      (Operand.lit 0).readable steadyState .rat = true ∧
      steadyState.pid[0].initialized = true := ⟨⟨rfl, rfl, rfl⟩, rfl, by decide, rfl, rfl⟩

theorem witness_PidInitFaults_bound :
    steadyState.quiet ∧ (3 : BitVec 4).toNat = (3 : PidId).val ∧ (3 : PidId).val < steadyState.cfg.nPid ∧
      (Operand.lit 0).readable steadyState .rat = true ∧ steadyState.pid[3].initialized = false ∧
      steadyState.cfg.memCap + 1 = (0x03FD : Addr).toNat + 4 :=
  ⟨⟨rfl, rfl, rfl⟩, rfl, by decide, rfl, rfl, by decide⟩

theorem witness_PidIdUnavailable_first :
    (start 0xFFFE [0x18, 0x40] []).engineNext = true ∧ (start 0xFFFE [0x18, 0x40] []).halted = false ∧
      (start 0xFFFE [0x18, 0x40] []).pc.toNat + 2 = State.reset.cfg.progCap ∧
      0x18 ≤ ((start 0xFFFE [0x18, 0x40] []).prog.read 0xFFFE).toNat ∧
      ((start 0xFFFE [0x18, 0x40] []).prog.read 0xFFFE).toNat ≤ 0x1B ∧
      State.reset.cfg.nPid ≤ (((start 0xFFFE [0x18, 0x40] []).prog.read 0xFFFF).extractLsb' 4 4).toNat := by decide

theorem witness_PidIdUnavailable_last :
    (start 0 [0x1B, 0xF0] []).engineNext = true ∧ (start 0 [0x1B, 0xF0] []).halted = false ∧
      0x18 ≤ ((start 0 [0x1B, 0xF0] []).prog.read 0).toNat ∧ ((start 0 [0x1B, 0xF0] []).prog.read 0).toNat ≤ 0x1B ∧
      State.reset.cfg.nPid ≤ (((start 0 [0x1B, 0xF0] []).prog.read 1).extractLsb' 4 4).toNat := by decide

theorem witness_PidClearStopResult : State.reset.quiet ∧ (3 : BitVec 4).toNat + 1 = State.reset.cfg.nPid :=
  ⟨quiet_reset, by decide⟩

theorem witness_PidRunResult_seeds :
    steadyState.quiet ∧ steadyState.bankSound ∧ (0 : BitVec 4).toNat = (0 : PidId).val ∧
      (0 : PidId).val < steadyState.cfg.nPid ∧
      steadyState.pid[0].initialized = true ∧ steadyState.pid[0].mode = .manual :=
  ⟨⟨rfl, rfl, rfl⟩, bankSound_setup, rfl, by decide, rfl, rfl⟩

theorem witness_PidRunResult_plain :
    steadyState.quiet ∧ steadyState.bankSound ∧ (3 : BitVec 4).toNat = (3 : PidId).val ∧
      (3 : PidId).val < steadyState.cfg.nPid ∧
      ¬ (steadyState.pid[3].initialized = true ∧ steadyState.pid[3].mode = .manual) :=
  ⟨⟨rfl, rfl, rfl⟩, bankSound_setup, rfl, by decide, by decide⟩

/-- A controller whose bound slot is cleanly done and whose sample period has just passed. -/
def computing : State :=
  { steadyState with
    seq := .mapGate 3
    map := State.reset.map.set 2 { slotOnce with status := 0x01 }
    pid := State.reset.pid.set 3 { pidManual with mode := .automatic, mapId := some 2 }
    inputs := List.replicate 5 (.agent .sequencer) }

theorem witness_ComputeWritesOutput :
    computing.bankSound ∧ computing.seq = .mapGate 3 ∧ computing.hostPending = none ∧
      computing.inputs = List.replicate 5 (.agent .sequencer) ∧ computing.pid[3].initialized = true ∧
      computing.pid[3].mode = .automatic ∧
      (∀ k : SlotId, computing.pid[3].mapId = some k →
        computing.map[k].active computing.cfg = false ∨ computing.map[k].status = 0 ∨ computing.map[k].status = 1) ∧
      computing.pid[3].sampleMs.toNat * 1000 = (computing.timeBase - computing.pid[3].lastTime).toNat :=
  ⟨by unfold State.bankSound Pid.sound; decide, rfl, rfl, rfl, rfl, rfl, by decide, by decide⟩

theorem witness_ComputeGated_notComputing :
    ∃ s : State, s.hostPending = none ∧ s.inputs = [.agent .sequencer] ∧ s.seq = .mapGate 3 ∧
      s.pid[3].initialized = false :=
  ⟨{ State.reset with seq := .mapGate 3, inputs := [.agent .sequencer] }, rfl, rfl, rfl, rfl⟩

theorem witness_ComputeGated_manual :
    ∃ s : State, s.hostPending = none ∧ s.inputs = [.agent .sequencer] ∧ s.seq = .mapGate 0 ∧
      s.pid[0].initialized = true ∧ s.pid[0].mode = .manual :=
  ⟨{ steadyState with seq := .mapGate 0, inputs := [.agent .sequencer] }, rfl, rfl, rfl, rfl, rfl⟩

theorem witness_ComputeGated_mapError :
    ∃ s : State, s.hostPending = none ∧ s.inputs = [.agent .sequencer] ∧ s.seq = .mapGate 3 ∧
      s.pid[3].mapId = some 2 ∧ s.map[2].active s.cfg = true ∧ s.map[2].status &&& 0x7E ≠ 0 :=
  ⟨{ computing with
      inputs := [.agent .sequencer]
      map := State.reset.map.set 2 { slotOnce with status := 0x02 } }, rfl, rfl, rfl, by decide, by decide, by decide⟩

/-- The sweep goes on after controller 2 and ends after controller 3. -/
theorem witness_ComputeGated_next :
    (3 : PidId).val = (2 : PidId).val + 1 ∧ (3 : PidId).val < State.reset.cfg.nPid ∧
      State.reset.cfg.nPid ≤ (3 : PidId).val + 1 := by decide

theorem witness_ComputeGated_time :
    ∃ s : State, s.hostPending = none ∧ s.inputs = [.agent .sequencer] ∧ s.seq = .timeGate 3 ∧
      (s.timeBase - s.pid[3].lastTime).toNat + 1 = s.pid[3].sampleMs.toNat * 1000 :=
  ⟨{ computing with inputs := [.agent .sequencer], seq := .timeGate 3, timeBase := 999999 }, rfl, rfl, rfl, by decide⟩

theorem witness_AntiWindup_compute :
    ∃ s t : State, s.inputs = .agent .sequencer :: [] ∧ s.seq = .readSetpoint 3 1000000 0x140000 ∧
      s.pid[3].spAddr.toNat + 4 ≤ State.reset.cfg.memCap ∧ step s = .next t ∧ s.pid[3].outMin.toInt < s.pid[3].outMax.toInt :=
  ⟨{ computing with inputs := [.agent .sequencer], seq := .readSetpoint 3 1000000 0x140000 },
    _, rfl, rfl, by decide, rfl, by decide⟩

theorem witness_AntiWindup_seeding :
    ∃ t, steadyState.quiet ∧ steadyState.bankSound ∧ (0 : BitVec 4).toNat = (0 : PidId).val ∧
      (0 : PidId).val < steadyState.cfg.nPid ∧
      steadyState.pid[0].initialized = true ∧ steadyState.pid[0].mode = .manual ∧
      exec (.pidRun ⟨0, .literal, .u32, .literal⟩) steadyState = .next t :=
  ⟨_, ⟨rfl, rfl, rfl⟩, bankSound_setup, rfl, by decide, rfl, rfl, rfl⟩

theorem witness_AntiWindup_limits :
    ∃ s t : State, s.seq = .idle ∧ s.hostPending = none ∧ s.bankSound ∧ 3 < s.cfg.nPid ∧ s.pid[3].initialized = true ∧
      s.pid[3].mode = .automatic ∧ (0 : Word).toInt < (1 : Word).toInt ∧
      s.inputs = [.agent (.host (.setOutputLimits 3 0 1)), .agent .hostFinish] ∧
      Host.Core.run Sys2Proof.core 2 s = .next t :=
  ⟨{ computing with seq := .idle, inputs := [.agent (.host (.setOutputLimits 3 0 1)), .agent .hostFinish] },
    _, rfl, rfl, by unfold State.bankSound Pid.sound; decide, by decide, rfl, rfl, by decide, rfl, rfl⟩

theorem witness_BumplessStart :
    ∃ t, steadyState.cfg.legal ∧ steadyState.quiet ∧ steadyState.bankSound ∧ steadyState.storesCanonical ∧
      (0 : BitVec 4).toNat = (0 : PidId).val ∧ (0 : PidId).val < steadyState.cfg.nPid ∧
      steadyState.pid[0].initialized = true ∧
      steadyState.pid[0].mode = .manual ∧
      (∀ k : SlotId, steadyState.pid[0].mapId = some k →
        steadyState.map[k].active steadyState.cfg = false ∨ steadyState.map[k].status = 0 ∨ steadyState.map[k].status = 1) ∧
      steadyState.pid[0].sampleMs.toNat * 1000 ≤ (steadyState.timeBase - steadyState.pid[0].lastTime).toNat ∧
      steadyState.rawAt .rat steadyState.pid[0].spAddr.toNat = steadyState.rawAt .rat steadyState.pid[0].inAddr.toNat ∧
      steadyState.pid[0].outMin.toInt ≤ signedValue .rat (steadyState.rawAt .rat steadyState.pid[0].outAddr.toNat) ∧
      signedValue .rat (steadyState.rawAt .rat steadyState.pid[0].outAddr.toNat) ≤ steadyState.pid[0].outMax.toInt ∧
      exec (.pidRun ⟨0, .literal, .u32, .literal⟩) steadyState = .next t :=
  ⟨_, legal_hw, ⟨rfl, rfl, rfl⟩, bankSound_setup, ⟨by decide, by decide, rfl, by decide⟩, rfl, by decide, rfl, rfl,
    by decide, by decide, by decide, by decide, by decide, rfl⟩

theorem witness_BankConfiguration_limits :
    ∃ s : State, s.seq = .idle ∧ s.hostPending = none ∧ 3 < s.cfg.nPid ∧
      s.inputs = .agent (.host (.setOutputLimits 3 5 6)) :: [] ∧ (5 : Word).toInt < (6 : Word).toInt ∧
      s.pid[3].initialized = false :=
  ⟨{ State.reset with inputs := [.agent (.host (.setOutputLimits 3 5 6))] }, rfl, rfl, by decide, rfl, by decide, rfl⟩

theorem witness_BankConfiguration_improper :
    ∃ s : State, s.seq = .idle ∧ s.hostPending = none ∧ 3 < s.cfg.nPid ∧
      s.inputs = .agent (.host (.setOutputLimits 3 5 5)) :: [] ∧ (5 : Word).toInt ≤ (5 : Word).toInt :=
  ⟨{ State.reset with inputs := [.agent (.host (.setOutputLimits 3 5 5))] }, rfl, rfl, by decide, rfl, by decide⟩

/-- A computing controller whose output cell lies above the new limits, and one whose cell lies within them. -/
theorem witness_BankConfiguration_computing :
    ∃ s : State, s.seq = .idle ∧ s.hostPending = none ∧ 3 < s.cfg.nPid ∧ s.bankSound ∧
      (0 : Word).toInt < (1 : Word).toInt ∧ s.pid[3].initialized = true ∧ s.pid[3].mode = .automatic ∧
      s.inputs = [.agent (.host (.setOutputLimits 3 0 1)), .agent .hostFinish] ∧
      (1 : Word).toInt < signedValue .rat (s.rawAt .rat s.pid[3].outAddr.toNat) :=
  ⟨{ computing with seq := .idle, inputs := [.agent (.host (.setOutputLimits 3 0 1)), .agent .hostFinish] },
    rfl, rfl, by decide, by unfold State.bankSound Pid.sound; decide, by decide, rfl, rfl, rfl, by decide⟩

/-- New limits that the output cell lies within. -/
theorem witness_BankConfiguration_within :
    (0 : Word).toInt ≤ signedValue .rat (computing.rawAt .rat computing.pid[3].outAddr.toNat) ∧
      signedValue .rat (computing.rawAt .rat computing.pid[3].outAddr.toNat) ≤ (0x640000 : Word).toInt := by decide

theorem witness_BankConfiguration_direction :
    ∃ s : State, s.seq = .idle ∧ s.hostPending = none ∧ 3 < s.cfg.nPid ∧
      s.inputs = .agent (.host (.setControllerDirection 3 .reverse)) :: [] ∧
      (s.pid[3].initialized = true ∧ s.pid[3].mode = .automatic ∧ Direction.reverse ≠ s.pid[3].direction) :=
  ⟨{ computing with seq := .idle, inputs := [.agent (.host (.setControllerDirection 3 .reverse))] },
    rfl, rfl, by decide, rfl, rfl, rfl, by decide⟩

theorem witness_ResetInstructionResult : steadyState.quiet := ⟨rfl, rfl, rfl⟩

end Sys2Proof.Tests
end

