-- ==== Sys2Proof/Proofs/MappingReports.lean ====
section
/-! PROOF. The network actor's reports `mapDone` and `mapError` (20_memory.md R96, R97; 60_exceptions.md R417). All
three reports of O22 are `mapError` with some code, so its effect is described once, for every code. -/

namespace Sys2Proof.Machine

/-! ### The reports on the mapping table -/

/-- `mapDone` is a `mapError` without error bits (R96, R97). -/
theorem mapDone_eq_mapError (j : SlotId) (s : State) : mapDone j s = mapError j 0 s := by
  simp [mapDone, mapError]

theorem mapError_frame (j : SlotId) (code : Byte) (s : State) :
    mapError j code s = { s with map := (mapError j code s).map } := by
  unfold mapError
  split <;> rfl

theorem mapError_get (j k : SlotId) (code : Byte) (s : State) :
    (mapError j code s).map[k] =
      if k = j ∧ s.map[k].active s.cfg = true then
        { s.map[k] with status := s.map[k].status ||| (code &&& Config.errMask) ||| Config.statusDone }
      else s.map[k] := by
  unfold mapError
  split
  next ha =>
    rw [setSlot_get]
    by_cases hk : k = j
    · subst hk
      rw [if_pos rfl, if_pos ⟨rfl, ha⟩]
    · rw [if_neg hk, if_neg fun h => hk h.1]
  next ha =>
    have hnot : ¬ (k = j ∧ s.map[k].active s.cfg = true) := by
      rintro ⟨rfl, hactive⟩
      exact ha hactive
    rw [if_neg hnot]

/-! ### The reports through the network port -/

theorem netBegin_mapDone (id : Nat) (s : State) : netBegin (.mapDone id) s = netBegin (.mapError id 0) s := by
  simp only [netBegin, mapDone_eq_mapError]

theorem netBegin_mapError_of_some {id : Nat} {s : State} {j : SlotId} (h : slotOf id s = some j) (code : Byte) :
    netBegin (.mapError id code) s = mapError j code s := by
  simp only [netBegin, h]

theorem netBegin_mapError_of_none {id : Nat} {s : State} (h : slotOf id s = none) (code : Byte) :
    netBegin (.mapError id code) s = s := by
  simp only [netBegin, h]

theorem netBegin_mapError_frame (id : Nat) (code : Byte) (s : State) :
    netBegin (.mapError id code) s = { s with map := (netBegin (.mapError id code) s).map } := by
  cases h : slotOf id s with
  | none => rw [netBegin_mapError_of_none h]
  | some j =>
    rw [netBegin_mapError_of_some h]
    exact mapError_frame j code s

theorem netBegin_mapError_get (id : Nat) (code : Byte) (k : SlotId) (s : State) :
    (netBegin (.mapError id code) s).map[k] =
      if k.val = id ∧ id < s.cfg.mapSlots ∧ s.map[k].active s.cfg = true then
        { s.map[k] with status := s.map[k].status ||| (code &&& Config.errMask) ||| Config.statusDone }
      else s.map[k] := by
  cases h : slotOf id s with
  | none =>
    have hout : ¬ (k.val = id ∧ id < s.cfg.mapSlots) := by simp [← slotOf_eq_some, h]
    rw [netBegin_mapError_of_none h, if_neg fun hk => hout ⟨hk.1, hk.2.1⟩]
  | some j =>
    obtain ⟨rfl, hlt⟩ := slotOf_eq_some.mp h
    rw [netBegin_mapError_of_some h, mapError_get]
    simp only [Fin.ext_iff, hlt, true_and]

theorem netFinish_of_none {s : State} (h : s.netPending = none) : netFinish s = s := by
  unfold netFinish
  rw [h]

/-- With no access of the actor's own pending, a network operation that stands first in the schedule is the whole
transition (R417; log 13). -/
theorem step_net {s t : State} {op : NetOp} {rest : List Input} (hp : s.netPending = none)
    (hi : s.inputs = .agent (.net op) :: rest) (h : step s = .next t) :
    t = netBegin op { s with inputs := rest } := by
  have hstep : step s = .next (netAct op { s with inputs := rest }) := by
    unfold step
    rw [hi]
    rfl
  rw [hstep, netAct, netFinish_of_none (by exact hp)] at h
  injection h with h
  exact h.symm

/-- The whole effect of a `netBegin` of `mapError` behind a schedule entry that is used up. -/
theorem mapError_result {s t : State} {id : Nat} {code : Byte} {rest : List Input}
    (h : t = netBegin (.mapError id code) { s with inputs := rest }) :
    t = { s with inputs := rest, map := t.map } ∧
      ∀ k : SlotId, t.map[k] =
        if k.val = id ∧ id < s.cfg.mapSlots ∧ s.map[k].active s.cfg = true then
          { s.map[k] with status := s.map[k].status ||| (code &&& Config.errMask) ||| Config.statusDone }
        else s.map[k] := by
  subst h
  exact ⟨netBegin_mapError_frame id code _, fun k => netBegin_mapError_get id code k _⟩

/-- `ERR_404` is a subset of the error mask (R8). -/
theorem err404_and_errMask {c : Config.Params} (h : c.legal) : c.err404 &&& Config.errMask = c.err404 := by
  obtain ⟨_, _, _, _, _, _, _, _, _, _, hmask⟩ := h
  exact hmask

/-- Settles O22: each report is a `mapError`, `mapDone` with code 0 and "not found" with a code that the mask keeps
whole. -/
theorem mappingReports : Obligations.MappingReports := by
  unfold Obligations.MappingReports
  intro s t id code rest hp
  refine ⟨fun hi h => ?done, fun hi h => ?error, fun hc hi h => ?notFound⟩
  case done =>
    have ht := step_net hp hi h
    rw [netBegin_mapDone] at ht
    simpa using mapError_result ht
  case error => exact mapError_result (step_net hp hi h)
  case notFound =>
    have ht := mapError_result (step_net hp hi h)
    rwa [err404_and_errMask hc] at ht

end Sys2Proof.Machine
end

