-- ==== Sys2Proof/Proofs/CutShortInstruction.lean ====
section
/-! PROOF. The steps whose bytes are no whole instruction: a reserved opcode (30_encoding.md R149), and an instruction
that would run past the program store (R153, R400). The encoding delimits itself: `Reads` says of a reader that it
reads a field from exactly the field's bytes and answers nothing on a proper initial part of them. It passes from the
fields to the layouts, and so to every instruction but MULTILOAD, which runs its whole elements first (R271; log 16). -/

namespace Sys2Proof

/-! ### Readers of a code that delimits itself -/

/-- The reader `take` reads the value `a` from exactly the bytes `e`: whatever follows them, and nothing at all where
the stream ends inside them. -/
structure Reads {α : Type} (take : List Byte → Option (α × List Byte)) (e : List Byte) (a : α) : Prop where
  whole : ∀ rest, take (e ++ rest) = some (a, rest)
  cut : ∀ p missing, p ++ missing = e → missing ≠ [] → take p = none

section
variable {α β : Type} {take : List Byte → Option (α × List Byte)} {e e' : List Byte} {a : α} {b : β}
  {f : α × List Byte → Option (β × List Byte)}

/-- A reader that answers nothing on a stream shorter than the field. -/
theorem Reads.of_length (whole : ∀ rest, take (e ++ rest) = some (a, rest))
    (short : ∀ bs, bs.length < e.length → take bs = none) : Reads take e a where
  whole := whole
  cut p missing hp hm := by
    apply short
    have := List.length_pos_iff.mpr hm
    rw [← hp, List.length_append]
    omega

/-- In a stream that ends somewhere in a field and what is to follow it, the field is not read, or it is read and the
stream ends in what follows. -/
theorem Reads.split (h : Reads take e a) {p missing : List Byte} (hp : p ++ missing = e ++ e') :
    take p = none ∨ ∃ q, q ++ missing = e' ∧ take p = some (a, q) := by
  rcases List.append_eq_append_iff.mp hp with ⟨l, rfl, rfl⟩ | ⟨q, rfl, rfl⟩
  · by_cases hl : l = []
    · subst hl
      exact .inr ⟨[], rfl, by simpa using h.whole []⟩
    · exact .inl (h.cut p l rfl hl)
  · exact .inr ⟨q, rfl, h.whole q⟩

/-- A field followed by the rest of a layout. -/
theorem Reads.bind (h : Reads take e a) (hf : Reads (fun bs => f (a, bs)) e' b) :
    Reads (fun bs => take bs >>= f) (e ++ e') b where
  whole rest := by
    rw [List.append_assoc, h.whole]
    exact hf.whole rest
  cut p missing hp hm := by
    rcases h.split hp with hn | ⟨q, hq, hs⟩
    · rw [hn]; rfl
    · rw [hs]; exact hf.cut q missing hq hm

/-- The last field of a layout. -/
theorem Reads.last (h : Reads take e a) (hf : ∀ bs, f (a, bs) = some (b, bs)) :
    Reads (fun bs => take bs >>= f) e b where
  whole rest := by rw [h.whole]; exact hf rest
  cut p missing hp hm := by rw [h.cut p missing hp hm]; rfl

/-- A layout without fields. -/
theorem Reads.nothing : Reads (fun bs => some (a, bs)) [] a where
  whole _ := rfl
  cut _ _ hp hm := absurd (List.append_eq_nil_iff.mp hp).2 hm

theorem Reads.of_pos {c : Prop} [Decidable c] {other : List Byte → Option (α × List Byte)} (hc : c)
    (h : Reads take e a) : Reads (fun bs => if c then take bs else other bs) e a := by
  simpa only [if_pos hc] using h

theorem Reads.of_neg {c : Prop} [Decidable c] {other : List Byte → Option (α × List Byte)} (hc : ¬ c)
    (h : Reads take e a) : Reads (fun bs => if c then other bs else take bs) e a := by
  simpa only [if_neg hc] using h

end

/-! ### The fields (R142 to R147) -/

theorem reads_takeLE {n v : Nat} (hv : v < 256 ^ n) : Reads (takeLE n) (leBytes n v) v :=
  .of_length (fun rest => by rw [takeLE_leBytes, Nat.mod_eq_of_lt hv])
    fun _ hbs => takeLE_eq_none.mpr (by simpa using hbs)

theorem reads_takeByte (x : Byte) : Reads takeByte [x] x :=
  .of_length (takeByte_cons x) fun bs hbs => by
    have hnone : takeLE 1 bs = none := takeLE_eq_none.mpr hbs
    rw [takeByte, hnone, Option.map_none]

theorem reads_takeOptype (ot : Optype) : Reads takeOptype [ot.toByte] ot :=
  .of_length (takeOptype_cons ot) fun bs hbs => by
    have hnone : takeLE 1 bs = none := takeLE_eq_none.mpr hbs
    rw [takeOptype, takeByte, hnone, Option.map_none, Option.map_none]

theorem reads_takeAddr (x : Addr) : Reads takeAddr (encodeAddr x) x :=
  .of_length (takeAddr_encodeAddr x) fun bs hbs => by
    have hnone : takeLE 2 bs = none := takeLE_eq_none.mpr (by simpa using hbs)
    rw [takeAddr, hnone, Option.map_none]

/-- An operand of its MODE has the bytes that the optype promises (R148). -/
theorem operand_length_of_wf {c : Config.Params} {t : Ty} {m : Mode} {o : Operand} (h : o.wf c t m = true) :
    o.length c t = operandWidth c t m := by
  cases o with
  | lit raw =>
    obtain ⟨rfl, -⟩ : m = .literal ∧ raw.toNat < 256 ^ t.width c := by simpa [Operand.wf] using h
    rfl
  | addr ptr =>
    obtain rfl : m = .address := by simpa [Operand.wf] using h
    rfl

theorem reads_takeOperand {c : Config.Params} {t : Ty} {m : Mode} {o : Operand} (h : o.wf c t m = true) :
    Reads (takeOperand c t m) (o.encode c t) o :=
  .of_length (takeOperand_encode h) fun bs hbs => by
    rw [Laws.operand_encode_length, operand_length_of_wf h] at hbs
    exact takeOperand_eq_none.mpr hbs

/-- An inline string is not read before its NUL. -/
theorem takeString_eq_none {bytes : List Byte} (h : (0 : Byte) ∉ bytes) : takeString bytes = none := by
  induction bytes with
  | nil => rfl
  | cons x bytes ih =>
    have hx : x ≠ 0 := fun hx => h (hx ▸ List.mem_cons_self)
    rw [takeString, if_neg hx, ih fun hb => h (List.mem_cons_of_mem x hb), Option.map_none]

theorem reads_takeString {bytes : List Byte} (h : bytes.all (· != 0) = true) :
    Reads takeString (bytes ++ [0]) bytes where
  whole rest := by simpa using takeString_append h rest
  cut p missing hp hm := by
    have hinit : p <+: bytes := by
      obtain ⟨init, x, rfl⟩ := List.eq_nil_or_concat missing |>.resolve_left hm
      rw [List.concat_eq_append, ← List.append_assoc] at hp
      exact ⟨init, (List.append_inj' hp rfl).1⟩
    refine takeString_eq_none fun h0 => ?_
    simpa using List.all_eq_true.mp h 0 (hinit.subset h0)

theorem reads_takeStrField {m : Mode} {s : StrField} (h : s.wf m = true) : Reads (takeStrField m) s.encode s where
  whole := takeStrField_encode h
  cut p missing hp hm := by
    cases s with
    | inline bytes =>
      obtain ⟨rfl, hb⟩ : m = .literal ∧ bytes.all (· != 0) = true := by
        simpa only [StrField.wf, Bool.and_eq_true, beq_iff_eq] using h
      rw [takeStrField, (reads_takeString hb).cut p missing hp hm, Option.map_none]
    | addr x =>
      obtain rfl : m = .address := by simpa [StrField.wf] using h
      rw [takeStrField, (reads_takeAddr x).cut p missing hp hm, Option.map_none]

/-! ### The layouts (R147) -/

section
variable {c : Config.Params} {ot : Optype}

/-- Every layout begins with the optype byte. -/
theorem reads_optype_bind {α : Type} {e : List Byte} {i : α} {f : Optype × List Byte → Option (α × List Byte)}
    (h : Reads (fun bs => f (ot, bs)) e i) : Reads (fun bs => takeOptype bs >>= f) (ot.toByte :: e) i :=
  (reads_takeOptype ot).bind h

theorem reads_takeOt (mk : Optype → Instr) : Reads (takeOt mk) [ot.toByte] (mk ot) :=
  reads_optype_bind .nothing

theorem reads_takeOtDst (mk : Optype → Addr → Instr) (dst : Addr) :
    Reads (takeOtDst mk) (ot.toByte :: encodeAddr dst) (mk ot dst) :=
  reads_optype_bind ((reads_takeAddr dst).last fun _ => rfl)

theorem reads_takeOtDstSrc (mk : Optype → Addr → Operand → Instr) (dst : Addr) {src : Operand}
    (h : src.wf c ot.ty ot.mode = true) : Reads (takeOtDstSrc c mk) (encodeDstSrc c ot dst src) (mk ot dst src) :=
  reads_optype_bind ((reads_takeAddr dst).bind ((reads_takeOperand h).last fun _ => rfl))

theorem reads_takeBitwise (mk : Optype → Addr → Operand → Instr) {dst : Addr} {src : Operand}
    (h : bitwiseFieldsWf c ot dst src = true) :
    Reads (takeBitwise c mk) (encodeBitwise c ot dst src) (mk ot dst src) := by
  unfold bitwiseFieldsWf at h
  unfold encodeBitwise
  by_cases hty : ot.ty = .rat
  · obtain ⟨rfl, rfl⟩ : dst = 0 ∧ src = .lit 0 := by simpa [hty] using h
    rw [if_pos hty]
    exact reads_optype_bind (.of_pos hty .nothing)
  · rw [if_neg hty] at h ⊢
    exact reads_optype_bind (.of_neg hty ((reads_takeAddr dst).bind ((reads_takeOperand h).last fun _ => rfl)))

theorem reads_takeNot {dst : Addr} (h : (Instr.bitNot ot dst).wf c = true) :
    Reads takeNot (if ot.ty = .rat then [ot.toByte] else ot.toByte :: encodeAddr dst) (.bitNot ot dst) := by
  by_cases hty : ot.ty = .rat
  · obtain rfl : dst = 0 := by simpa [Instr.wf, hty] using h
    rw [if_pos hty]
    exact reads_optype_bind (.of_pos hty .nothing)
  · rw [if_neg hty]
    exact reads_optype_bind (.of_neg hty ((reads_takeAddr dst).last fun _ => rfl))

theorem reads_takeCopy (src : Addr) (len : BitVec 16) (dst : Addr) :
    Reads takeCopy ((Instr.copy ot src len dst).encodeBody c) (.copy ot src len dst) := by
  simp only [Instr.encodeBody, List.append_assoc]
  exact reads_optype_bind ((reads_takeAddr src).bind ((reads_takeAddr len).bind
    ((reads_takeAddr dst).last fun _ => rfl)))

theorem reads_takeTarget (mk : Optype → Operand → Instr) {target : Operand} (h : target.wf c .u16 ot.mode = true) :
    Reads (takeTarget c mk) (ot.toByte :: target.encode c .u16) (mk ot target) :=
  reads_optype_bind ((reads_takeOperand h).last fun _ => rfl)

theorem reads_takeCompare (addr : Addr) {src : Operand} (tLess tEqual tGreater : Addr)
    (h : src.wf c ot.ty ot.mode = true) :
    Reads (takeCompare c) ((Instr.compare ot addr src tLess tEqual tGreater).encodeBody c)
      (.compare ot addr src tLess tEqual tGreater) := by
  simp only [Instr.encodeBody, List.append_assoc]
  exact reads_optype_bind ((reads_takeAddr addr).bind ((reads_takeOperand h).bind ((reads_takeAddr tLess).bind
    ((reads_takeAddr tEqual).bind ((reads_takeAddr tGreater).last fun _ => rfl)))))

theorem reads_takeCompareTime (addr : Addr) (timeout : Word) (tElapsed tNotElapsed : Addr) :
    Reads takeCompareTime ((Instr.compareTime ot addr timeout tElapsed tNotElapsed).encodeBody c)
      (.compareTime ot addr timeout tElapsed tNotElapsed) := by
  simp only [Instr.encodeBody, List.append_assoc]
  exact reads_optype_bind ((reads_takeAddr addr).bind ((reads_takeLE timeout.isLt).bind
    ((reads_takeAddr tElapsed).bind ((reads_takeAddr tNotElapsed).last fun _ => by simp))))

theorem reads_takeUrlmap (options : Byte) (value : Addr) (port : BitVec 16) {url resource : StrField}
    (hurl : url.wf ot.mode = true) (hres : resource.wf ot.mode2 = true) :
    Reads takeUrlmap ((Instr.urlmap ot options value port url resource).encodeBody c)
      (.urlmap ot options value port url resource) := by
  simp only [Instr.encodeBody, List.append_assoc]
  exact reads_optype_bind ((reads_takeByte options).bind ((reads_takeAddr value).bind ((reads_takeAddr port).bind
    ((reads_takeStrField hurl).bind ((reads_takeStrField hres).last fun _ => rfl)))))

theorem reads_takePidInitFields {m : Mode} {f : PidInitFields} (h : f.wf c m = true) :
    Reads (takePidInitFields c m) (f.encode c) f := by
  obtain ⟨⟨⟨⟨hkp, hki⟩, hkd⟩, hlo⟩, hhi⟩ : (((f.kp.wf c .rat m = true ∧ f.ki.wf c .rat m = true) ∧
      f.kd.wf c .rat m = true) ∧ f.lo.wf c .rat m = true) ∧ f.hi.wf c .rat m = true := by
    simpa only [PidInitFields.wf, Bool.and_eq_true] using h
  simp only [PidInitFields.encode, List.append_assoc]
  exact (reads_takeAddr f.inAddr).bind ((reads_takeAddr f.outAddr).bind ((reads_takeAddr f.spAddr).bind
    ((reads_takeOperand hkp).bind ((reads_takeOperand hki).bind ((reads_takeOperand hkd).bind
    ((reads_takeAddr f.sampleMs).bind ((reads_takeByte f.dir).bind ((reads_takeOperand hlo).bind
    ((reads_takeOperand hhi).last fun _ => rfl)))))))))

theorem reads_takePidInit {f : PidInitFields} (h : (Instr.pidInit ot f).wf c = true) :
    Reads (takePidInit c) (if ot.id.toNat < c.nPid then ot.toByte :: f.encode c else [ot.toByte])
      (.pidInit ot f) := by
  by_cases hid : ot.id.toNat < c.nPid
  · have hf : f.wf c ot.mode = true := by simpa [Instr.wf, hid] using h
    rw [if_pos hid]
    exact reads_optype_bind (.of_pos hid ((reads_takePidInitFields hf).last fun _ => rfl))
  · obtain rfl : f = .unfetched := by simpa [Instr.wf, hid] using h
    rw [if_neg hid]
    exact reads_optype_bind (.of_neg hid .nothing)

end

/-- Every instruction but MULTILOAD is read from exactly the bytes of its encoding. -/
theorem reads_takeBody {c : Config.Params} {i : Instr} (hwf : i.wf c = true) (hi : i.isMultiload = false) :
    Reads (takeBody c i.opcode) (i.encodeBody c) i := by
  cases i with
  | multiload => cases hi
  | halt => exact .nothing
  | ret => exact .nothing
  | reset => exact .nothing
  | add ot dst src => exact reads_takeOtDstSrc .add dst hwf
  | sub ot dst src => exact reads_takeOtDstSrc .sub dst hwf
  | mul ot dst src => exact reads_takeOtDstSrc .mul dst hwf
  | div ot dst src => exact reads_takeOtDstSrc .div dst hwf
  | mod ot dst src => exact reads_takeOtDstSrc .mod dst hwf
  | load ot dst src => exact reads_takeOtDstSrc .load dst hwf
  | bitAnd ot dst src => exact reads_takeBitwise .bitAnd hwf
  | bitOr ot dst src => exact reads_takeBitwise .bitOr hwf
  | bitXor ot dst src => exact reads_takeBitwise .bitXor hwf
  | lshift ot dst src => exact reads_takeBitwise .lshift hwf
  | rshift ot dst src => exact reads_takeBitwise .rshift hwf
  | bitNot ot dst => exact reads_takeNot hwf
  | copy ot src len dst => exact reads_takeCopy src len dst
  | jump ot target => exact reads_takeTarget .jump hwf
  | call ot target => exact reads_takeTarget .call hwf
  | compare ot addr src tLess tEqual tGreater => exact reads_takeCompare addr tLess tEqual tGreater hwf
  | time ot dst => exact reads_takeOtDst .time dst
  | urlmapCheck ot dst => exact reads_takeOtDst .urlmapCheck dst
  | compareTime ot addr timeout tElapsed tNotElapsed => exact reads_takeCompareTime addr timeout tElapsed tNotElapsed
  | urlmap ot options value port url resource =>
    obtain ⟨hurl, hres⟩ := Bool.and_eq_true_iff.mp hwf
    exact reads_takeUrlmap options value port hurl hres
  | urlmapDelete ot => exact reads_takeOt .urlmapDelete
  | pidInit ot f => exact reads_takePidInit hwf
  | pidClear ot => exact reads_takeOt .pidClear
  | pidStop ot => exact reads_takeOt .pidStop
  | pidRun ot => exact reads_takeOt .pidRun

/-! ### Decoding a proper initial part of an encoding (R153; log 16) -/

/-- From a proper initial part of the source fields fewer than all are read. -/
theorem takeOperands_cut {c : Config.Params} {t : Ty} {m : Mode} {os : List Operand}
    (h : os.all (·.wf c t m) = true) {p missing : List Byte}
    (hp : p ++ missing = os.flatMap (·.encode c t)) (hm : missing ≠ []) :
    ∃ whole, whole.length < os.length ∧ takeOperands c t m os.length p = (whole, []) := by
  induction os generalizing p with
  | nil => exact absurd (List.append_eq_nil_iff.mp hp).2 hm
  | cons o os ih =>
    obtain ⟨ho, hos⟩ : o.wf c t m = true ∧ os.all (·.wf c t m) = true := by
      simpa only [List.all_cons, Bool.and_eq_true] using h
    rw [List.flatMap_cons] at hp
    rcases (reads_takeOperand ho).split hp with hn | ⟨q, hq, hs⟩
    · exact ⟨[], Nat.succ_pos _, by simp only [List.length_cons, takeOperands, hn]⟩
    · obtain ⟨whole, hlt, hw⟩ := ih hos hq
      exact ⟨o :: whole, Nat.succ_lt_succ hlt, by simp only [List.length_cons, takeOperands, hs, hw]⟩

/-- A MULTILOAD that the stream cuts short is not read, or read with fewer source fields than its count. -/
theorem takeMultiload_cut {c : Config.Params} {ot : Optype} {dst : Addr} {count : Byte} {srcs : List Operand}
    (hwf : (Instr.multiload ot dst count srcs).wf c = true) {p missing : List Byte}
    (hp : p ++ missing = (Instr.multiload ot dst count srcs).encodeBody c) (hm : missing ≠ []) :
    takeMultiload c p = none ∨
      ∃ whole, whole.length < count.toNat ∧ takeMultiload c p = some (.multiload ot dst count whole, []) := by
  obtain ⟨hcount, hsrcs⟩ : srcs.length = count.toNat ∧ srcs.all (·.wf c ot.ty ot.mode) = true := by
    simpa only [Instr.wf, Bool.and_eq_true, beq_iff_eq] using hwf
  unfold takeMultiload
  rcases (reads_takeOptype ot).split hp with hn | ⟨p₁, hp₁, hot⟩
  · exact .inl (by rw [hn]; rfl)
  rw [hot]
  rcases (reads_takeAddr dst).split hp₁ with hn | ⟨p₂, hp₂, hdst⟩
  · exact .inl (by simp [hn])
  rcases (reads_takeByte count).split hp₂ with hn | ⟨p₃, hp₃, hct⟩
  · exact .inl (by simp [hdst, hn])
  obtain ⟨whole, hlt, hwhole⟩ := takeOperands_cut hsrcs hp₃ hm
  rw [hcount] at hlt hwhole
  exact .inr ⟨whole, hlt, by simp [hdst, hct, hwhole]⟩

theorem decode_of_takeBody_none {c : Config.Params} {o : Opcode} {bs : List Byte} (h : takeBody c o bs = none) :
    decode c (o.toByte :: bs) = .cutShort o.toByte := by
  simp only [decode, opcode_ofByte_toByte, h]

theorem decode_of_takeBody_some {c : Config.Params} {o : Opcode} {bs rest : List Byte} {i : Instr}
    (h : takeBody c o bs = some (i, rest)) : decode c (o.toByte :: bs) = .instr i rest := by
  simp only [decode, opcode_ofByte_toByte, h]

/-- A proper initial part of an encoding that holds the opcode byte is cut short, or the whole elements of a MULTILOAD
(log 16). -/
theorem decode_cut {c : Config.Params} {i : Instr} (hwf : i.wf c = true) {p missing : List Byte}
    (hp : p ++ missing = i.encodeBody c) (hm : missing ≠ []) :
    decode c (i.opcode.toByte :: p) = .cutShort i.opcode.toByte ∨
      ∃ ot dst count srcs whole, i = .multiload ot dst count srcs ∧ whole.length < count.toNat ∧
        decode c (i.opcode.toByte :: p) = .instr (.multiload ot dst count whole) [] := by
  cases hi : i.isMultiload with
  | false => exact .inl (decode_of_takeBody_none ((reads_takeBody hwf hi).cut p missing hp hm))
  | true =>
    cases i with
    | multiload ot dst count srcs =>
      rcases takeMultiload_cut hwf hp hm with hn | ⟨whole, hlt, hs⟩
      · exact .inl (decode_of_takeBody_none hn)
      · exact .inr ⟨ot, dst, count, srcs, whole, rfl, hlt, decode_of_takeBody_some hs⟩
    | _ => cases hi

end Sys2Proof

namespace Sys2Proof.Machine

/-! ### The source fields of MULTILOAD as far as they go (R271) -/

/-- A result that left the engine's own state of `s` alone, and that may have raised a memory access violation but no
other fault. -/
def Res.OnlyAccesses {α : Type} (s : State) : Res α → Prop
  | .done _ t => sameEngine s t
  | .raised e t => e = .memoryAccessViolation ∧ sameEngine s t

theorem Res.OnlyAccesses.bind {α β : Type} {s : State} {r : Res α} {f : α → State → Res β} (h : r.OnlyAccesses s)
    (hf : ∀ a t, sameEngine s t → (f a t).OnlyAccesses s) : (r.bind f).OnlyAccesses s := by
  cases r with
  | done a t => exact hf a t h
  | raised e t => exact h

theorem sameEngine_trans {s t u : State} (h : sameEngine s t) (h' : sameEngine t u) : sameEngine s u := by
  obtain ⟨hpc, hflags, hstatus, hsp, hstack, hprog, hcfg⟩ := h
  obtain ⟨hpc', hflags', hstatus', hsp', hstack', hprog', hcfg'⟩ := h'
  exact ⟨hpc'.trans hpc, hflags'.trans hflags, hstatus'.trans hstatus, hsp'.trans hsp, hstack'.trans hstack,
    hprog'.trans hprog, hcfg'.trans hcfg⟩

section
variable {s t : State} (h : sameEngine s t)
include h

theorem sameEngine_turn (held : Option PidId) : sameEngine s (turn held t) :=
  sameEngine_trans h (turn_sameEngine held t)

theorem loadTyped_onlyAccesses (held : Option PidId) (ty : Ty) (a : Nat) :
    (loadTyped held ty a t).OnlyAccesses s := by
  rw [loadTyped_eq]
  split
  · exact sameEngine_turn h held
  · exact ⟨rfl, sameEngine_turn h held⟩

theorem storeTyped_onlyAccesses (ty : Ty) (a : Nat) (v : Int) : (storeTyped ty a v t).OnlyAccesses s := by
  rw [storeTyped_eq]
  split
  · exact sameEngine_turn h none
  · exact ⟨rfl, sameEngine_turn h none⟩

theorem evalOperand_onlyAccesses (ty : Ty) (o : Operand) : (evalOperand ty o t).OnlyAccesses s := by
  cases o with
  | lit raw => exact h
  | addr ptr => exact loadTyped_onlyAccesses h none ty ptr.toNat

end

theorem loadElements_onlyAccesses (ty : Ty) {s t : State} (h : sameEngine s t) (a : Nat) (os : List Operand) :
    (loadElements ty a os t).OnlyAccesses s := by
  induction os generalizing a t with
  | nil => exact h
  | cons o os ih =>
    exact (evalOperand_onlyAccesses h ty o).bind fun v _ hu =>
      (storeTyped_onlyAccesses hu ty a v).bind fun _ _ hw => ih hw _

/-- A MULTILOAD with fewer source fields than its count faults, after the stores before the first one missing or by
one of these (R271; log 16). -/
theorem exec_multiload_cut {ot : Optype} {dst : Addr} {count : Byte} {whole : List Operand}
    (hlt : whole.length < count.toNat) (s : State) :
    ∃ u, sameEngine s u ∧
      exec (.multiload ot dst count whole) s = .next (haltWith .memoryAccessViolation s.pc u) := by
  have hload := loadElements_onlyAccesses ot.ty (sameEngine.refl s) dst.toNat whole
  simp only [exec, execMultiload]
  cases hr : loadElements ot.ty dst.toNat whole s with
  | done a u =>
    rw [hr] at hload
    exact ⟨u, hload, by simp only [Res.bind, if_pos hlt, concludeAfter_raised]⟩
  | raised e u =>
    rw [hr] at hload
    obtain ⟨rfl, hu⟩ := hload
    exact ⟨u, hu, concludeAfter_raised ..⟩

/-! ### A step by what the bytes at `pc` decode to (R400) -/

section
variable {s : State} (hnext : s.engineNext = true) (hrun : s.halted = false)
include hnext hrun

theorem step_eq_decode : step s =
    match decode s.cfg (programFrom s.pc s) with
    | .instr i _ => exec i ({ s with inputs := s.inputs.tail }.seed i.opcode.toByte)
    | .reserved op => rejectFetch .unsupportedOperation op { s with inputs := s.inputs.tail }
    | .cutShort op => rejectFetch .memoryAccessViolation op { s with inputs := s.inputs.tail }
    | .noOpcode => rejectFetch .memoryAccessViolation 0 { s with inputs := s.inputs.tail } := by
  rw [step_of_engineNext hnext]
  exact engineStep_running hrun

theorem step_of_reserved {op : Byte} (hd : decode s.cfg (programFrom s.pc s) = .reserved op) :
    step s = .next { s with
      inputs := s.inputs.tail, flags := s.flags ||| 0b011, status := s.pc ++ op ++ (6 : Byte) } := by
  rw [step_eq_decode hnext hrun, hd]
  exact rejectFetch_eq ..

theorem step_of_cutShort {op : Byte} (hd : decode s.cfg (programFrom s.pc s) = .cutShort op) :
    step s = .next { s with
      inputs := s.inputs.tail, flags := s.flags ||| 0b011, status := s.pc ++ op ++ (1 : Byte) } := by
  rw [step_eq_decode hnext hrun, hd]
  exact rejectFetch_eq ..

theorem step_of_noOpcode (hd : decode s.cfg (programFrom s.pc s) = .noOpcode) :
    step s = .next { s with
      inputs := s.inputs.tail, flags := s.flags ||| 0b011, status := s.pc ++ (0 : Byte) ++ (1 : Byte) } := by
  rw [step_eq_decode hnext hrun, hd]
  exact rejectFetch_eq ..

theorem step_of_multiload_cut {ot : Optype} {dst : Addr} {count : Byte} {whole : List Operand} {rest : List Byte}
    (hlt : whole.length < count.toNat)
    (hd : decode s.cfg (programFrom s.pc s) = .instr (.multiload ot dst count whole) rest) :
    ∃ t, step s = .next t ∧ t.pc = s.pc ∧ t.flags = s.flags ||| 0b011 ∧
      t.status = s.pc ++ Opcode.multiload.toByte ++ (1 : Byte) := by
  rw [step_eq_decode hnext hrun, hd]
  obtain ⟨u, ⟨-, hflags, hstatus, -⟩, hexec⟩ := exec_multiload_cut (ot := ot) (dst := dst) hlt
    ({ s with inputs := s.inputs.tail }.seed Opcode.multiload.toByte)
  refine ⟨_, hexec, rfl, ?_, ?_⟩
  · rw [haltWith_flags, hflags]; rfl
  · rw [haltWith_status, hstatus]; exact seed_or ..

end

/-- Settles O4: a byte from 0x1D up is no opcode, so the decoder answers before it looks at any byte after it. -/
theorem reservedOpcodeHalts : Obligations.ReservedOpcodeHalts := by
  unfold Obligations.ReservedOpcodeHalts
  intro s hnext hrun hpc hop
  refine step_of_reserved hnext hrun ?_
  rw [programFrom_cons hpc, decode, (opcode_ofByte_eq_none _).mpr hop]

/-- The first clause of O5, for the program bytes from `pc` as the decoder reads them. -/
theorem step_of_cut_encoding {s : State} {i : Instr} {missing : List Byte} (hnext : s.engineNext = true)
    (hrun : s.halted = false) (hwf : i.wf s.cfg = true) (hpc : s.pc.toNat < s.cfg.progCap)
    (henc : programFrom s.pc s ++ missing = encode s.cfg i) (hm : missing ≠ []) :
    ∃ t, step s = .next t ∧ t.pc = s.pc ∧ t.flags = s.flags ||| 0b011 ∧
      t.status = s.pc ++ i.opcode.toByte ++ (1 : Byte) ∧
      (i.isMultiload = false → t = { s with inputs := s.inputs.tail, flags := t.flags, status := t.status }) := by
  have hstream := programFrom_cons hpc
  rw [hstream] at henc
  obtain ⟨hop, hbody⟩ := List.cons.inj henc
  rw [hop] at hstream
  have hcut := decode_cut hwf hbody hm
  rw [← hstream] at hcut
  rcases hcut with hcut | ⟨ot, dst, count, srcs, whole, rfl, hlt, hd⟩
  · exact ⟨_, step_of_cutShort hnext hrun hcut, rfl, rfl, rfl, fun _ => rfl⟩
  · obtain ⟨t, hstep, htpc, htflags, htstatus⟩ := step_of_multiload_cut hnext hrun hlt hd
    exact ⟨t, hstep, htpc, htflags, htstatus, fun hi => nomatch hi⟩

/-- Settles O5: by `decode_cut`, no whole instruction is read from a proper initial part of its encoding. -/
theorem cutShortInstructionFaults : Obligations.CutShortInstructionFaults := by
  unfold Obligations.CutShortInstructionFaults
  intro s _ hnext hrun
  refine ⟨fun i missing hwf hpc henc hm => step_of_cut_encoding hnext hrun hwf hpc henc hm, fun hpast => ?_⟩
  refine step_of_noOpcode hnext hrun ?_
  rw [programFrom_past hpast, decode]

end Sys2Proof.Machine
end

