-- ==== Sys2Proof/Proofs/NumericResults.lean ====
section
/-! PROOF. What ADD, SUB, MUL, DIV and MOD store and where COMPARE goes (40_numeric.md R204 to R208; 41_arithmetic.md
R228 to R234). A stored value is the bit vector of the type's width that its integer stands for (`toRaw_eq_ofInt`), so
the wraps inside the arithmetic drop out, and what is left is arithmetic of bit vectors or of natural numbers. -/

namespace Sys2Proof.Machine

/-! ### Stored values as bit vectors (R84, R202) -/

theorem toRaw_eq_ofInt (t : Ty) (v : Int) : toRaw t v = (BitVec.ofInt (bits t) v).toNat := by
  simp [toRaw, wrap, BitVec.toNat_ofInt]

/-- The bits of a loaded value are those of its raw pattern, for the signed type too. -/
theorem ofInt_ofRaw (t : Ty) (raw : Nat) : BitVec.ofInt (bits t) (ofRaw t raw) = BitVec.ofNat (bits t) raw :=
  BitVec.eq_of_toNat_eq (by rw [← toRaw_eq_ofInt, toRaw_ofRaw, BitVec.toNat_ofNat])

theorem toRaw_natCast (t : Ty) (n : Nat) : toRaw t n = n % 2 ^ bits t := by
  rw [toRaw_eq_ofInt, BitVec.ofInt_natCast, BitVec.toNat_ofNat]

/-- The bytes stored for a number that is not negative are its low ones. -/
theorem toRaw_natCast_mod {t : Ty} (ht : t ≠ .rat) (c : Config.Params) (n : Nat) :
    toRaw t n % 256 ^ t.width c = n % 256 ^ t.width c := by
  rw [toRaw_natCast, bits_of_int ht c, pow8, Nat.mod_mod]

theorem toRaw_wrap (t : Ty) (v : Int) : toRaw t (wrap (bits t) v) = toRaw t v := by
  simp [toRaw, wrap]

theorem toRaw_rat_sext_wrap (v : Int) : toRaw .rat (sext32 (wrap 32 v)) = toRaw .rat v :=
  congrArg Int.toNat (wrap_sext v)

/-! ### The stored results, by type (R204 to R207, R230 to R234) -/

theorem toRaw_addResult (t : Ty) (d v : Int) : toRaw t (addResult t d v) = toRaw t (d + v) := by
  unfold addResult
  split
  next ht => subst ht; exact toRaw_rat_sext_wrap _
  next => exact toRaw_wrap t _

theorem toRaw_subResult (t : Ty) (d v : Int) : toRaw t (subResult t d v) = toRaw t (d - v) := by
  unfold subResult
  split
  next ht => subst ht; exact toRaw_rat_sext_wrap _
  next => exact toRaw_wrap t _

theorem toRaw_mulResult_rat (c : Config.Params) (d v : Int) :
    toRaw .rat (mulResult c .rat d v) = (BitVec.ofInt 32 (d * v / 2 ^ c.ratFrac)).toNat := by
  have hshift : Int.fdiv (d * v) (ratScale c) = d * v / 2 ^ c.ratFrac := qmul_ediv c d v
  rw [mulResult, if_pos rfl, ratMul, hshift, toRaw_rat_sext_wrap, toRaw_rat]

theorem toRaw_mulResult_int {t : Ty} (ht : t ≠ .rat) (c : Config.Params) (d v : Int) :
    toRaw t (mulResult c t d v) = toRaw t (d * v) := by
  rw [mulResult, if_neg ht, toRaw_wrap]

theorem toRaw_divResult_rat (c : Config.Params) (d v : Int) :
    toRaw .rat (divResult c .rat d v) = (BitVec.ofInt 32 ((d * 2 ^ c.ratFrac).tdiv v)).toNat := by
  rw [divResult, if_pos rfl, ratDiv, ratScale, toRaw_rat_sext_wrap, toRaw_rat]

theorem divResult_int {t : Ty} (ht : t ≠ .rat) (c : Config.Params) (d v : Nat) :
    divResult c t d v = ((d / v : Nat) : Int) := by
  rw [divResult, if_neg ht, Int.fdiv_eq_ediv_of_nonneg _ (Int.natCast_nonneg v), Int.natCast_ediv]

theorem toRaw_modResult_rat (d v : Int) : toRaw .rat (modResult .rat d v) = (BitVec.ofInt 32 (d.tmod v)).toNat := by
  rw [modResult, if_pos rfl, ratMod, toRaw_rat]

theorem modResult_int {t : Ty} (ht : t ≠ .rat) (d v : Nat) : modResult t d v = ((d % v : Nat) : Int) := by
  rw [modResult, if_neg ht, Int.fdiv_eq_ediv_of_nonneg _ (Int.natCast_nonneg v), ← Int.emod_def, Int.natCast_emod]

/-! ### A divisor other than 0 (R206, R207, R233, R234) -/

/-- A raw pattern of at most 32 bits other than 0 stands for an integer other than 0. -/
theorem ofRaw_ne_zero {t : Ty} {raw : Nat} (hlt : raw < 2 ^ 32) (h : raw ≠ 0) : ofRaw t raw ≠ 0 := by
  by_cases ht : t = .rat
  · subst ht
    intro h0
    have hraw : toRaw .rat (ofRaw .rat raw) = raw := (toRaw_ofRaw ..).trans (Nat.mod_eq_of_lt hlt)
    rw [h0] at hraw
    exact h hraw.symm
  · rw [ofRaw_int ht]
    exact Int.natCast_ne_zero.mpr h

theorem divideOr_of_ne_zero {v : Int} (h : v ≠ 0) (result : Int → Int → Int) (d : Int) (s : State) :
    divideOr result d v s = .done (result d v) s := if_neg h

/-! ### The instructions -/

/-- An instruction of the frame R228 of `n` bytes, with nothing scheduled: the result's low bytes are stored and `pc`
goes on. -/
theorem concludeAfter_inPlace {t : Ty} {dst : Addr} {src : Operand} {op : Int → Int → State → Res Int} {s : State}
    {n x : Nat} {r : Int} (h : s.inputs = []) (hs : src.readable s t = true)
    (hd : dst.toNat + t.width s.cfg ≤ s.cfg.memCap)
    (hop : op (ofRaw t (s.rawAt t dst.toNat)) (ofRaw t (s.operandRaw t src)) s = .done r s)
    (hx : toRaw t r % 256 ^ t.width s.cfg = x % 256 ^ t.width s.cfg) :
    concludeAfter s.pc n (inPlace t dst src op s) = .next ((s.withRaw t dst.toNat x).advance n) := by
  rw [inPlace_quiet h hs hd r hop x hx, concludeAfter_done]
  rfl

/-- With nothing scheduled, COMPARE reads the operand and the value at the address and takes the target of their
order (R291). -/
theorem exec_compare_quiet {s : State} {ot : Optype} {addr : Addr} {src : Operand} (tLess tEqual tGreater : Addr)
    (h : s.inputs = []) (hs : src.readable s ot.ty = true) (ha : addr.toNat + ot.ty.width s.cfg ≤ s.cfg.memCap) :
    exec (.compare ot addr src tLess tEqual tGreater) s = .next { s with
      pc := compareTarget (ofRaw ot.ty (s.rawAt ot.ty addr.toNat)) (ofRaw ot.ty (s.operandRaw ot.ty src))
        tLess tEqual tGreater } := by
  rw [exec, execCompare, evalOperand_quiet h hs, Res.bind_done, loadTyped_quiet h ha, Res.bind_done, conclude_done]

end Sys2Proof.Machine

/-! ### The statements, in a namespace of their own: `mulResult` is the name of a function of the model -/

namespace Sys2Proof.NumericResults

open Sys2Proof.Machine

/-- Settles O28: taking the low bits commutes with sum and difference. -/
theorem addSubResult : Obligations.AddSubResult := by
  unfold Obligations.AddSubResult
  intro s ot dst src hc h hs hd
  rw [← bits_of_legal hc]
  constructor
  · refine concludeAfter_inPlace h hs hd rfl (congrArg (· % _) ?_)
    rw [toRaw_addResult, toRaw_eq_ofInt, BitVec.ofInt_add, ofInt_ofRaw, ofInt_ofRaw]
  · refine concludeAfter_inPlace h hs hd rfl (congrArg (· % _) ?_)
    rw [toRaw_subResult, toRaw_eq_ofInt, Int.sub_eq_add_neg, BitVec.ofInt_add, BitVec.ofInt_neg, ofInt_ofRaw,
      ofInt_ofRaw, ← BitVec.sub_eq_add_neg]

/-- Settles O29: the shift of the model is the division that rounds toward negative infinity, and the integer product
loses only bits above the type's width. -/
theorem mulResult : Obligations.MulResult := by
  unfold Obligations.MulResult
  intro s ot dst src h hs hd
  refine concludeAfter_inPlace h hs hd rfl ?_
  by_cases ht : ot.ty = .rat
  · rw [ht, if_pos rfl, toRaw_mulResult_rat, ofRaw_eq, ofRaw_eq]
  · rw [if_neg ht, toRaw_mulResult_int ht, ofRaw_int ht, ofRaw_int ht, ← Int.natCast_mul, toRaw_natCast_mod ht]

/-- Settles O30: the divisor's raw value is not 0, so neither is the integer it stands for, and no fault is raised. -/
theorem divModResult : Obligations.DivModResult := by
  unfold Obligations.DivModResult
  intro s ot dst src hc h hs hd hne
  have hv : ofRaw ot.ty (s.operandRaw ot.ty src) ≠ 0 := ofRaw_ne_zero (operandRaw_lt hc ot.ty src) hne
  constructor
  · refine concludeAfter_inPlace h hs hd (divideOr_of_ne_zero hv _ _ s) ?_
    by_cases ht : ot.ty = .rat
    · rw [ht, if_pos rfl, toRaw_divResult_rat, ofRaw_eq, ofRaw_eq]
    · rw [if_neg ht, ofRaw_int ht, ofRaw_int ht, divResult_int ht, toRaw_natCast_mod ht]
  · refine concludeAfter_inPlace h hs hd (divideOr_of_ne_zero hv _ _ s) ?_
    by_cases ht : ot.ty = .rat
    · rw [ht, if_pos rfl, toRaw_modResult_rat, ofRaw_eq, ofRaw_eq]
    · rw [if_neg ht, ofRaw_int ht, ofRaw_int ht, modResult_int ht, toRaw_natCast_mod ht]

/-- Settles O40: the compared integers are the ones the raw values stand for, signed for a rational only. -/
theorem compareResult : Obligations.CompareResult := by
  unfold Obligations.CompareResult
  intro s ot addr src tLess tEqual tGreater h hs ha
  rw [exec_compare_quiet tLess tEqual tGreater h hs ha, ofRaw_eq, ofRaw_eq, compareTarget]

end Sys2Proof.NumericResults
end

/-! PROOF. What LSHIFT and RSHIFT store (42_bitwise.md R248, R249, R254, R255). On numbers that are not negative the
model's integer shifts are the shifts of bit vectors of the type's width, by any amount: the model answers 0 by a case
of its own for an amount of the width or more (R249), a bit vector because no bit of it is left. -/

namespace Sys2Proof.Machine

/-! ### The shifts as bit vectors -/

theorem lshiftResult_natCast (t : Ty) (d n : Nat) :
    lshiftResult t d n = ((BitVec.ofNat (bits t) d <<< n).toNat : Int) := by
  unfold lshiftResult
  split
  next hge => rw [BitVec.shiftLeft_eq_zero (by exact_mod_cast hge), BitVec.toNat_zero, Int.natCast_zero]
  next => simp [wrap, Nat.shiftLeft_eq]

theorem rshiftResult_natCast {t : Ty} {d : Nat} (hd : d < 2 ^ bits t) (n : Nat) :
    rshiftResult t d n = ((BitVec.ofNat (bits t) d >>> n).toNat : Int) := by
  unfold rshiftResult
  split
  next hge => rw [BitVec.ushiftRight_eq_zero (by exact_mod_cast hge), BitVec.toNat_zero, Int.natCast_zero]
  next =>
    rw [Int.fdiv_eq_ediv_of_nonneg _ (by positivity), BitVec.toNat_ushiftRight, BitVec.toNat_ofNat,
      Nat.mod_eq_of_lt hd, Nat.shiftRight_eq_div_pow, Int.toNat_natCast]
    norm_cast

theorem rawAt_lt_bits {t : Ty} (ht : t ≠ .rat) (s : State) (a : Nat) : s.rawAt t a < 2 ^ bits t := by
  rw [bits_of_int ht s.cfg, ← pow8]
  exact rawAt_lt s t a

/-! ### The instructions -/

/-- The frame R248 on an integer type, with nothing scheduled, where the result of `op` on the raw values is the
number `x`: its TYPE check passes, and `x` is stored by the frame R228. -/
theorem concludeAfter_bitwiseInPlace {t : Ty} {dst : Addr} {src : Operand} {op : Int → Int → Int} {s : State}
    {n x : Nat} (h : s.inputs = []) (ht : t ≠ .rat) (hs : src.readable s t = true)
    (hd : dst.toNat + t.width s.cfg ≤ s.cfg.memCap) (hop : op (s.rawAt t dst.toNat) (s.operandRaw t src) = x) :
    concludeAfter s.pc n (bitwiseInPlace t dst src op s) = .next ((s.withRaw t dst.toNat x).advance n) := by
  rw [bitwiseInPlace, if_neg ht]
  refine concludeAfter_inPlace h hs hd rfl ?_
  rw [ofRaw_int ht, ofRaw_int ht, hop, toRaw_natCast_mod ht]

/-- Settles O33: the shifts of the model are the bit vectors' own, for every amount. -/
theorem shiftResult : Obligations.ShiftResult := by
  unfold Obligations.ShiftResult
  intro s ot dst src h ht hs hd
  rw [← bits_of_int ht s.cfg]
  constructor
  · rw [exec, execLshift, Instr.length, if_neg ht]
    exact concludeAfter_bitwiseInPlace h ht hs hd (lshiftResult_natCast ..)
  · rw [exec, execRshift, Instr.length, if_neg ht]
    exact concludeAfter_bitwiseInPlace h ht hs hd (rshiftResult_natCast (rawAt_lt_bits ht s dst.toNat) _)

end Sys2Proof.Machine

/-! PROOF. The id check of the PID opcodes, and the controller that PIDINIT leaves (47_pid.md R351, R352, R360 to R364).
With an id of `N` or more each of the four opcodes decodes to an instruction that is whole after its optype byte, so
the step faults by the id check whatever the bytes behind it are. A PIDINIT during which no other agent acts is one
call of `init` on the values of its operands in the state it starts from. -/

namespace Sys2Proof

/-! ### Decoding a PID opcode with an id that does not exist (R351) -/

/-- The PID opcodes are the bytes 0x18 to 0x1B (R141). -/
theorem pid_opcode_byte {op : Byte} (hlo : 0x18 ≤ op.toNat) (hhi : op.toNat ≤ 0x1B) :
    op = Opcode.pidInit.toByte ∨ op = Opcode.pidClear.toByte ∨ op = Opcode.pidStop.toByte ∨
      op = Opcode.pidRun.toByte := by
  simp only [Opcode.toByte]
  bv_omega

/-- A PID opcode with an optype byte that names no controller is a whole instruction (R351; log 17). -/
theorem pid_instr_of_unavailable {c : Config.Params} {op : Byte} {ot : Optype} (hlo : 0x18 ≤ op.toNat)
    (hhi : op.toNat ≤ 0x1B) (hid : c.nPid ≤ ot.id.toNat) :
    ∃ i : Instr, i.opcode.toByte = op ∧ i.controlsPid = some ot.id ∧ i.wf c = true ∧ i.isMultiload = false ∧
      i.encodeBody c = [ot.toByte] := by
  have hnot : ¬ ot.id.toNat < c.nPid := Nat.not_lt.mpr hid
  rcases pid_opcode_byte hlo hhi with rfl | rfl | rfl | rfl
  · exact ⟨.pidInit ot .unfetched, rfl, rfl, by simp [Instr.wf, hnot], rfl, if_neg hnot⟩
  · exact ⟨.pidClear ot, rfl, rfl, rfl, rfl, rfl⟩
  · exact ⟨.pidStop ot, rfl, rfl, rfl, rfl, rfl⟩
  · exact ⟨.pidRun ot, rfl, rfl, rfl, rfl, rfl⟩

/-- The decoder stops at the optype byte of a PID opcode that names no controller, whatever follows (R351). -/
theorem decode_pid_unavailable {c : Config.Params} {op : Byte} {ot : Optype} (hlo : 0x18 ≤ op.toNat)
    (hhi : op.toNat ≤ 0x1B) (hid : c.nPid ≤ ot.id.toNat) (rest : List Byte) :
    ∃ i : Instr, i.opcode.toByte = op ∧ i.controlsPid = some ot.id ∧
      decode c (op :: ot.toByte :: rest) = .instr i rest := by
  obtain ⟨i, rfl, hctl, hwf, hmulti, henc⟩ := pid_instr_of_unavailable hlo hhi hid
  have hbody := (reads_takeBody hwf hmulti).whole rest
  rw [henc] at hbody
  exact ⟨i, rfl, hctl, decode_of_takeBody_some hbody⟩

end Sys2Proof

namespace Sys2Proof.Machine

/-! ### A step at such an opcode -/

/-- The program bytes from a `pc` below the last one begin with the opcode byte and the byte after it. -/
theorem programFrom_cons_cons {s : State} (h : s.pc.toNat + 1 < s.cfg.progCap) : programFrom s.pc s =
    s.prog.read s.pc.toNat :: s.prog.read (s.pc.toNat + 1) ::
      s.prog.readBytes (s.pc.toNat + 2) (s.cfg.progCap - 2 - s.pc.toNat) := by
  have hlen : s.cfg.progCap - 1 - s.pc.toNat = (s.cfg.progCap - 2 - s.pc.toNat) + 1 := by omega
  rw [programFrom_cons (Nat.lt_of_succ_lt h), hlen, Memory.readBytes]

/-- The id check that a PID instruction begins with, where it fails (R351). -/
theorem concludeAfter_withPidId_unavailable {ot : Optype} {s : State} (hid : s.cfg.nPid ≤ ot.id.toNat) (n : Nat)
    (body : PidId → Res Unit) :
    concludeAfter s.pc n (withPidId ot s body) = .next (haltWith .idUnavailable s.pc s) := by
  rw [withPidId_of_none (pidOf_eq_none.mpr (.inl hid)), concludeAfter_raised]

theorem exec_pid_unavailable {i : Instr} {id : BitVec 4} {s : State} (hctl : i.controlsPid = some id)
    (hid : s.cfg.nPid ≤ id.toNat) : exec i s = .next (haltWith .idUnavailable s.pc s) := by
  cases i with
  | pidInit ot f => cases hctl; exact concludeAfter_withPidId_unavailable hid ..
  | pidClear ot => cases hctl; exact concludeAfter_withPidId_unavailable hid ..
  | pidStop ot => cases hctl; exact concludeAfter_withPidId_unavailable hid ..
  | pidRun ot => cases hctl; exact concludeAfter_withPidId_unavailable hid ..
  | _ => cases hctl

/-- A PID instruction that fails the id check leaves what the fault of a fetch would, with code 7 (R400, R403). -/
theorem exec_seed_pid_unavailable {i : Instr} {id : BitVec 4} (hctl : i.controlsPid = some id) (op : Byte) (s : State)
    (hid : s.cfg.nPid ≤ id.toNat) :
    exec i (s.seed op) = .next { s with flags := s.flags ||| 0b011, status := s.pc ++ op ++ (7 : Byte) } :=
  (exec_pid_unavailable (s := s.seed op) hctl hid).trans (rejectFetch_eq .idUnavailable op s)

/-- Settles O51: the decoder reads the opcode and the optype byte only, and the instruction that it answers faults by
the id check. -/
theorem pidIdUnavailable : Obligations.PidIdUnavailable := by
  unfold Obligations.PidIdUnavailable
  intro s hnext hrun hpc hlo hhi hid
  obtain ⟨i, hop, hctl, hd⟩ := decode_pid_unavailable (ot := .ofByte (s.prog.read (s.pc.toNat + 1))) hlo hhi hid
    (s.prog.readBytes (s.pc.toNat + 2) (s.cfg.progCap - 2 - s.pc.toNat))
  rw [optype_toByte_ofByte, ← programFrom_cons_cons hpc] at hd
  rw [step_eq_decode hnext hrun, hd, ← hop]
  exact exec_seed_pid_unavailable hctl _ _ hid

/-! ### PIDINIT during which no other agent acts (R352, R360) -/

/-- The arguments that PIDINIT passes to `init` where its rationals are read in state `s`. -/
def State.pidInitArgs (s : State) (f : PidInitFields) : PidInitArgs where
  inAddr := f.inAddr
  outAddr := f.outAddr
  spAddr := f.spAddr
  kp := signedValue .rat (s.operandRaw .rat f.kp)
  ki := signedValue .rat (s.operandRaw .rat f.ki)
  kd := signedValue .rat (s.operandRaw .rat f.kd)
  sampleMs := f.sampleMs.toNat
  dir := Direction.ofByte f.dir
  lo := signedValue .rat (s.operandRaw .rat f.lo)
  hi := signedValue .rat (s.operandRaw .rat f.hi)

/-- With nothing scheduled and its rationals readable, PIDINIT comes to `init` in the state it started from. -/
theorem exec_pidInit_readable {s : State} {ot : Optype} {f : PidInitFields} {i : PidId} (h : s.inputs = [])
    (hi : ot.id.toNat = i.val) (hlt : i.val < s.cfg.nPid) (hkp : f.kp.readable s .rat = true)
    (hki : f.ki.readable s .rat = true) (hkd : f.kd.readable s .rat = true) (hlo : f.lo.readable s .rat = true)
    (hhi : f.hi.readable s .rat = true) :
    exec (.pidInit ot f) s =
      concludeAfter s.pc ((Instr.pidInit ot f).length s.cfg) (initOp i (s.pidInitArgs f) s) := by
  have hsome : pidOf ot.id.toNat s = some i := pidOf_eq_some.mpr ⟨hi.symm, hi ▸ hlt⟩
  simp only [exec, execPidInit, withPidId_of_some hsome, evalOperand_quiet h hkp, evalOperand_quiet h hki,
    evalOperand_quiet h hkd, evalOperand_quiet h hlo, evalOperand_quiet h hhi, Res.bind_done, ofRaw_eq,
    State.pidInitArgs]

theorem boundAddressesValid_iff {inAddr outAddr spAddr : Addr} {s : State} :
    boundAddressesValid inAddr outAddr spAddr s = true ↔ inAddr.toNat + s.cfg.ratBytes ≤ s.cfg.memCap ∧
      outAddr.toNat + s.cfg.ratBytes ≤ s.cfg.memCap ∧ spAddr.toNat + s.cfg.ratBytes ≤ s.cfg.memCap := by
  simp only [boundAddressesValid, Bool.and_eq_true, inBounds_iff, and_assoc]

/-- `init` of a controller that is not initialized, with valid bound addresses, where no other agent acts (R360). -/
theorem initOp_quiet {s : State} {i : PidId} {a : PidInitArgs} (h : s.quiet) (hinit : s.pid[i].initialized = false)
    (hvalid : boundAddressesValid a.inAddr a.outAddr a.spAddr s = true) :
    initOp i a s =
      .done () (setPid i (initialController s.cfg a s.timeBase (getMapForAddress a.inAddr s)) s) := by
  have hinputs : s.inputs = [] := h.1
  simp only [initOp, beginBank_of_quiet i s h, hinit, hvalid, turn_of_inputs_nil _ s hinputs, Bool.false_eq_true,
    if_false, if_true]

/-! ### The fields of the controller (R361 to R363) -/

/-- A gain is stored with the sign of the direction (R361). -/
theorem storedGain_ofByte (b : Byte) (g : Int) :
    storedGain (Direction.ofByte b) g = satWord ((if b.getLsbD 0 = true then -1 else 1) * g) := by
  unfold storedGain Direction.ofByte
  split <;> simp

/-- A stored word is the integer that its raw value stands for (R202). -/
theorem ofInt_signedValue_rat_toInt (raw : Nat) :
    (BitVec.ofInt 32 (signedValue .rat raw)).toInt = signedValue .rat raw := by
  rw [signedValue, if_pos rfl, BitVec.ofInt_toInt]

/-- `getMapForAddress` answers the lowest slot with that value address, if there is one (R98, R363). -/
theorem getMapForAddress_lowest (a : Addr) (s : State) :
    (getMapForAddress a s = none ∧ ∀ k : SlotId, k.val < s.cfg.mapSlots → s.map[k].valueAddress ≠ a) ∨
      ∃ k : SlotId, getMapForAddress a s = some k ∧ k.val < s.cfg.mapSlots ∧ s.map[k].valueAddress = a ∧
        ∀ j : SlotId, j < k → s.map[j].valueAddress ≠ a := by
  cases h : getMapForAddress a s with
  | none => exact .inl ⟨rfl, getMapForAddress_eq_none h⟩
  | some k =>
    obtain ⟨hlt, haddr⟩ := getMapForAddress_eq_some h
    refine .inr ⟨k, rfl, hlt, haddr, fun j hj => ?_⟩
    rw [getMapForAddress, ← Fin.find?_eq_find?_finRange] at h
    have hjlt : j.val < s.cfg.mapSlots := lt_trans hj hlt
    simpa [hjlt] using Fin.eq_false_of_find?_eq_some_of_lt h j hj

/-- Settles O49: the instruction is `init` on the operands' values, and `initialController` names the fields. -/
theorem pidInitResult : Obligations.PidInitResult := by
  unfold Obligations.PidInitResult
  intro s ot f id hq hid hlt hkp hki hkd hlo hhi hinit hin hout hsp
  have hexec := exec_pidInit_readable hq.1 hid hlt hkp hki hkd hlo hhi
  rw [initOp_quiet hq hinit (boundAddressesValid_iff.mpr ⟨hin, hout, hsp⟩), concludeAfter_done] at hexec
  refine ⟨_, hexec, rfl, fun k hk => (setPid_get id k _ s).trans (if_neg hk), _, rfl, _, rfl,
    fun x => (satWord x).toInt, satWord_toInt, ?_⟩
  simp only [setPid_self]
  exact ⟨congrArg BitVec.toInt (storedGain_ofByte ..), congrArg BitVec.toInt (storedGain_ofByte ..),
    congrArg BitVec.toInt (storedGain_ofByte ..), ofInt_signedValue_rat_toInt _, ofInt_signedValue_rat_toInt _, rfl,
    sampleFloor_toNat s.cfg f.sampleMs, rfl, rfl, rfl, rfl, rfl, rfl, rfl, rfl, getMapForAddress_lowest f.inAddr s⟩

end Sys2Proof.Machine

/-! PROOF. Decoder and encoder undo each other (30_encoding.md R140 to R153). One direction is `Reads` of every layout.
For the other, `Answers` says of a reader what bytes it has read where it answers; it passes from the fields to the
layouts as `Reads` does. A MULTILOAD that the stream cuts short is the one exception (log 16). -/

namespace Sys2Proof

/-! ### Decoding an encoded instruction -/

theorem takeMultiload_encode {c : Config.Params} {ot : Optype} {dst : Addr} {count : Byte} {srcs : List Operand}
    (h : (Instr.multiload ot dst count srcs).wf c = true) (rest : List Byte) :
    takeMultiload c ((Instr.multiload ot dst count srcs).encodeBody c ++ rest) =
      some (.multiload ot dst count srcs, rest) := by
  obtain ⟨hcount, hsrcs⟩ : srcs.length = count.toNat ∧ srcs.all (·.wf c ot.ty ot.mode) = true := by
    simpa only [Instr.wf, Bool.and_eq_true, beq_iff_eq] using h
  have hops := takeOperands_encode hsrcs rest
  rw [hcount] at hops
  simp [takeMultiload, Instr.encodeBody, hops]

theorem takeBody_encode {c : Config.Params} {i : Instr} (h : i.wf c = true) (rest : List Byte) :
    takeBody c i.opcode (i.encodeBody c ++ rest) = some (i, rest) := by
  cases hi : i.isMultiload with
  | false => exact (reads_takeBody h hi).whole rest
  | true =>
    cases i with
    | multiload ot dst count srcs => exact takeMultiload_encode h rest
    | _ => cases hi

/-- Settles O1: every layout's reader reads its own encoding, whatever follows. -/
theorem decodeOfEncode : Obligations.DecodeOfEncode := by
  unfold Obligations.DecodeOfEncode
  intro c i rest hwf
  exact decode_of_takeBody_some (takeBody_encode hwf rest)

/-! ### What a reader has read -/

/-- Where the reader `take` answers, it has read some bytes of the stream, and `P` holds of the answer and them. -/
def Answers {α : Type} (take : List Byte → Option (α × List Byte)) (P : α → List Byte → Prop) : Prop :=
  ∀ bs a rest, take bs = some (a, rest) → ∃ e, bs = e ++ rest ∧ P a e

section
variable {α β : Type} {take : List Byte → Option (α × List Byte)} {P : α → List Byte → Prop}
  {Q : β → List Byte → Prop} {f : α × List Byte → Option (β × List Byte)}

/-- A field followed by the rest of a layout. -/
theorem Answers.bind (h : Answers take P)
    (hf : ∀ a e, P a e → Answers (fun bs => f (a, bs)) fun b e' => Q b (e ++ e')) :
    Answers (fun bs => take bs >>= f) Q := by
  intro bs b rest hb
  obtain ⟨⟨a, mid⟩, ha, hmid⟩ := Option.bind_eq_some_iff.mp hb
  obtain ⟨e, rfl, hP⟩ := h bs a mid ha
  obtain ⟨e', rfl, hQ⟩ := hf a e hP mid b rest hmid
  exact ⟨e ++ e', (List.append_assoc ..).symm, hQ⟩

/-- The end of a layout. -/
theorem Answers.done {b : β} (h : Q b []) : Answers (fun bs => some (b, bs)) Q := by
  intro bs b' rest hb
  cases hb
  exact ⟨[], rfl, h⟩

theorem Answers.ite {c : Prop} [Decidable c] {take' : List Byte → Option (α × List Byte)}
    (h : c → Answers take P) (h' : ¬ c → Answers take' P) :
    Answers (fun bs => if c then take bs else take' bs) P := by
  by_cases hc : c
  · simpa only [if_pos hc] using h hc
  · simpa only [if_neg hc] using h' hc

end

/-! ### The fields -/

theorem answers_takeLE (n : Nat) : Answers (takeLE n) fun v e => e = leBytes n v ∧ v < 256 ^ n := by
  intro bs v rest h
  obtain ⟨hbs, hlt⟩ := takeLE_eq_some h
  exact ⟨_, hbs, rfl, hlt⟩

theorem answers_takeByte : Answers takeByte fun x e => e = [x] :=
  fun _ _ _ h => ⟨_, takeByte_some h, rfl⟩

theorem answers_takeOptype : Answers takeOptype fun ot e => e = [ot.toByte] :=
  fun _ _ _ h => ⟨_, takeOptype_some h, rfl⟩

theorem answers_takeAddr : Answers takeAddr fun x e => e = encodeAddr x :=
  fun _ _ _ h => ⟨_, takeAddr_some h, rfl⟩

theorem answers_takeStrField (m : Mode) : Answers (takeStrField m) fun s e => e = s.encode ∧ s.wf m = true := by
  intro bs s rest h
  obtain ⟨hbs, hwf⟩ := takeStrField_some h
  exact ⟨_, hbs, rfl, hwf⟩

/-- A literal keeps its bytes where a rational has at most the 4 of a word. -/
theorem answers_takeOperand (c : Config.Params) (t : Ty) (m : Mode) :
    Answers (takeOperand c t m) fun o e => c.ratBytes ≤ 4 → e = o.encode c t ∧ o.wf c t m = true := by
  intro bs o rest h
  by_cases hc : c.ratBytes ≤ 4
  · obtain ⟨hbs, hwf⟩ := takeOperand_some hc h
    exact ⟨_, hbs, fun _ => ⟨rfl, hwf⟩⟩
  · cases m with
    | literal =>
      obtain ⟨⟨v, r⟩, hv, hr⟩ := Option.map_eq_some_iff.mp h
      cases hr
      exact ⟨_, (takeLE_eq_some hv).1, fun hc' => absurd hc' hc⟩
    | address =>
      obtain ⟨⟨x, r⟩, hx, hr⟩ := Option.map_eq_some_iff.mp h
      cases hr
      exact ⟨_, takeAddr_some hx, fun hc' => absurd hc' hc⟩

/-! ### The layouts -/

/-- The instruction has the opcode `o`, and its fields are read from `e`, whole and well formed where a rational has at
most the 4 bytes of a word. -/
def Instr.ReadFrom (c : Config.Params) (o : Opcode) (i : Instr) (e : List Byte) : Prop :=
  i.opcode = o ∧ (c.ratBytes ≤ 4 → i.wf c = true ∧ e = i.encodeBody c)

section
variable {c : Config.Params} {o : Opcode}

theorem answers_takeOt {mk : Optype → Instr} (hmk : ∀ ot, (mk ot).ReadFrom c o [ot.toByte]) :
    Answers (takeOt mk) (Instr.ReadFrom c o) :=
  answers_takeOptype.bind fun ot _ he => .done (by rw [he]; exact hmk ot)

theorem answers_takeOtDst {mk : Optype → Addr → Instr}
    (hmk : ∀ ot dst, (mk ot dst).ReadFrom c o (ot.toByte :: encodeAddr dst)) :
    Answers (takeOtDst mk) (Instr.ReadFrom c o) :=
  answers_takeOptype.bind fun ot _ he => answers_takeAddr.bind fun dst _ he' => .done (by
    rw [he, he']; simpa using hmk ot dst)

/-- A layout `ot`, `dst`, `src` after its optype byte. -/
theorem answers_dstSrc {mk : Addr → Operand → Instr} {ot : Optype}
    (hop : ∀ dst src, (mk dst src).opcode = o)
    (hmk : ∀ dst src, src.wf c ot.ty ot.mode = true →
      (mk dst src).wf c = true ∧ encodeDstSrc c ot dst src = (mk dst src).encodeBody c) :
    Answers (fun bs => takeAddr bs >>= fun p => takeOperand c ot.ty ot.mode p.2 >>= fun q => some (mk p.1 q.1, q.2))
      fun i e => i.ReadFrom c o ([ot.toByte] ++ e) := by
  refine answers_takeAddr.bind fun dst _ he =>
    Answers.bind (f := fun q => some (mk dst q.1, q.2)) (answers_takeOperand c ot.ty ot.mode) fun src _ hsrc =>
    Answers.done (b := mk dst src) ⟨hop dst src, fun hc => ?_⟩
  obtain ⟨rfl, hwf⟩ := hsrc hc
  obtain ⟨hi, henc⟩ := hmk dst src hwf
  exact ⟨hi, by simpa [he, encodeDstSrc] using henc⟩

theorem answers_takeOtDstSrc {mk : Optype → Addr → Operand → Instr}
    (hop : ∀ ot dst src, (mk ot dst src).opcode = o)
    (hmk : ∀ ot dst src, src.wf c ot.ty ot.mode = true →
      (mk ot dst src).wf c = true ∧ encodeDstSrc c ot dst src = (mk ot dst src).encodeBody c) :
    Answers (takeOtDstSrc c mk) (Instr.ReadFrom c o) :=
  answers_takeOptype.bind fun ot _ he => by rw [he]; exact answers_dstSrc (hop ot) (hmk ot)

theorem answers_takeBitwise {mk : Optype → Addr → Operand → Instr}
    (hop : ∀ ot dst src, (mk ot dst src).opcode = o)
    (hmk : ∀ ot dst src, bitwiseFieldsWf c ot dst src = true →
      (mk ot dst src).wf c = true ∧ encodeBitwise c ot dst src = (mk ot dst src).encodeBody c) :
    Answers (takeBitwise c mk) (Instr.ReadFrom c o) :=
  answers_takeOptype.bind fun ot _ he => by
    rw [he]
    refine .ite (fun hty => .done ⟨hop .., fun _ => ?_⟩) (fun hty => answers_dstSrc (hop ot) fun dst src hsrc => ?_)
    · have := hmk ot 0 (.lit 0) (by simp [bitwiseFieldsWf, hty])
      simpa [encodeBitwise, hty] using this
    · have := hmk ot dst src (by simpa [bitwiseFieldsWf, hty] using hsrc)
      simpa [encodeBitwise, hty] using this

theorem answers_takeNot : Answers takeNot (Instr.ReadFrom c .bitNot) :=
  answers_takeOptype.bind fun ot _ he => by
    rw [he]
    exact .ite (fun hty => .done ⟨rfl, fun _ => by simp [Instr.wf, Instr.encodeBody, hty]⟩)
      (fun hty => answers_takeAddr.bind fun dst _ he' => .done
        ⟨rfl, fun _ => by simp [Instr.wf, Instr.encodeBody, hty, he']⟩)

theorem answers_takeCopy : Answers takeCopy (Instr.ReadFrom c .copy) :=
  answers_takeOptype.bind fun ot _ he => answers_takeAddr.bind fun src _ hsrc => answers_takeAddr.bind fun len _ hlen =>
    answers_takeAddr.bind fun dst _ hdst => .done
      ⟨rfl, fun _ => ⟨rfl, by simp [Instr.encodeBody, he, hsrc, hlen, hdst]⟩⟩

theorem answers_takeTarget {mk : Optype → Operand → Instr} (hop : ∀ ot target, (mk ot target).opcode = o)
    (hmk : ∀ ot target, target.wf c .u16 ot.mode = true →
      (mk ot target).wf c = true ∧ ot.toByte :: target.encode c .u16 = (mk ot target).encodeBody c) :
    Answers (takeTarget c mk) (Instr.ReadFrom c o) :=
  answers_takeOptype.bind fun ot _ he => (answers_takeOperand c .u16 ot.mode).bind fun target _ htarget => .done
    ⟨hop ot target, fun hc => by
      obtain ⟨rfl, hwf⟩ := htarget hc
      simpa [he] using hmk ot target hwf⟩

theorem answers_takeCompare : Answers (takeCompare c) (Instr.ReadFrom c .compare) :=
  answers_takeOptype.bind fun ot _ he => answers_takeAddr.bind fun addr _ haddr =>
    (answers_takeOperand c ot.ty ot.mode).bind fun src _ hsrc => answers_takeAddr.bind fun tLess _ hless =>
    answers_takeAddr.bind fun tEqual _ hequal => answers_takeAddr.bind fun tGreater _ hgreater => .done
      ⟨rfl, fun hc => by
        obtain ⟨rfl, hwf⟩ := hsrc hc
        exact ⟨hwf, by simp [Instr.encodeBody, he, haddr, hless, hequal, hgreater]⟩⟩

theorem answers_takeCompareTime : Answers takeCompareTime (Instr.ReadFrom c .compareTime) :=
  answers_takeOptype.bind fun ot _ he => answers_takeAddr.bind fun addr _ haddr =>
    (answers_takeLE 4).bind fun timeout _ htimeout => answers_takeAddr.bind fun tElapsed _ helapsed =>
    answers_takeAddr.bind fun tNotElapsed _ hnot => .done
      ⟨rfl, fun _ => ⟨rfl, by
        obtain ⟨rfl, hlt⟩ := htimeout
        have hword : (BitVec.ofNat 32 timeout).toNat = timeout := Nat.mod_eq_of_lt hlt
        simp [-BitVec.toNat_ofNat, Instr.encodeBody, he, haddr, helapsed, hnot, hword]⟩⟩

theorem answers_takeUrlmap : Answers takeUrlmap (Instr.ReadFrom c .urlmap) :=
  answers_takeOptype.bind fun ot _ he => answers_takeByte.bind fun options _ hoptions =>
    answers_takeAddr.bind fun value _ hvalue => answers_takeAddr.bind fun port _ hport =>
    (answers_takeStrField ot.mode).bind fun url _ hurl => (answers_takeStrField ot.mode2).bind fun resource _ hres =>
    .done ⟨rfl, fun _ => by
      obtain ⟨rfl, hurl⟩ := hurl
      obtain ⟨rfl, hres⟩ := hres
      simp [Instr.wf, Instr.encodeBody, he, hoptions, hvalue, hport, hurl, hres]⟩

theorem answers_takePidInitFields (m : Mode) :
    Answers (takePidInitFields c m) fun f e => c.ratBytes ≤ 4 → f.wf c m = true ∧ e = f.encode c :=
  answers_takeAddr.bind fun inAddr _ hin => answers_takeAddr.bind fun outAddr _ hout =>
    answers_takeAddr.bind fun spAddr _ hsp => (answers_takeOperand c .rat m).bind fun kp _ hkp =>
    (answers_takeOperand c .rat m).bind fun ki _ hki => (answers_takeOperand c .rat m).bind fun kd _ hkd =>
    answers_takeAddr.bind fun sampleMs _ hsample => answers_takeByte.bind fun dir _ hdir =>
    (answers_takeOperand c .rat m).bind fun lo _ hlo => (answers_takeOperand c .rat m).bind fun hi _ hhi => .done
      fun hc => by
        obtain ⟨rfl, hkpwf⟩ := hkp hc
        obtain ⟨rfl, hkiwf⟩ := hki hc
        obtain ⟨rfl, hkdwf⟩ := hkd hc
        obtain ⟨rfl, hlowf⟩ := hlo hc
        obtain ⟨rfl, hhiwf⟩ := hhi hc
        simp [PidInitFields.wf, PidInitFields.encode, hin, hout, hsp, hsample, hdir, hkpwf, hkiwf, hkdwf,
          hlowf, hhiwf]

theorem answers_takePidInit : Answers (takePidInit c) (Instr.ReadFrom c .pidInit) :=
  answers_takeOptype.bind fun ot _ he => by
    rw [he]
    exact .ite
      (fun hid => (answers_takePidInitFields ot.mode).bind fun f _ hf => .done
        ⟨rfl, fun hc => by simp [Instr.wf, Instr.encodeBody, hid, hf hc]⟩)
      (fun hid => .done ⟨rfl, fun _ => by simp [Instr.wf, Instr.encodeBody, hid]⟩)

end

/-- Every opcode but MULTILOAD's: the decoder answers an instruction of that opcode, read from its own encoding. -/
theorem answers_takeBody (c : Config.Params) {o : Opcode} (ho : o ≠ .multiload) :
    Answers (takeBody c o) (Instr.ReadFrom c o) := by
  cases o with
  | multiload => exact absurd rfl ho
  | halt => exact .done ⟨rfl, fun _ => ⟨rfl, rfl⟩⟩
  | ret => exact .done ⟨rfl, fun _ => ⟨rfl, rfl⟩⟩
  | reset => exact .done ⟨rfl, fun _ => ⟨rfl, rfl⟩⟩
  | add => exact answers_takeOtDstSrc (fun _ _ _ => rfl) fun _ _ _ h => ⟨h, rfl⟩
  | sub => exact answers_takeOtDstSrc (fun _ _ _ => rfl) fun _ _ _ h => ⟨h, rfl⟩
  | mul => exact answers_takeOtDstSrc (fun _ _ _ => rfl) fun _ _ _ h => ⟨h, rfl⟩
  | div => exact answers_takeOtDstSrc (fun _ _ _ => rfl) fun _ _ _ h => ⟨h, rfl⟩
  | mod => exact answers_takeOtDstSrc (fun _ _ _ => rfl) fun _ _ _ h => ⟨h, rfl⟩
  | load => exact answers_takeOtDstSrc (fun _ _ _ => rfl) fun _ _ _ h => ⟨h, rfl⟩
  | bitAnd => exact answers_takeBitwise (fun _ _ _ => rfl) fun _ _ _ h => ⟨h, rfl⟩
  | bitOr => exact answers_takeBitwise (fun _ _ _ => rfl) fun _ _ _ h => ⟨h, rfl⟩
  | bitXor => exact answers_takeBitwise (fun _ _ _ => rfl) fun _ _ _ h => ⟨h, rfl⟩
  | lshift => exact answers_takeBitwise (fun _ _ _ => rfl) fun _ _ _ h => ⟨h, rfl⟩
  | rshift => exact answers_takeBitwise (fun _ _ _ => rfl) fun _ _ _ h => ⟨h, rfl⟩
  | bitNot => exact answers_takeNot
  | copy => exact answers_takeCopy
  | jump => exact answers_takeTarget (fun _ _ => rfl) fun _ _ h => ⟨h, rfl⟩
  | call => exact answers_takeTarget (fun _ _ => rfl) fun _ _ h => ⟨h, rfl⟩
  | compare => exact answers_takeCompare
  | time => exact answers_takeOtDst fun _ _ => ⟨rfl, fun _ => ⟨rfl, rfl⟩⟩
  | urlmapCheck => exact answers_takeOtDst fun _ _ => ⟨rfl, fun _ => ⟨rfl, rfl⟩⟩
  | compareTime => exact answers_takeCompareTime
  | urlmap => exact answers_takeUrlmap
  | urlmapDelete => exact answers_takeOt fun _ => ⟨rfl, fun _ => ⟨rfl, rfl⟩⟩
  | pidInit => exact answers_takePidInit
  | pidClear => exact answers_takeOt fun _ => ⟨rfl, fun _ => ⟨rfl, rfl⟩⟩
  | pidStop => exact answers_takeOt fun _ => ⟨rfl, fun _ => ⟨rfl, rfl⟩⟩
  | pidRun => exact answers_takeOt fun _ => ⟨rfl, fun _ => ⟨rfl, rfl⟩⟩

/-! ### MULTILOAD (R271; log 16) -/

/-- The head of a MULTILOAD is whole, and its source fields are read as far as they go. -/
theorem takeMultiload_some {c : Config.Params} {bs rest : List Byte} {i : Instr}
    (h : takeMultiload c bs = some (i, rest)) :
    ∃ ot dst count fields srcs, bs = ot.toByte :: (encodeAddr dst ++ count :: fields) ∧
      i = .multiload ot dst count srcs ∧ takeOperands c ot.ty ot.mode count.toNat fields = (srcs, rest) := by
  obtain ⟨⟨ot, bs₁⟩, hot, h⟩ := Option.bind_eq_some_iff.mp h
  obtain ⟨⟨dst, bs₂⟩, hdst, h⟩ := Option.bind_eq_some_iff.mp h
  obtain ⟨⟨count, fields⟩, hcount, h⟩ := Option.bind_eq_some_iff.mp h
  cases h
  exact ⟨ot, dst, count, fields, _, by
    rw [takeOptype_some hot, takeAddr_some hdst, takeByte_some hcount], rfl, rfl⟩

theorem decode_eq_instr {c : Config.Params} {bs rest : List Byte} {i : Instr} (h : decode c bs = .instr i rest) :
    ∃ o bs', bs = o.toByte :: bs' ∧ takeBody c o bs' = some (i, rest) := by
  cases bs with
  | nil => cases h
  | cons op bs' =>
    simp only [decode] at h
    split at h
    · cases h
    next o ho =>
      split at h
      · cases h
      next i' rest' hbody =>
        cases h
        exact ⟨o, bs', by rw [opcode_toByte_of_ofByte ho], hbody⟩

theorem takeBody_opcode {c : Config.Params} {o : Opcode} {bs rest : List Byte} {i : Instr}
    (h : takeBody c o bs = some (i, rest)) : i.opcode = o := by
  by_cases ho : o = .multiload
  · subst ho
    obtain ⟨ot, dst, count, fields, srcs, -, rfl, -⟩ := takeMultiload_some h
    rfl
  · obtain ⟨e, -, hop, -⟩ := answers_takeBody c ho bs i rest h
    exact hop

/-- The stream from which an instruction is decoded begins with its opcode byte. -/
theorem decode_instr_head {c : Config.Params} {bs rest : List Byte} {i : Instr} (h : decode c bs = .instr i rest) :
    ∃ bs', bs = i.opcode.toByte :: bs' := by
  obtain ⟨o, bs', rfl, hbody⟩ := decode_eq_instr h
  exact ⟨bs', by rw [takeBody_opcode hbody]⟩

/-- Settles O2: every layout but MULTILOAD's reads whole encodings only, and MULTILOAD's source fields run as far as
the stream does. -/
theorem encodeOfDecode : Obligations.EncodeOfDecode := by
  unfold Obligations.EncodeOfDecode
  intro c bs i rest hlegal h
  have hc : c.ratBytes ≤ 4 := Machine.width_le_four hlegal .rat
  obtain ⟨o, bs', rfl, hbody⟩ := decode_eq_instr h
  by_cases ho : o = .multiload
  · subst ho
    obtain ⟨ot, dst, count, fields, srcs, rfl, rfl, hops⟩ := takeMultiload_some hbody
    obtain ⟨hwf, ⟨hlen, rfl⟩ | ⟨hlt, rfl, part, rfl, hpart⟩⟩ := takeOperands_some hc hops
    · refine .inl ⟨by simp only [Instr.wf, hlen, hwf, beq_self_eq_true, Bool.and_self], ?_⟩
      simp [encode, Instr.opcode, Instr.encodeBody]
    · refine .inr ⟨ot, dst, count, srcs, part, rfl, hlt, hwf, rfl, ?_, hpart⟩
      simp [encode, Instr.opcode, Instr.encodeBody]
  · obtain ⟨e, rfl, hop, hread⟩ := answers_takeBody c ho bs' i rest hbody
    obtain ⟨hwf, rfl⟩ := hread hc
    exact .inl ⟨hwf, by rw [encode, hop, List.cons_append]⟩

/-- Settles O3: by evaluation of the decoder on the four words. -/
theorem specWordsDecode : Obligations.SpecWordsDecode := by
  unfold Obligations.SpecWordsDecode
  exact ⟨by decide, by decide, by decide, by decide⟩

end Sys2Proof

/-! PROOF. What every transition keeps, and what every instruction leaves alone (10_state.md R32 to R36; 20_memory.md
R107; 60_exceptions.md R400 to R409, R421). A transition is made of the effects of `AgentEffect` and `InstrEffect`, the
engine registers, and a new program store: a property that these keep is kept by every transition (`step_keeps`). -/

namespace Sys2Proof.Machine

/-! ### The parts of a transition -/

/-- The end of an instruction's step changes engine registers only. -/
theorem StepEnds.registers {i : Instr} {s u t : State} (h : StepEnds i s u t) :
    ∃ pc flags status, t = { u with pc := pc, flags := flags, status := status } := by
  rcases h with ⟨-, x, rfl⟩ | ⟨-, rfl⟩ | ⟨e, -, rfl⟩ | rfl
  · exact ⟨x, u.flags, u.status, rfl⟩
  · exact ⟨s.pc + 1, u.flags ||| haltedBit, u.status, rfl⟩
  · exact ⟨s.pc, _, _, rfl⟩
  · exact ⟨s.pc, _, _, rfl⟩

/-- What `clear()` and RESET have in common is made of RESET's effects (R392, R451). -/
theorem clearAll_effect (s : State) : InstrEffect .reset s (clearAll s) :=
  clearBank_ofInstr _ _ (.clearStack (.clearMap (.turn none (.clearMem (.turn none .refl) rfl)) rfl) rfl)

/-- A control operation is refused, or it is a `clear()` behind a load that fits or behind nothing (R415, R451). -/
theorem controlAct_cases (c : Control) (s : State) :
    controlAct c s = s ∨ (c = .clear ∧ controlAct c s = hostClear s) ∨
      ∃ bytes, c = .load bytes ∧ bytes.length ≤ s.cfg.progCap ∧
        controlAct c s = hostClear { s with prog := loadedProgram bytes } := by
  cases c with
  | clear => exact .inr (.inl ⟨rfl, rfl⟩)
  | load bytes =>
    by_cases hfit : s.cfg.progCap < bytes.length
    · exact .inl (if_pos hfit)
    · exact .inr (.inr ⟨bytes, rfl, Nat.le_of_not_lt hfit, if_neg hfit⟩)

section
variable {Inv : State → Prop}
  (hregs : ∀ s pc flags status inputs, Inv s →
    Inv { s with pc := pc, flags := flags, status := status, inputs := inputs })
  (hinstr : ∀ i s t, InstrEffect i s t → Inv s → Inv t)
include hregs hinstr

theorem exec_keeps {i : Instr} {s t : State} (hs : Inv s) (h : exec i s = .next t) : Inv t := by
  obtain ⟨u, hu, hend⟩ := exec_effect i s t h
  obtain ⟨pc, flags, status, rfl⟩ := hend.registers
  exact hregs u pc flags status u.inputs (hinstr i s u hu hs)

theorem engineStep_keeps {s t : State} (hs : Inv s) (h : engineStep s = .next t) : Inv t := by
  rcases engineStep_cases h with ⟨-, rfl⟩ | ⟨-, ⟨i, -, -, hexec⟩ | ⟨e, -, rfl⟩⟩
  · exact hs
  · exact exec_keeps hregs hinstr (hregs s s.pc s.flags _ s.inputs hs) hexec
  · exact hregs s s.pc _ _ s.inputs hs

theorem hostClear_keeps {s : State} (hs : Inv s) : Inv (hostClear s) :=
  hregs (clearAll s) 0 0 0 _ (hinstr .reset s _ (clearAll_effect s) hs)

/-- A property that does not read the engine registers or the schedule, and that the effects of agents and instructions
and a load that fits keep, is kept by every transition. -/
theorem step_keeps (hagent : ∀ s t, AgentEffect s t → Inv s → Inv t)
    (hload : ∀ s bytes, bytes.length ≤ s.cfg.progCap → Inv s → Inv { s with prog := loadedProgram bytes })
    {s t : State} (hs : Inv s) (h : step s = .next t) : Inv t := by
  have hrest : ∀ rest, Inv { s with inputs := rest } := fun rest => hregs s s.pc s.flags s.status rest hs
  rcases step_cases h with ⟨m, rest, -, rfl⟩ | ⟨c, rest, -, rfl⟩ | ⟨-, hengine⟩
  · exact hagent _ _ (agentMove_effect m _) (hrest rest)
  · rcases controlAct_cases c { s with inputs := rest } with hc | ⟨-, hc⟩ | ⟨bytes, -, hfit, hc⟩ <;> rw [hc]
    · exact hrest rest
    · exact hostClear_keeps hregs hinstr (hrest rest)
    · exact hostClear_keeps hregs hinstr (hload _ bytes hfit (hrest rest))
  · exact engineStep_keeps hregs hinstr (hrest _) hengine

end

/-! ### The invariants of the stores and of the bank -/

theorem loadedProgram_wf {bytes : List Byte} {cap : Nat} (h : bytes.length ≤ cap) :
    Memory.wf cap (loadedProgram bytes) = true :=
  Memory.wf_writeBytes (Memory.wf_nil cap) (by rwa [Nat.zero_add])

/-- Settles O12: a store within bounds keeps a canonical form, and only CALL, RETURN and a clear touch the stack. -/
theorem stepKeepsStores : Obligations.StepKeepsStores := by
  unfold Obligations.StepKeepsStores
  intro s t hs h
  refine step_keeps (Inv := State.storesCanonical) (fun _ _ _ _ _ hs => hs) (fun _ _ _ => InstrEffect.storesCanonical)
    (fun _ _ => AgentEffect.storesCanonical) (fun s bytes hfit hs => ?_) hs h
  obtain ⟨hmem, -, hstack⟩ := hs
  exact ⟨hmem, loadedProgram_wf hfit, hstack⟩

/-- Settles O13: only PIDINIT binds addresses and a sample period, and it checks them. -/
theorem stepKeepsBank : Obligations.StepKeepsBank := by
  unfold Obligations.StepKeepsBank
  intro s t hs h
  exact step_keeps (Inv := State.bankSound) (fun _ _ _ _ _ hs => hs) (fun _ _ _ => InstrEffect.bankSound)
    (fun _ _ => AgentEffect.bankSound) (fun _ _ _ hs => hs) hs h

/-! ### The flags -/

/-- The flags that a step sets: none, HALTED by HALT, ERROR and HALTED by a fault, and DIVIDE_ZERO with them. -/
def raisedFlags : List (BitVec 3) := [0b000, 0b001, 0b011, 0b111]

theorem exec_flags {i : Instr} {s t : State} (h : exec i s = .next t) :
    ∃ g ∈ raisedFlags, t.flags = s.flags ||| g := by
  obtain ⟨u, hu, hend⟩ := exec_effect i s t h
  obtain ⟨-, hflags, -⟩ := hu.regs
  rcases hend with ⟨-, x, rfl⟩ | ⟨-, rfl⟩ | ⟨e, -, rfl⟩ | rfl
  · exact ⟨0b000, by decide, by simpa using hflags⟩
  · exact ⟨0b001, by decide, by rw [← hflags]; rfl⟩
  · exact ⟨0b011, by decide, by rw [haltWith_flags, hflags]; rfl⟩
  · exact ⟨0b111, by decide, by rw [haltWith_flags, setFlags_flags, hflags, BitVec.or_assoc]; rfl⟩

theorem engineStep_flags {s t : State} (h : engineStep s = .next t) :
    ∃ g ∈ raisedFlags, t.flags = s.flags ||| g := by
  rcases engineStep_cases h with ⟨-, rfl⟩ | ⟨-, ⟨i, -, -, hexec⟩ | ⟨e, -, rfl⟩⟩
  · exact ⟨0b000, by decide, BitVec.or_zero.symm⟩
  · exact (exec_flags hexec :)
  · exact ⟨0b011, by decide, rfl⟩

/-- Without a control operation of the host, a transition sets flags of one fault or of HALT, or none. -/
theorem step_flags {s t : State} (hctl : ∀ c rest, s.inputs ≠ .control c :: rest) (h : step s = .next t) :
    ∃ g ∈ raisedFlags, t.flags = s.flags ||| g := by
  rcases step_cases h with ⟨m, rest, -, rfl⟩ | ⟨c, rest, hi, -⟩ | ⟨-, hengine⟩
  · obtain ⟨-, hflags, -⟩ := agentMove_sameEngine m { s with inputs := rest }
    exact ⟨0b000, by decide, by simpa using hflags⟩
  · exact absurd hi (hctl c rest)
  · exact (engineStep_flags hengine :)

theorem flagsCoherent_of_raised {s t : State} {g : BitVec 3} (hg : g ∈ raisedFlags) (h : t.flags = s.flags ||| g)
    (hs : s.flagsCoherent) : t.flagsCoherent := by
  unfold State.flagsCoherent State.error State.halted State.divideZero at hs ⊢
  rw [h]
  generalize s.flags = f at hs
  clear h
  revert f g
  decide

theorem flagsCoherent_hostClear (s : State) : (hostClear s).flagsCoherent := by
  unfold State.flagsCoherent State.error State.halted State.divideZero hostClear
  rw [restart_flags]
  decide

/-- Settles O14: the host's `clear()` leaves no flag, and every other transition sets ERROR only with HALTED and
DIVIDE_ZERO only with both. -/
theorem stepKeepsFlags : Obligations.StepKeepsFlags := by
  unfold Obligations.StepKeepsFlags
  intro s t hs h
  by_cases hctl : ∀ c rest, s.inputs ≠ .control c :: rest
  · obtain ⟨g, hg, hflags⟩ := step_flags hctl h
    exact flagsCoherent_of_raised hg hflags hs
  · obtain ⟨c, rest, hi⟩ : ∃ c rest, s.inputs = .control c :: rest := by simpa using hctl
    have ht : t = controlAct c { s with inputs := rest } := by
      rw [step, hi] at h
      injection h with h
      exact h.symm
    subst ht
    rcases controlAct_cases c { s with inputs := rest } with hc | ⟨-, hc⟩ | ⟨bytes, -, -, hc⟩ <;> rw [hc]
    · exact hs
    · exact flagsCoherent_hostClear _
    · exact flagsCoherent_hostClear _

/-- Settles O8: no transition but a control operation takes a flag back, and a halted engine's step is empty. -/
theorem haltedUntilClear : Obligations.HaltedUntilClear := by
  unfold Obligations.HaltedUntilClear
  intro s t hctl h
  refine ⟨?_, fun hhalted => ?_⟩
  · obtain ⟨g, -, hflags⟩ := step_flags hctl h
    rw [hflags]
    exact BitVec.eq_of_getLsbD_eq fun k _ => by simpa using Or.inl
  · rcases step_cases h with ⟨m, rest, -, rfl⟩ | ⟨c, rest, hi, -⟩ | ⟨-, hengine⟩
    · exact agentMove_sameEngine m { s with inputs := rest }
    · exact absurd hi (hctl c rest)
    · rcases engineStep_cases hengine with ⟨-, rfl⟩ | ⟨hrun, -⟩
      · exact sameEngine.refl s
      · exact absurd hhalted (by simpa [State.halted] using hrun)

/-! ### The step (R400) -/

/-- Settles O6: the stream of the statement is the one that the step decodes. -/
theorem stepRunsDecoded : Obligations.StepRunsDecoded := by
  unfold Obligations.StepRunsDecoded
  intro s i rest hnext hrun hd
  have hdecode : decode s.cfg (programFrom s.pc s) = .instr i rest := hd
  rw [step_eq_decode hnext hrun, hdecode]
  rfl

/-- Settles O7: the engine's step tests HALTED before anything else. -/
theorem haltedStepChangesNothing : Obligations.HaltedStepChangesNothing := by
  unfold Obligations.HaltedStepChangesNothing
  intro s hnext hhalted
  rw [step_of_engineNext hnext]
  exact if_pos hhalted

theorem exec_eq_conclude (i : Instr) (s : State) : ∃ r, exec i s = conclude s.pc r := by
  cases i with
  | halt => exact ⟨.done (s.pc + 1) (s.setFlags haltedBit), rfl⟩
  | reset => exact ⟨.raised .resetRequested (clearAll s), rfl⟩
  | _ => exact ⟨_, rfl⟩

theorem exec_answers_next (i : Instr) (s : State) : ∃ t, exec i s = .next t := by
  obtain ⟨r, hr⟩ := exec_eq_conclude i s
  obtain ⟨t, ht, -⟩ := conclude_next s.pc r
  exact ⟨t, hr.trans ht⟩

theorem engineStep_answers_next (s : State) : ∃ t, engineStep s = .next t := by
  cases hh : s.halted with
  | true => exact ⟨s, if_pos hh⟩
  | false =>
    rw [engineStep_running hh]
    split
    · exact exec_answers_next ..
    all_goals exact ⟨_, rfl⟩

theorem step_answers_next (s : State) : ∃ t, step s = .next t := by
  unfold step
  split
  · exact engineStep_answers_next _
  · exact engineStep_answers_next _
  · exact ⟨_, rfl⟩
  · exact ⟨_, rfl⟩

theorem AgentEffect.cfg {s t : State} (h : AgentEffect s t) : t.cfg = s.cfg := by
  obtain ⟨-, -, -, -, -, -, hcfg⟩ := h.sameEngine
  exact hcfg

/-- Settles O11: every arm ends in `conclude`, which answers a next state, and no effect touches the parameters. -/
theorem stepAnswersNext : Obligations.StepAnswersNext := by
  unfold Obligations.StepAnswersNext
  refine ⟨fun s => ?_, fun i s => ?_⟩
  · obtain ⟨t, ht⟩ := step_answers_next s
    exact ⟨t, ht, step_keeps (Inv := fun u => u.cfg = s.cfg) (fun _ _ _ _ _ hs => hs)
      (fun _ _ _ hu hs => hu.cfg.trans hs) (fun _ _ hu hs => hu.cfg.trans hs) (fun _ _ _ hs => hs) rfl ht⟩
  · obtain ⟨t, ht⟩ := exec_answers_next i s
    exact ⟨t, ht, exec_keeps (Inv := fun u => u.cfg = s.cfg) (fun _ _ _ _ _ hs => hs)
      (fun _ _ _ hu hs => hu.cfg.trans hs) rfl ht⟩

/-- Settles O19: neither an agent nor an instruction writes the program store, and `clear()` keeps it. -/
theorem programStoreOnlyLoaded : Obligations.ProgramStoreOnlyLoaded := by
  unfold Obligations.ProgramStoreOnlyLoaded
  intro s t hload h
  have hregs : ∀ (u : State) pc flags status inputs, u.prog = s.prog →
      ({ u with pc := pc, flags := flags, status := status, inputs := inputs } : State).prog = s.prog :=
    fun _ _ _ _ _ hu => hu
  have hinstr : ∀ i u v, InstrEffect i u v → u.prog = s.prog → v.prog = s.prog := by
    intro i u v hv hu
    obtain ⟨-, -, -, hprog, -⟩ := hv.regs
    exact hprog.trans hu
  rcases step_cases h with ⟨m, rest, -, rfl⟩ | ⟨c, rest, hi, rfl⟩ | ⟨-, hengine⟩
  · obtain ⟨-, -, -, -, -, hprog, -⟩ := agentMove_sameEngine m { s with inputs := rest }
    exact hprog
  · rcases controlAct_cases c { s with inputs := rest } with hc | ⟨-, hc⟩ | ⟨bytes, rfl, -⟩
    · rw [hc]
    · rw [hc]
      exact hostClear_keeps (Inv := fun u => u.prog = s.prog) hregs hinstr rfl
    · exact absurd hi (hload bytes rest)
  · exact engineStep_keeps (Inv := fun u => u.prog = s.prog) (s := { s with inputs := s.inputs.tail }) hregs hinstr rfl
      hengine

/-! ### `status` and `flags` after a step (R34, R401 to R403) -/

theorem toByte_eq_zero_iff (o : Opcode) : o.toByte = 0 ↔ o = .halt := by
  cases o <;> decide

theorem opcode_eq_halt_iff (i : Instr) : i.opcode = .halt ↔ i = .halt := by
  cases i <;> simp [Instr.opcode]

/-- The status is seeded with the opcode of the instruction that the step decodes. -/
theorem opcodeByte_of_decode {s : State} {i : Instr} {rest : List Byte}
    (h : decode s.cfg (programFrom s.pc s) = .instr i rest) : s.opcodeByte = i.opcode.toByte := by
  obtain ⟨bs, hbs⟩ := decode_instr_head h
  unfold State.opcodeByte
  split
  next hlt =>
    rw [programFrom_cons hlt] at hbs
    exact (List.cons.inj hbs).1
  next hge =>
    rw [programFrom_past (Nat.le_of_not_lt hge)] at hbs
    cases hbs

theorem opcodeByte_eq_zero_iff {s : State} {i : Instr} {rest : List Byte}
    (h : decode s.cfg (programFrom s.pc s) = .instr i rest) : s.opcodeByte = 0 ↔ i = .halt := by
  rw [opcodeByte_of_decode h, toByte_eq_zero_iff, opcode_eq_halt_iff]

/-- What the statement of O9 says of the code that a step from `s` leaves. -/
def StatusCode (s t : State) (code : Byte) : Prop :=
  t.status = s.pc ++ s.opcodeByte ++ code ∧ code.toNat ≤ 9 ∧
    (code = 0 → t.error = s.error ∧ t.divideZero = s.divideZero ∧ (t.halted = true ↔ s.opcodeByte = 0)) ∧
    (code ≠ 0 → t.error = true ∧ t.halted = true ∧ t.pc = s.pc) ∧
    (code = 4 → t.divideZero = true) ∧ (code ≠ 4 → t.divideZero = s.divideZero)

theorem code_toNat_le (e : ErrorCode) : e.code.toNat ≤ 9 := by cases e <;> decide

theorem code_ne_zero (e : ErrorCode) : e.code ≠ 0 := by cases e <;> decide

theorem code_eq_four_iff (e : ErrorCode) : e.code = 4 ↔ e = .divideByZero := by cases e <;> decide

/-- A step without a fault: the code is 0. -/
theorem statusCode_zero {s t : State} (hstatus : t.status = s.pc ++ s.opcodeByte ++ (0 : Byte))
    (herror : t.error = s.error) (hdz : t.divideZero = s.divideZero) (hhalt : t.halted = true ↔ s.opcodeByte = 0) :
    StatusCode s t 0 :=
  ⟨hstatus, by decide, fun _ => ⟨herror, hdz, hhalt⟩, fun h => absurd rfl h, fun h => absurd h (by decide),
    fun _ => hdz⟩

/-- A step that takes the fault `e`. -/
theorem statusCode_fault {s t : State} {e : ErrorCode} (hstatus : t.status = s.pc ++ s.opcodeByte ++ e.code)
    (hpc : t.pc = s.pc) (hflags : t.flags = s.flags ||| if e = .divideByZero then 0b111 else 0b011) :
    StatusCode s t e.code := by
  have herror : t.error = true := by
    rw [State.error, hflags, BitVec.getLsbD_or]
    split <;> simp
  have hhalted : t.halted = true := by
    rw [State.halted, hflags, BitVec.getLsbD_or]
    split <;> simp
  refine ⟨hstatus, code_toNat_le e, fun h => absurd h (code_ne_zero e), fun _ => ⟨herror, hhalted, hpc⟩,
    fun h => ?_, fun h => ?_⟩
  · rw [State.divideZero, hflags, if_pos ((code_eq_four_iff e).mp h), BitVec.getLsbD_or]
    simp
  · rw [State.divideZero, hflags, if_neg fun he => h ((code_eq_four_iff e).mpr he), BitVec.getLsbD_or]
    simp [State.divideZero]

/-- The instruction that a running engine's step decodes. -/
theorem exec_seed_statusCode {s t : State} {i : Instr} {rest : List Byte} (hrun : s.halted = false)
    (hd : decode s.cfg (programFrom s.pc s) = .instr i rest) (h : exec i (s.seed i.opcode.toByte) = .next t) :
    ∃ code, StatusCode s t code := by
  rw [← opcodeByte_of_decode hd] at h
  obtain ⟨u, hu, hend⟩ := exec_effect i _ t h
  obtain ⟨hpc, hflags, hstatus, -⟩ := hu.regs
  rw [seed_flags] at hflags
  rw [seed_status] at hstatus
  rcases hend with ⟨hne, x, rfl⟩ | ⟨rfl, rfl⟩ | ⟨e, he, rfl⟩ | rfl
  · refine ⟨0, statusCode_zero hstatus (congrArg (·.getLsbD 1) hflags) (congrArg (·.getLsbD 2) hflags) ?_⟩
    rw [opcodeByte_eq_zero_iff hd, State.halted, hflags]
    exact iff_of_false (by simpa [State.halted] using hrun) hne
  · refine ⟨0, statusCode_zero hstatus ?_ ?_ ?_⟩
    · simp [State.error, hflags, haltedBit]
    · simp [State.divideZero, hflags, haltedBit]
    · rw [opcodeByte_eq_zero_iff hd]
      exact iff_of_true (by simp [State.halted, haltedBit]) rfl
  · refine ⟨e.code, statusCode_fault ?_ rfl ?_⟩
    · rw [haltWith_status, hstatus, seed_or]
    · rw [haltWith_flags, hflags, if_neg he]; rfl
  · refine ⟨ErrorCode.divideByZero.code, statusCode_fault ?_ rfl ?_⟩
    · rw [haltWith_status, setFlags_status, hstatus, seed_or]
    · rw [haltWith_flags, setFlags_flags, hflags, BitVec.or_assoc, if_pos rfl]; rfl

/-- Settles O9: an instruction ends with its seed, or in the one fault entry, which ORs the code into the seed. -/
theorem statusAfterStep : Obligations.StatusAfterStep := by
  unfold Obligations.StatusAfterStep
  intro s t hnext hrun h
  rw [step_of_engineNext hnext] at h
  rcases engineStep_cases h with ⟨hhalted, -⟩ | ⟨-, ⟨i, rest, hd, hexec⟩ | ⟨e, he, rfl⟩⟩
  · exact absurd hhalted (by simpa [State.halted] using hrun)
  · exact exec_seed_statusCode (s := { s with inputs := s.inputs.tail }) hrun hd hexec
  · exact ⟨e.code, statusCode_fault (s := s) rfl rfl (by rw [if_neg he])⟩

/-! ### Reset -/

/-- Settles O15: the stores are empty, the stack is full of zeros, and no controller is initialized. -/
theorem resetIsSound : Obligations.ResetIsSound := by
  unfold Obligations.ResetIsSound
  intro c
  refine ⟨⟨rfl, rfl, List.length_replicate, Nat.zero_le _⟩, fun i hi => ?_, ?_⟩
  · simp [State.resetWith, Pid.resetValue] at hi
  · simp [State.flagsCoherent, State.error, State.divideZero, State.resetWith]

/-- Settles O16: by the definition of the reset state. -/
theorem resetValues : Obligations.ResetValues := by
  unfold Obligations.ResetValues
  refine ⟨rfl, ?_, ?_⟩
  · unfold Config.Params.legal
    decide
  · rintro c s rfl
    refine ⟨rfl, rfl, rfl, rfl, rfl, rfl, List.length_replicate, fun v hv => List.eq_of_mem_replicate hv, fun _ => rfl,
      fun k => ?_, fun k => ?_⟩
    · exact Vector.getElem_replicate _
    · exact Vector.getElem_replicate _

/-! ### Frames -/

theorem StepEnds.noFault {i : Instr} {s u t : State} (h : StepEnds i s u t) (hflags : u.flags = s.flags)
    (herror : t.error = false) : t.status = u.status ∧ (i ≠ .halt → t.flags = s.flags) := by
  have hentry : ∀ (e : ErrorCode) (v : State), (haltWith e s.pc v).error = true := by
    intro e v
    simp [State.error, errorBit]
  rcases h with ⟨-, x, rfl⟩ | ⟨rfl, rfl⟩ | ⟨e, -, rfl⟩ | rfl
  · exact ⟨rfl, fun _ => hflags⟩
  · exact ⟨rfl, fun h => absurd rfl h⟩
  · exact absurd herror (by simp [hentry])
  · exact absurd herror (by simp [hentry])

/-- Settles O26: the effects of an instruction and of the other agents leave the engine's own state to the end of the
step, and to the stack's own instructions. -/
theorem engineFrameUnderRaces : Obligations.EngineFrameUnderRaces := by
  unfold Obligations.EngineFrameUnderRaces
  intro s t i h
  obtain ⟨u, hu, hend⟩ := exec_effect i s t h
  obtain ⟨-, hflags, hstatus, hprog, hcfg, hstack⟩ := hu.regs
  refine ⟨?_, ?_, fun herror => ?_, fun hcall hret hreset => ?_⟩
  · obtain ⟨pc, flags, status, rfl⟩ := hend.registers
    exact hprog
  · obtain ⟨pc, flags, status, rfl⟩ := hend.registers
    exact hcfg
  · obtain ⟨htstatus, htflags⟩ := hend.noFault hflags herror
    exact ⟨htstatus.trans hstatus, htflags⟩
  · obtain ⟨pc, flags, status, rfl⟩ := hend.registers
    exact hstack ⟨hcall, hret, hreset⟩

/-- What an instruction leaves as it was in state `s` when no other agent acts. -/
structure QuietFrame (i : Instr) (s t : State) : Prop where
  debug : t.debug = s.debug
  timeBase : t.timeBase = s.timeBase
  seq : t.seq = s.seq
  netPending : t.netPending = s.netPending
  hostPending : t.hostPending = s.hostPending
  inputs : t.inputs = s.inputs
  mem : i ≠ .reset → ∀ a, (a < (i.storeSpan s.cfg).1 ∨ (i.storeSpan s.cfg).1 + (i.storeSpan s.cfg).2 ≤ a) →
    t.mem.read a = s.mem.read a
  map : i ≠ .reset → ∀ k : SlotId, i.mapsSlot ≠ some (BitVec.ofNat 4 k.val) → t.map[k] = s.map[k]
  pid : i ≠ .reset → ∀ k : PidId, i.controlsPid ≠ some (BitVec.ofNat 4 k.val) → t.pid[k] = s.pid[k]

theorem QuietFrame.quiet {i : Instr} {s t : State} (h : QuietFrame i s t) (hs : s.quiet) : t.quiet := by
  obtain ⟨hinputs, hseq, hhost⟩ := hs
  exact ⟨h.inputs.trans hinputs, h.seq.trans hseq, h.hostPending.trans hhost⟩

theorem InstrEffect.quietFrame {i : Instr} {s t : State} (h : InstrEffect i s t) (hs : s.quiet) :
    QuietFrame i s t := by
  induction h with
  | refl => exact ⟨rfl, rfl, rfl, rfl, rfl, rfl, fun _ _ _ => rfl, fun _ _ _ => rfl, fun _ _ _ => rfl⟩
  | turn held _ ih =>
    obtain ⟨hinputs, -⟩ := ih.quiet hs
    rw [turn_of_inputs_nil held _ hinputs]
    exact ih
  | acquire k _ ih =>
    obtain ⟨-, hseq, hhost⟩ := ih.quiet hs
    rw [acquire_of_quiet k _ hseq hhost]
    exact ih
  | store a bs _ hlo hhi _ ih =>
    exact { ih with
      mem := fun hi x hx => (Memory.read_writeBytes_of_outside (by omega)).trans (ih.mem hi x hx) }
  | slot k m _ hk ih =>
    exact { ih with
      map := fun hi j hj => by
        have hne : j ≠ k := fun e => hj (e ▸ hk)
        rw [setSlot_get, if_neg hne]
        exact ih.map hi j hj }
  | pid k p _ hk _ ih =>
    exact { ih with
      pid := fun hi j hj => by
        have hne : j ≠ k := fun e => hj (e ▸ hk)
        rw [setPid_get, if_neg hne]
        exact ih.pid hi j hj }
  | stack p v _ _ _ _ ih => exact { ih with }
  | clearStack _ _ ih => exact { ih with }
  | clearMem _ hreset ih => exact { ih with mem := fun hi => absurd hreset hi }
  | clearMap _ hreset ih => exact { ih with map := fun hi => absurd hreset hi }
  | clearPid k _ hreset ih => exact { ih with pid := fun hi => absurd hreset hi }

theorem exec_quietFrame {i : Instr} {s t : State} (hs : s.quiet) (h : exec i s = .next t) : QuietFrame i s t := by
  obtain ⟨u, hu, hend⟩ := exec_effect i s t h
  obtain ⟨pc, flags, status, rfl⟩ := hend.registers
  exact { hu.quietFrame hs with }

/-- Settles O24: an instruction's own stores lie in its span, and no other agent stores. -/
theorem memoryFrame : Obligations.MemoryFrame := by
  unfold Obligations.MemoryFrame
  intro s t i a hs hi h ha
  exact (exec_quietFrame hs h).mem hi a ha

/-- Settles O25: `QuietFrame` for the other agents' state and the tables, O26 for the engine's own. -/
theorem registerFrame : Obligations.RegisterFrame := by
  unfold Obligations.RegisterFrame
  intro s t i hs h
  have hframe := exec_quietFrame hs h
  obtain ⟨hprog, hcfg, hfault, hstack⟩ := engineFrameUnderRaces s t i h
  exact ⟨hframe.debug, hframe.timeBase, hprog, hcfg, hframe.seq, hframe.netPending, hframe.hostPending, hframe.inputs,
    hfault, hstack, hframe.map, hframe.pid⟩

end Sys2Proof.Machine

/-! PROOF. Faults (60_exceptions.md R403 to R407): a faulting instruction leaves the state as it was but for the fault
entry (R406), a failed bounds check is such a fault (R81, R82, R405), and so are a divisor of 0 (R233, R234) and the
rational type of a bitwise instruction (R150, R248). An instruction reads, then checks, then writes: `Res.Untouched`
says of a part that it has only read, `Res.FaultsClean` of a part that it raises nothing after a write. -/

namespace Sys2Proof.Machine

/-- The fault entry at the instruction's own address, from a state that is left as it was (R403). -/
theorem haltWith_self (e : ErrorCode) (s : State) : haltWith e s.pc s = s.faulted e.code := rfl

/-- An instruction that comes to a failed bounds check from the state it began in. -/
theorem exec_of_violation {i : Instr} {s : State} {r : Res Addr} (he : exec i s = conclude s.pc r)
    (h : r = .raised .memoryAccessViolation s) : exec i s = .next (s.faulted 1) := by
  rw [he, h, conclude_raised, haltWith_self]
  rfl

theorem execAfter_of_violation {i : Instr} {s : State} {n : Nat} {r : Res Unit}
    (he : exec i s = concludeAfter s.pc n r) (h : r = .raised .memoryAccessViolation s) :
    exec i s = .next (s.faulted 1) := by
  rw [he, h, concludeAfter_raised, haltWith_self]
  rfl

/-! ### Results that leave the state alone until they write -/

/-- The part has only read: state `s` is as it was, but for a flag where it raises a fault. -/
def Res.Untouched {α : Type} (s : State) : Res α → Prop
  | .done _ t => t = s
  | .raised _ t => t = { s with flags := t.flags }

/-- Where the part raises a fault it has only read, and where it does not it has set no ERROR. -/
def Res.FaultsClean {α : Type} (s : State) : Res α → Prop
  | .done _ t => t.error = s.error
  | .raised _ t => t = { s with flags := t.flags }

theorem Res.Untouched.faultsClean {α : Type} {s : State} {r : Res α} (h : r.Untouched s) : r.FaultsClean s := by
  cases r with
  | done a t => exact congrArg State.error h
  | raised e t => exact h

theorem Res.Untouched.bind {α β : Type} {s : State} {r : Res α} {f : α → State → Res β} (h : r.Untouched s)
    (hf : ∀ a, (f a s).Untouched s) : (r.bind f).Untouched s := by
  cases r with
  | done a t => cases h; exact hf a
  | raised e t => exact h

theorem Res.Untouched.bind_clean {α β : Type} {s : State} {r : Res α} {f : α → State → Res β} (h : r.Untouched s)
    (hf : ∀ a, (f a s).FaultsClean s) : (r.bind f).FaultsClean s := by
  cases r with
  | done a t => cases h; exact hf a
  | raised e t => exact h

section
variable {s : State} (h : s.inputs = [])
include h

theorem loadTyped_untouched (held : Option PidId) (t : Ty) (a : Nat) : (loadTyped held t a s).Untouched s := by
  rw [loadTyped_eq, turn_of_inputs_nil held s h]
  split <;> rfl

theorem storeTyped_clean (t : Ty) (a : Nat) (v : Int) : (storeTyped t a v s).FaultsClean s := by
  rw [storeTyped_eq, turn_of_inputs_nil none s h]
  split <;> rfl

theorem evalOperand_untouched (t : Ty) (o : Operand) : (evalOperand t o s).Untouched s := by
  cases o with
  | lit raw => rfl
  | addr ptr => exact loadTyped_untouched h none t ptr.toNat

theorem evalTarget_untouched (o : Operand) : (evalTarget o s).Untouched s :=
  (evalOperand_untouched h .u16 o).bind fun _ => rfl

theorem readTime_untouched : (readTime s).Untouched s := turn_of_inputs_nil none s h

theorem inPlace_clean (t : Ty) (dst : Addr) (src : Operand) {op : Int → Int → State → Res Int}
    (hop : ∀ d v, (op d v s).Untouched s) : (inPlace t dst src op s).FaultsClean s :=
  (evalOperand_untouched h t src).bind_clean fun v => (loadTyped_untouched h none t dst.toNat).bind_clean fun d =>
    (hop d v).bind_clean fun r => storeTyped_clean h t dst.toNat r

theorem bitwiseInPlace_clean (t : Ty) (dst : Addr) (src : Operand) (op : Int → Int → Int) :
    (bitwiseInPlace t dst src op s).FaultsClean s := by
  unfold bitwiseInPlace
  split
  · rfl
  · exact inPlace_clean h t dst src fun _ _ => rfl

theorem copyBlock_clean (src len dst : Nat) : (copyBlock src len dst s).FaultsClean s := by
  unfold copyBlock
  rw [turn_of_inputs_nil none s h]
  split
  · rfl
  · split
    · show (turn none s).error = s.error
      rw [turn_of_inputs_nil none s h]
    · rfl

theorem mapEntry_clean (id : Nat) (m : MapSlot) : (mapEntry id m (turn none s)).FaultsClean s := by
  rw [turn_of_inputs_nil none s h]
  unfold mapEntry
  split <;> rfl

theorem unmap_clean (id : Nat) : (unmap id (turn none s)).FaultsClean s := by
  rw [turn_of_inputs_nil none s h]
  unfold unmap
  split <;> rfl

/-- The store of a checked cell raises nothing, whatever the table operation before it has changed (R331). -/
theorem urlmapCheck_clean (id : Nat) (dst : Addr) :
    (if inBounds dst.toNat 1 s then
      (checkMap id true (turn none s)).bind fun st u => storeTyped .u8 dst.toNat st.toNat u
     else .raised .memoryAccessViolation s).FaultsClean s := by
  rw [turn_of_inputs_nil none s h]
  split
  next hb =>
    have hstore : ∀ (u : State) (v : Int), u.inputs = [] → u.cfg = s.cfg → u.error = s.error →
        (storeTyped .u8 dst.toNat v u).FaultsClean s := by
      intro u v hinputs hcfg herror
      have hbu : inBounds dst.toNat (Ty.u8.width u.cfg) u = true := by
        rw [inBounds_iff, hcfg]
        exact (inBounds_iff _ _ _).mp hb
      rw [storeTyped_eq, turn_of_inputs_nil none u hinputs, if_pos hbu]
      exact herror
    unfold checkMap
    split
    · rw [Res.bind_done]
      split
      · exact hstore _ _ h rfl rfl
      · exact hstore _ _ h rfl rfl
    · rfl
  next => rfl

end

theorem divideOr_untouched (f : Int → Int → Int) (d v : Int) (s : State) : (divideOr f d v s).Untouched s := by
  unfold divideOr
  split <;> rfl

theorem push_clean (v : Addr) (s : State) : (push v s).FaultsClean s := by
  unfold push
  split <;> rfl

theorem pop_clean (s : State) : (pop s).FaultsClean s := by
  unfold pop
  split <;> rfl

theorem withPidId_clean {ot : Optype} {s : State} {body : PidId → Res Unit} (hb : ∀ k, (body k).FaultsClean s) :
    (withPidId ot s body).FaultsClean s := by
  unfold withPidId
  split
  · exact hb _
  · rfl

section
variable {s : State} (hq : s.quiet)
include hq

theorem initOp_clean (i : PidId) (a : PidInitArgs) : (initOp i a s).FaultsClean s := by
  unfold initOp
  simp only [beginBank_of_quiet i s hq, turn_of_inputs_nil _ s hq.1]
  split
  · rfl
  · split <;> rfl

theorem setAutomatic_clean (i : PidId) : (setAutomatic i s).FaultsClean s := by
  unfold setAutomatic
  simp only [beginBank_of_quiet i s hq]
  split
  · exact (loadTyped_untouched hq.1 ..).bind_clean fun _ => (loadTyped_untouched hq.1 ..).bind_clean fun _ => rfl
  · rfl

end

/-! ### The instructions -/

/-- The instruction `i` ends as `conclude` does a part of it that raises no fault after a write. -/
def ExecFaultsClean (i : Instr) (s : State) : Prop := ∃ r, exec i s = conclude s.pc r ∧ r.FaultsClean s

theorem ExecFaultsClean.of_conclude {i : Instr} {s : State} {r : Res Addr} (he : exec i s = conclude s.pc r)
    (h : r.FaultsClean s) : ExecFaultsClean i s := ⟨r, he, h⟩

theorem ExecFaultsClean.of_concludeAfter {i : Instr} {s : State} {n : Nat} {r : Res Unit}
    (he : exec i s = concludeAfter s.pc n r) (h : r.FaultsClean s) : ExecFaultsClean i s := by
  refine ⟨_, he, ?_⟩
  cases r with
  | done a t => exact h
  | raised e t => exact h

/-- Every instruction but MULTILOAD, which stores element by element, and RESET raises no fault after a write. -/
theorem exec_faultsClean {i : Instr} {s : State} (hq : s.quiet) (hm : i.isMultiload = false) (hr : i ≠ .reset) :
    ExecFaultsClean i s := by
  have h : s.inputs = [] := hq.1
  cases i with
  | multiload => cases hm
  | reset => exact absurd rfl hr
  | halt => exact .of_concludeAfter (r := .done () (s.setFlags haltedBit)) rfl (by
      simp [Res.FaultsClean, State.error, haltedBit])
  | add ot dst src => exact .of_concludeAfter rfl (inPlace_clean h _ _ _ fun _ _ => rfl)
  | sub ot dst src => exact .of_concludeAfter rfl (inPlace_clean h _ _ _ fun _ _ => rfl)
  | mul ot dst src => exact .of_concludeAfter rfl (inPlace_clean h _ _ _ fun _ _ => rfl)
  | div ot dst src => exact .of_concludeAfter rfl (inPlace_clean h _ _ _ fun _ _ => divideOr_untouched ..)
  | mod ot dst src => exact .of_concludeAfter rfl (inPlace_clean h _ _ _ fun _ _ => divideOr_untouched ..)
  | bitAnd ot dst src => exact .of_concludeAfter rfl (bitwiseInPlace_clean h ..)
  | bitOr ot dst src => exact .of_concludeAfter rfl (bitwiseInPlace_clean h ..)
  | bitXor ot dst src => exact .of_concludeAfter rfl (bitwiseInPlace_clean h ..)
  | lshift ot dst src => exact .of_concludeAfter rfl (bitwiseInPlace_clean h ..)
  | rshift ot dst src => exact .of_concludeAfter rfl (bitwiseInPlace_clean h ..)
  | bitNot ot dst =>
    refine .of_concludeAfter rfl ?_
    split
    · rfl
    · exact (loadTyped_untouched h ..).bind_clean fun _ => storeTyped_clean h ..
  | load ot dst src =>
    exact .of_concludeAfter rfl ((evalOperand_untouched h ..).bind_clean fun _ => storeTyped_clean h ..)
  | copy ot src len dst => exact .of_concludeAfter rfl (copyBlock_clean h ..)
  | jump ot target => exact .of_conclude rfl (evalTarget_untouched h _).faultsClean
  | compare ot addr src tLess tEqual tGreater =>
    exact .of_conclude rfl ((evalOperand_untouched h ..).bind_clean fun _ =>
      (loadTyped_untouched h ..).bind_clean fun _ => rfl)
  | call ot target =>
    refine .of_conclude rfl ((evalTarget_untouched h _).bind_clean fun t => ?_)
    have hpush := push_clean (pcAfter s.pc ((Instr.call ot target).length s.cfg)) s
    cases hp : push (pcAfter s.pc ((Instr.call ot target).length s.cfg)) s with
    | done a u => rw [hp] at hpush; exact hpush
    | raised e u => rw [hp] at hpush; exact hpush
  | ret => exact .of_conclude rfl (pop_clean s)
  | time ot dst => exact .of_concludeAfter rfl ((readTime_untouched h).bind_clean fun _ => storeTyped_clean h ..)
  | compareTime ot addr timeout t1 t2 =>
    exact .of_conclude rfl ((loadTyped_untouched h ..).bind_clean fun _ =>
      (readTime_untouched h).bind_clean fun _ => rfl)
  | urlmap ot o v p url res => exact .of_concludeAfter rfl (mapEntry_clean h ..)
  | urlmapCheck ot dst => exact .of_concludeAfter rfl (urlmapCheck_clean h ..)
  | urlmapDelete ot => exact .of_concludeAfter rfl (unmap_clean h _)
  | pidInit ot f =>
    exact .of_concludeAfter rfl (withPidId_clean fun k => (evalOperand_untouched h ..).bind_clean fun _ =>
      (evalOperand_untouched h ..).bind_clean fun _ => (evalOperand_untouched h ..).bind_clean fun _ =>
      (evalOperand_untouched h ..).bind_clean fun _ => (evalOperand_untouched h ..).bind_clean fun _ =>
      initOp_clean hq k _)
  | pidClear ot =>
    refine .of_concludeAfter rfl (withPidId_clean fun k => ?_)
    rw [beginBank_of_quiet k s hq]
    rfl
  | pidStop ot =>
    refine .of_concludeAfter rfl (withPidId_clean fun k => ?_)
    rw [setManual, beginBank_of_quiet k s hq]
    rfl
  | pidRun ot => exact .of_concludeAfter rfl (withPidId_clean fun k => setAutomatic_clean hq k)

/-- Settles O10: by `exec_faultsClean`, an instruction that ends with ERROR has come to its fault from state `s`. -/
theorem faultHasNoOtherEffect : Obligations.FaultHasNoOtherEffect := by
  unfold Obligations.FaultHasNoOtherEffect
  intro s t i hq hm hr hs h ht
  obtain ⟨r, hexec, hclean⟩ := exec_faultsClean hq hm hr
  rw [hexec] at h
  cases r with
  | done x u =>
    rw [conclude_done] at h
    injection h with h
    subst h
    have hu : u.error = s.error := hclean
    exact absurd (hu.symm.trans ht) (by simp [hs])
  | raised e u =>
    rw [conclude_raised] at h
    injection h with h
    subst h
    have hu : u = { s with flags := u.flags } := hclean
    rw [hu]
    rfl

/-! ### A failed bounds check (R81, R82, R405) -/

/-- One of the accesses fails its bounds check. -/
def State.OutOfBounds (s : State) (l : List (Nat × Nat)) : Prop := ∃ p ∈ l, s.cfg.memCap < p.1 + p.2

theorem outOfBounds_append {s : State} {l l' : List (Nat × Nat)} :
    s.OutOfBounds (l ++ l') ↔ s.OutOfBounds l ∨ s.OutOfBounds l' := by
  simp only [State.OutOfBounds, List.mem_append, or_and_right, exists_or]

theorem outOfBounds_singleton {s : State} {a n : Nat} : s.OutOfBounds [(a, n)] ↔ s.cfg.memCap < a + n := by
  simp [State.OutOfBounds]

theorem not_outOfBounds_nil (s : State) : ¬ s.OutOfBounds [] := by
  simp [State.OutOfBounds]

theorem readable_eq_false_of_outOfBounds {s : State} {t : Ty} {o : Operand} (h : s.OutOfBounds (o.accesses s.cfg t)) :
    o.readable s t = false := by
  cases o with
  | lit raw => exact absurd h (not_outOfBounds_nil s)
  | addr ptr => simpa [Operand.readable] using outOfBounds_singleton.mp h

section
variable {s : State} (h : s.inputs = [])
include h

/-- A chain that begins with an operand raises where the operand cannot be read, or where the rest raises. -/
theorem evalOperand_bind_raises {α : Type} {t : Ty} {o : Operand} {f : Int → State → Res α}
    (ho : s.OutOfBounds (o.accesses s.cfg t) ∨ ∀ v, f v s = .raised .memoryAccessViolation s) :
    (evalOperand t o s).bind f = .raised .memoryAccessViolation s := by
  cases hr : o.readable s t with
  | false => rw [evalOperand_outOfBounds h hr, Res.bind_raised]
  | true =>
    rw [evalOperand_quiet h hr, Res.bind_done]
    rcases ho with hout | hrest
    · rw [readable_eq_false_of_outOfBounds hout] at hr
      cases hr
    · exact hrest _

theorem loadTyped_bind_outOfBounds {α : Type} {held : Option PidId} {t : Ty} {a : Nat} {f : Int → State → Res α}
    (ha : s.OutOfBounds [(a, t.width s.cfg)]) :
    (loadTyped held t a s).bind f = .raised .memoryAccessViolation s := by
  rw [loadTyped_outOfBounds h (outOfBounds_singleton.mp ha), Res.bind_raised]

/-- The destination's old value is read before the operation, so a failed check of it comes before a divisor of 0. -/
theorem inPlace_outOfBounds {t : Ty} {dst : Addr} {src : Operand} {op : Int → Int → State → Res Int}
    (ho : s.OutOfBounds (src.accesses s.cfg t ++ [(dst.toNat, t.width s.cfg)])) :
    inPlace t dst src op s = .raised .memoryAccessViolation s :=
  evalOperand_bind_raises h ((outOfBounds_append.mp ho).imp_right fun hd _ => loadTyped_bind_outOfBounds h hd)

theorem bitwiseInPlace_outOfBounds {t : Ty} {dst : Addr} {src : Operand} {op : Int → Int → Int}
    (ho : s.OutOfBounds (if t = .rat then [] else src.accesses s.cfg t ++ [(dst.toNat, t.width s.cfg)])) :
    bitwiseInPlace t dst src op s = .raised .memoryAccessViolation s := by
  by_cases ht : t = .rat
  · rw [if_pos ht] at ho
    exact absurd ho (not_outOfBounds_nil s)
  · rw [if_neg ht] at ho
    rw [bitwiseInPlace, if_neg ht, inPlace_outOfBounds h ho]

theorem evalTarget_outOfBounds {o : Operand} (ho : s.OutOfBounds (o.accesses s.cfg .u16)) :
    evalTarget o s = .raised .memoryAccessViolation s :=
  evalOperand_bind_raises h (.inl ho)

end

theorem copyBlock_outOfBounds {src len dst : Nat} {s : State} (hlen : len ≠ 0)
    (ho : s.OutOfBounds [(src, len), (dst, len)]) :
    copyBlock src len dst s = .raised .memoryAccessViolation s := by
  have hout : ¬ (inBounds src len s && inBounds dst len s) = true := by
    have hcase : s.cfg.memCap < src + len ∨ s.cfg.memCap < dst + len := by simpa [State.OutOfBounds] using ho
    rw [Bool.and_eq_true, inBounds_iff, inBounds_iff]
    omega
  rw [copyBlock, if_neg hlen, if_neg hout]

/-- The accesses of PIDINIT are those of its rationals, in the order in which it reads them (R352). -/
theorem exec_pidInit_outOfBounds {s : State} {ot : Optype} {f : PidInitFields} (h : s.inputs = [])
    (ho : s.OutOfBounds ((Instr.pidInit ot f).accesses s.cfg)) :
    exec (.pidInit ot f) s = .next (s.faulted 1) := by
  by_cases hid : ot.id.toNat < s.cfg.nPid
  · have hid16 : ot.id.toNat < Config.maxPid := ot.id.isLt
    have hsome : pidOf ot.id.toNat s = some ⟨ot.id.toNat, hid16⟩ := pidOf_eq_some.mpr ⟨rfl, hid⟩
    rw [Instr.accesses, if_pos hid] at ho
    simp only [List.append_assoc, outOfBounds_append] at ho
    refine execAfter_of_violation rfl ?_
    rw [withPidId_of_some hsome]
    refine evalOperand_bind_raises h (ho.imp_right fun ho kp => ?_)
    refine evalOperand_bind_raises h (ho.imp_right fun ho ki => ?_)
    refine evalOperand_bind_raises h (ho.imp_right fun ho kd => ?_)
    refine evalOperand_bind_raises h (ho.imp_right fun ho lo => ?_)
    exact evalOperand_bind_raises h (.inl ho)
  · rw [Instr.accesses, if_neg hid] at ho
    exact absurd ho (not_outOfBounds_nil s)

/-- Settles O27: each instruction makes its accesses in the order of the list, and writes after the last of them. -/
theorem outOfBoundsFaults : Obligations.OutOfBoundsFaults := by
  unfold Obligations.OutOfBoundsFaults
  intro s i h hex
  have ho : s.OutOfBounds (i.accesses s.cfg) := hex
  cases i with
  | halt => exact absurd ho (not_outOfBounds_nil s)
  | multiload => exact absurd ho (not_outOfBounds_nil s)
  | ret => exact absurd ho (not_outOfBounds_nil s)
  | urlmap => exact absurd ho (not_outOfBounds_nil s)
  | urlmapDelete => exact absurd ho (not_outOfBounds_nil s)
  | pidClear => exact absurd ho (not_outOfBounds_nil s)
  | pidStop => exact absurd ho (not_outOfBounds_nil s)
  | pidRun => exact absurd ho (not_outOfBounds_nil s)
  | reset => exact absurd ho (not_outOfBounds_nil s)
  | add ot dst src => exact execAfter_of_violation rfl (inPlace_outOfBounds h ho)
  | sub ot dst src => exact execAfter_of_violation rfl (inPlace_outOfBounds h ho)
  | mul ot dst src => exact execAfter_of_violation rfl (inPlace_outOfBounds h ho)
  | div ot dst src => exact execAfter_of_violation rfl (inPlace_outOfBounds h ho)
  | mod ot dst src => exact execAfter_of_violation rfl (inPlace_outOfBounds h ho)
  | bitAnd ot dst src => exact execAfter_of_violation rfl (bitwiseInPlace_outOfBounds h ho)
  | bitOr ot dst src => exact execAfter_of_violation rfl (bitwiseInPlace_outOfBounds h ho)
  | bitXor ot dst src => exact execAfter_of_violation rfl (bitwiseInPlace_outOfBounds h ho)
  | lshift ot dst src => exact execAfter_of_violation rfl (bitwiseInPlace_outOfBounds h ho)
  | rshift ot dst src => exact execAfter_of_violation rfl (bitwiseInPlace_outOfBounds h ho)
  | bitNot ot dst =>
    by_cases ht : ot.ty = .rat
    · rw [Instr.accesses, if_pos ht] at ho
      exact absurd ho (not_outOfBounds_nil s)
    · rw [Instr.accesses, if_neg ht] at ho
      refine execAfter_of_violation rfl ?_
      rw [if_neg ht, loadTyped_bind_outOfBounds h ho]
  | load ot dst src =>
    exact execAfter_of_violation rfl (evalOperand_bind_raises h ((outOfBounds_append.mp ho).imp_right fun hd _ =>
      storeTyped_outOfBounds h (outOfBounds_singleton.mp hd)))
  | copy ot src len dst =>
    by_cases hlen : len = 0
    · rw [Instr.accesses, if_pos hlen] at ho
      exact absurd ho (not_outOfBounds_nil s)
    · rw [Instr.accesses, if_neg hlen] at ho
      have hne : len.toNat ≠ 0 := fun e => hlen (BitVec.eq_of_toNat_eq e)
      exact execAfter_of_violation rfl (copyBlock_outOfBounds hne ho)
  | jump ot target => exact exec_of_violation rfl (evalTarget_outOfBounds h ho)
  | compare ot addr src tLess tEqual tGreater =>
    exact exec_of_violation rfl (evalOperand_bind_raises h ((outOfBounds_append.mp ho).imp_right fun ha _ =>
      loadTyped_bind_outOfBounds h ha))
  | call ot target =>
    refine exec_of_violation rfl ?_
    rw [evalTarget_outOfBounds h ho, Res.bind_raised]
  | time ot dst =>
    refine execAfter_of_violation rfl ?_
    rw [readTime_eq, turn_of_inputs_nil none s h, Res.bind_done]
    exact storeTyped_outOfBounds h (outOfBounds_singleton.mp ho)
  | compareTime ot addr timeout t1 t2 => exact exec_of_violation rfl (loadTyped_bind_outOfBounds h ho)
  | urlmapCheck ot dst =>
    have hout : ¬ inBounds dst.toNat 1 s = true := by
      rw [inBounds_iff]
      exact Nat.not_le.mpr (outOfBounds_singleton.mp ho)
    exact execAfter_of_violation rfl (if_neg hout)
  | pidInit ot f => exact exec_pidInit_outOfBounds h ho

/-! ### A divisor of 0 (R233, R234) -/

/-- The frame R228 with a divisor of 0: no store, DIVIDE_ZERO set and DivideByZero raised. -/
theorem inPlace_divideOr_zero {t : Ty} {dst : Addr} {src : Operand} {result : State → Int → Int → Int} {s : State}
    (h : s.inputs = []) (hs : src.readable s t = true) (hd : dst.toNat + t.width s.cfg ≤ s.cfg.memCap)
    (h0 : s.operandRaw t src = 0) :
    inPlace t dst src (fun d v u => divideOr (result u) d v u) s =
      .raised .divideByZero (s.setFlags divideZeroBit) := by
  have hzero : ofRaw t 0 = 0 := by cases t <;> rfl
  rw [inPlace, evalOperand_quiet h hs, Res.bind_done, loadTyped_quiet h hd, Res.bind_done, h0, hzero, divideOr,
    if_pos rfl, Res.bind_raised]

theorem concludeAfter_divideByZero (n : Nat) (s : State) :
    concludeAfter s.pc n (.raised .divideByZero (s.setFlags divideZeroBit)) =
      .next { s with flags := s.flags ||| 0b111, status := s.status ||| 4 } := by
  rw [concludeAfter_raised, haltWith, setFlags_flags, BitVec.or_assoc]
  rfl

/-- Settles O31: the divisor's value is 0 exactly where its raw pattern is. -/
theorem divideByZeroFaults : Obligations.DivideByZeroFaults := by
  unfold Obligations.DivideByZeroFaults
  intro s ot dst src h hs hd h0
  constructor
  · rw [exec, execDiv, inPlace_divideOr_zero (result := fun u => divResult u.cfg ot.ty) h hs hd h0]
    exact concludeAfter_divideByZero _ s
  · have hmod := inPlace_divideOr_zero (result := fun _ => modResult ot.ty) h hs hd h0
    rw [exec, execMod]
    exact (congrArg (concludeAfter s.pc _) hmod).trans (concludeAfter_divideByZero _ s)

/-! ### The rational type of a bitwise opcode (R150, R248) -/

/-- The bitwise opcodes are the bytes 0x06 to 0x0B (R141). -/
theorem bitwise_opcode_byte {op : Byte} (hlo : 0x06 ≤ op.toNat) (hhi : op.toNat ≤ 0x0B) :
    op = Opcode.bitAnd.toByte ∨ op = Opcode.bitOr.toByte ∨ op = Opcode.bitNot.toByte ∨ op = Opcode.bitXor.toByte ∨
      op = Opcode.lshift.toByte ∨ op = Opcode.rshift.toByte := by
  simp only [Opcode.toByte]
  bv_omega

/-- A bitwise opcode with an optype byte of the rational type is a whole instruction, which faults (R150; log 17). -/
theorem bitwise_instr_of_rational {c : Config.Params} {op : Byte} {ot : Optype} (hlo : 0x06 ≤ op.toNat)
    (hhi : op.toNat ≤ 0x0B) (ht : ot.ty = .rat) :
    ∃ i : Instr, i.opcode.toByte = op ∧ i.wf c = true ∧ i.isMultiload = false ∧ i.encodeBody c = [ot.toByte] ∧
      ∀ s, exec i s = .next (haltWith .unsupportedOperand s.pc s) := by
  have hwf : bitwiseFieldsWf c ot 0 (.lit 0) = true := by simp [bitwiseFieldsWf, ht]
  have hfault : ∀ op s, bitwiseInPlace ot.ty 0 (.lit 0) op s = .raised .unsupportedOperand s :=
    fun _ _ => if_pos ht
  rcases bitwise_opcode_byte hlo hhi with rfl | rfl | rfl | rfl | rfl | rfl
  · exact ⟨.bitAnd ot 0 (.lit 0), rfl, hwf, rfl, if_pos ht, fun s => by
      rw [exec, execAnd, hfault, concludeAfter_raised]⟩
  · exact ⟨.bitOr ot 0 (.lit 0), rfl, hwf, rfl, if_pos ht, fun s => by
      rw [exec, execOr, hfault, concludeAfter_raised]⟩
  · exact ⟨.bitNot ot 0, rfl, by simp [Instr.wf], rfl, if_pos ht, fun s => by
      rw [exec, execNot, if_pos ht, concludeAfter_raised]⟩
  · exact ⟨.bitXor ot 0 (.lit 0), rfl, hwf, rfl, if_pos ht, fun s => by
      rw [exec, execXor, hfault, concludeAfter_raised]⟩
  · exact ⟨.lshift ot 0 (.lit 0), rfl, hwf, rfl, if_pos ht, fun s => by
      rw [exec, execLshift, hfault, concludeAfter_raised]⟩
  · exact ⟨.rshift ot 0 (.lit 0), rfl, hwf, rfl, if_pos ht, fun s => by
      rw [exec, execRshift, hfault, concludeAfter_raised]⟩

theorem optype_ofByte_rational {b : Byte} (h : b.extractLsb' 1 2 = 0b01) : (Optype.ofByte b).ty = .rat := by
  simp [Optype.ofByte, h, Ty.ofCode]

/-- Settles O34: the decoder stops at the optype byte, and the instruction's first act is the TYPE check. -/
theorem bitwiseRationalFaults : Obligations.BitwiseRationalFaults := by
  unfold Obligations.BitwiseRationalFaults
  intro s hnext hrun hpc hlo hhi hty
  obtain ⟨i, hop, hwf, hmulti, henc, hexec⟩ :=
    bitwise_instr_of_rational (c := s.cfg) hlo hhi (optype_ofByte_rational hty)
  rw [optype_toByte_ofByte] at henc
  have hd := decode_of_takeBody_some ((reads_takeBody hwf hmulti).whole
    (s.prog.readBytes (s.pc.toNat + 2) (s.cfg.progCap - 2 - s.pc.toNat)))
  rw [henc, hop, List.singleton_append, ← programFrom_cons_cons hpc] at hd
  rw [step_eq_decode hnext hrun, hd, ← hop]
  exact (hexec _).trans (rejectFetch_eq .unsupportedOperand _ { s with inputs := s.inputs.tail })

end Sys2Proof.Machine

/-! PROOF. What single instructions leave when no other agent acts: the bitwise operations (42_bitwise.md), the data
movements (43_data_movement.md), the control transfers (44_control_flow.md), time (45_time.md), the mapping table
(46_mapping.md) and HALT (48_machine_control.md). Each is its frame of Laws/Quiet.lean with the instruction's own
result put in. -/

namespace Sys2Proof.Machine

/-! ### Bitwise operations (R250 to R253) -/

theorem notResult_natCast (t : Ty) {d : Nat} (hd : d < 2 ^ bits t) :
    notResult t d = ((~~~ BitVec.ofNat (bits t) d).toNat : Int) := by
  rw [notResult, BitVec.toNat_not, BitVec.toNat_ofNat, Nat.mod_eq_of_lt hd]
  have hpow : ((2 ^ bits t : Nat) : Int) = 2 ^ bits t := by norm_cast
  omega

/-- NOT on an integer type, with nothing scheduled (R252). -/
theorem exec_bitNot_quiet {s : State} {ot : Optype} {dst : Addr} (h : s.inputs = []) (ht : ot.ty ≠ .rat)
    (hd : dst.toNat + ot.ty.width s.cfg ≤ s.cfg.memCap) :
    exec (.bitNot ot dst) s = .next ((s.withRaw ot.ty dst.toNat
      (~~~ BitVec.ofNat (bits ot.ty) (s.rawAt ot.ty dst.toNat)).toNat).advance 4) := by
  have hstore : toRaw ot.ty (notResult ot.ty (s.rawAt ot.ty dst.toNat)) % 256 ^ ot.ty.width s.cfg =
      (~~~ BitVec.ofNat (bits ot.ty) (s.rawAt ot.ty dst.toNat)).toNat % 256 ^ ot.ty.width s.cfg := by
    rw [notResult_natCast ot.ty (rawAt_lt_bits ht s dst.toNat), toRaw_natCast_mod ht]
  rw [exec, execNot, if_neg ht, loadTyped_quiet h hd, Res.bind_done, ofRaw_int ht, storeTyped_quiet h hd _ hstore,
    concludeAfter_done, Instr.length, if_neg ht]
  rfl

/-- Settles O32: on numbers that are not negative the model's operations are those of natural numbers, and NOT is that
of a bit vector of the type's width. -/
theorem bitwiseResult : Obligations.BitwiseResult := by
  unfold Obligations.BitwiseResult
  intro s ot dst src h ht hs hd
  refine ⟨?_, ?_, ?_, ?_⟩
  · rw [exec, execAnd, Instr.length, if_neg ht]
    exact concludeAfter_bitwiseInPlace h ht hs hd rfl
  · rw [exec, execOr, Instr.length, if_neg ht]
    exact concludeAfter_bitwiseInPlace h ht hs hd rfl
  · rw [exec, execXor, Instr.length, if_neg ht]
    exact concludeAfter_bitwiseInPlace h ht hs hd rfl
  · rw [← bits_of_int ht s.cfg]
    exact exec_bitNot_quiet h ht hd

/-! ### LOAD and MULTILOAD (R270, R271) -/

/-- Settles O35: the value read is stored with the bytes it was read from. -/
theorem loadResult : Obligations.LoadResult := by
  unfold Obligations.LoadResult
  intro s ot dst src hc h hs hd
  rw [exec, execLoad, evalOperand_quiet h hs, Res.bind_done, storeTyped_quiet h hd _ (toRaw_ofRaw_mod hc ..),
    concludeAfter_done]
  rfl

theorem storeElements_frame (t : Ty) (a : Nat) (os : List Operand) (s : State) :
    State.storeElements t a os s = { s with mem := (State.storeElements t a os s).mem } := by
  induction os generalizing a s with
  | nil => rfl
  | cons o os ih =>
    rw [State.storeElements, ih]
    rfl

theorem readable_withRaw (s : State) (t t' : Ty) (a v : Nat) (o : Operand) :
    o.readable (s.withRaw t' a v) t = o.readable s t := by
  cases o <;> rfl

/-- The iterations of MULTILOAD over elements that can be read and stored, whatever elements come after (R271). -/
theorem loadElements_append {t : Ty} (os later : List Operand) {a : Nat} {s : State} (hc : s.cfg.legal)
    (h : s.inputs = []) (hos : os.all (·.readable s t) = true)
    (hb : os = [] ∨ a + os.length * t.width s.cfg ≤ s.cfg.memCap) :
    loadElements t a (os ++ later) s =
      loadElements t (a + os.length * t.width s.cfg) later (State.storeElements t a os s) := by
  induction os generalizing a s with
  | nil => simp [State.storeElements]
  | cons o os ih =>
    obtain ⟨ho, hos⟩ : o.readable s t = true ∧ os.all (·.readable s t) = true := by
      simpa only [List.all_cons, Bool.and_eq_true] using hos
    have hlen : (o :: os).length * t.width s.cfg = os.length * t.width s.cfg + t.width s.cfg := by
      rw [List.length_cons, Nat.succ_mul]
    have hend : a + (os.length * t.width s.cfg + t.width s.cfg) ≤ s.cfg.memCap := by
      rw [← hlen]
      exact hb.resolve_left (List.cons_ne_nil o os)
    have hfirst : a + t.width s.cfg ≤ s.cfg.memCap := by omega
    rw [List.cons_append, loadElements, evalOperand_quiet h ho, Res.bind_done,
      storeTyped_quiet h hfirst _ (toRaw_ofRaw_mod hc ..), Res.bind_done, hlen]
    have hrest := ih (a := a + t.width s.cfg) (s := s.withRaw t a (s.operandRaw t o)) hc h
      (by simpa only [readable_withRaw] using hos) (.inr (by simp only [State.withRaw]; omega))
    rw [show a + (os.length * t.width s.cfg + t.width s.cfg) =
      a + t.width s.cfg + os.length * t.width s.cfg by omega]
    exact hrest

/-- Settles O36: by `loadElements_append` with no element after. -/
theorem multiloadResult : Obligations.MultiloadResult := by
  unfold Obligations.MultiloadResult
  intro s ot dst count srcs hc h hlen hsrcs hb
  have hall := loadElements_append srcs [] hc h hsrcs hb
  rw [List.append_nil, loadElements] at hall
  rw [exec, execMultiload, hall, Res.bind_done, if_neg (by omega), concludeAfter_done, storeElements_frame]
  rfl

/-- A fault after the stores of some elements keeps them (R271, R465). -/
theorem haltWith_storeElements (e : ErrorCode) (t : Ty) (a : Nat) (os : List Operand) (s : State) :
    haltWith e s.pc (State.storeElements t a os s) = (State.storeElements t a os s).faulted e.code := by
  rw [storeElements_frame]
  rfl

/-- An element that cannot be read or stored raises a memory access violation (R271). -/
theorem loadElements_bad {t : Ty} {a : Nat} {bad : Operand} {later : List Operand} {s : State} (h : s.inputs = [])
    (hbad : bad.readable s t = false ∨ s.cfg.memCap < a + t.width s.cfg) :
    loadElements t a (bad :: later) s = .raised .memoryAccessViolation s := by
  rw [loadElements]
  cases hr : bad.readable s t with
  | false => rw [evalOperand_outOfBounds h hr, Res.bind_raised]
  | true =>
    have hout : s.cfg.memCap < a + t.width s.cfg := hbad.resolve_left (by simp [hr])
    rw [evalOperand_quiet h hr, Res.bind_done, storeTyped_outOfBounds h hout, Res.bind_raised]

theorem readable_storeElements (s : State) (t : Ty) (a : Nat) (os : List Operand) (o : Operand) :
    o.readable (State.storeElements t a os s) t = o.readable s t := by
  rw [storeElements_frame]
  cases o <;> rfl

/-- Settles O37: after the good elements the first bad one raises, or the fetch of the first one missing does. -/
theorem multiloadKeepsEarlierStores : Obligations.MultiloadKeepsEarlierStores := by
  unfold Obligations.MultiloadKeepsEarlierStores
  intro s ot dst count good later hc h hgood hb
  have hframe := storeElements_frame ot.ty dst.toNat good s
  have hinputs : (State.storeElements ot.ty dst.toNat good s).inputs = [] := by rw [hframe]; exact h
  have hcfg : (State.storeElements ot.ty dst.toNat good s).cfg = s.cfg := by rw [hframe]
  refine ⟨fun bad hbad => ?_, fun hlt => ?_⟩
  · have hraised : loadElements ot.ty dst.toNat (good ++ bad :: later) s =
        .raised .memoryAccessViolation (State.storeElements ot.ty dst.toNat good s) := by
      rw [loadElements_append good (bad :: later) hc h hgood hb]
      refine loadElements_bad hinputs ?_
      rw [readable_storeElements, hcfg]
      refine hbad.imp_right fun hout => ?_
      rw [Nat.succ_mul] at hout
      omega
    rw [exec, execMultiload, hraised, Res.bind_raised, concludeAfter_raised, haltWith_storeElements]
    rfl
  · have hall := loadElements_append good [] hc h hgood hb
    rw [List.append_nil, loadElements] at hall
    rw [exec, execMultiload, hall, Res.bind_done, if_pos hlt, concludeAfter_raised, haltWith_storeElements]
    rfl

/-! ### COPY (R88, R272) -/

theorem copyBlock_quiet {s : State} {src len dst : Nat} (h : s.inputs = [])
    (hb : len = 0 ∨ (src + len ≤ s.cfg.memCap ∧ dst + len ≤ s.cfg.memCap)) :
    copyBlock src len dst s = .done () { s with mem := s.mem.writeBytes dst (s.mem.readBytes src len) } := by
  unfold copyBlock
  split
  next hlen => rw [hlen]; rfl
  next hlen =>
    have hin : (inBounds src len s && inBounds dst len s) = true := by
      simpa [inBounds_iff] using hb.resolve_left hlen
    simp only [if_pos hin, turn_of_inputs_nil none s h]

theorem read_writeBytes_readBytes {cap : Nat} {m : Memory} {src len dst : Nat} (hm : m.wf cap = true)
    (hb : len = 0 ∨ dst + len ≤ cap) (x : Nat) :
    (m.writeBytes dst (m.readBytes src len)).read x =
      if dst ≤ x ∧ x < dst + len then m.read (src + (x - dst)) else m.read x := by
  rcases hb with rfl | hb
  · rw [if_neg (by omega)]
    rfl
  · rw [Memory.read_writeBytes hm (by rwa [Memory.readBytes_length]), Memory.readBytes_length]
    split
    next hx => rw [Memory.readBytes_getD m src len (x - dst) (by omega)]
    next => rfl

/-- Settles O38: the bytes are all read before the first is written. -/
theorem copyResult : Obligations.CopyResult := by
  unfold Obligations.CopyResult
  intro s ot src len dst hs h hb
  obtain ⟨hmem, -⟩ := hs
  have hlen : len = 0 → len.toNat = 0 := fun h0 => by rw [h0]; rfl
  have hcopy := copyBlock_quiet h (hb.imp_left hlen)
  have hexec : exec (.copy ot src len dst) s = .next { s with
      mem := s.mem.writeBytes dst.toNat (s.mem.readBytes src.toNat len.toNat), pc := s.pc + 8 } := by
    rw [exec, execCopy, hcopy, concludeAfter_done]
    rfl
  exact ⟨_, hexec, rfl, read_writeBytes_readBytes hmem (hb.imp hlen And.right)⟩

/-! ### JUMP, CALL and RETURN (R290 to R293) -/

theorem evalTarget_quiet {s : State} {target : Operand} (h : s.inputs = []) (ht : target.readable s .u16 = true) :
    evalTarget target s = .done (BitVec.ofNat 16 (s.operandRaw .u16 target)) s := by
  rw [evalTarget, evalOperand_quiet h ht, Res.bind_done, ofRaw_int (by decide), BitVec.ofInt_natCast]

/-- Settles O39: the target is the operand's u16. -/
theorem jumpResult : Obligations.JumpResult := by
  unfold Obligations.JumpResult
  intro s ot target h ht
  rw [exec, execJump, evalTarget_quiet h ht, conclude_done]

/-- CALL is 4 bytes long, whatever the form of its target (R148). -/
theorem exec_call_quiet {s : State} {ot : Optype} {target : Operand} (h : s.inputs = [])
    (ht : target.readable s .u16 = true) :
    exec (.call ot target) s = conclude s.pc ((push (s.pc + 4) s).bind fun _ u =>
      .done (BitVec.ofNat 16 (s.operandRaw .u16 target)) u) := by
  rw [exec, execCall, evalTarget_quiet h ht, Res.bind_done, Instr.length]
  rfl

theorem exec_call_of_lt {s : State} {ot : Optype} {target : Operand} (h : s.inputs = [])
    (ht : target.readable s .u16 = true) (hlt : s.sp < s.cfg.stackDepth) :
    exec (.call ot target) s = .next { s with
      pc := BitVec.ofNat 16 (s.operandRaw .u16 target), sp := s.sp + 1, stack := s.stack.set s.sp (s.pc + 4) } := by
  rw [exec_call_quiet h ht, push_of_lt _ s hlt, Res.bind_done, conclude_done]

/-- Settles O41: the push comes after the target is decoded and before anything is written. -/
theorem callPushes : Obligations.CallPushes := by
  unfold Obligations.CallPushes
  intro s ot target hs h ht
  obtain ⟨-, -, hstack, -⟩ := hs
  refine ⟨fun hlt => ⟨_, exec_call_of_lt h ht hlt, rfl, fun k => ?_, rfl⟩, fun hfull => ?_⟩
  · rw [List.getElem?_set]
    by_cases hk : k = s.sp
    · rw [if_pos hk.symm, if_pos hk, hstack, if_pos hlt]
    · rw [if_neg (Ne.symm hk), if_neg hk]
  · rw [exec_call_quiet h ht, push_of_full _ s hfull, Res.bind_raised, conclude_raised]
    rfl

/-- Settles O42: `pop` reads the entry below the pointer and writes none. -/
theorem returnPops : Obligations.ReturnPops := by
  unfold Obligations.ReturnPops
  intro s
  refine ⟨fun k top hsp htop => ?_, fun hsp => ?_⟩
  · rw [exec, execRet, pop_of_succ s hsp, conclude_done, List.getD_eq_getElem?_getD, htop]
    rfl
  · rw [exec, execRet, pop_of_empty s hsp, conclude_raised]
    rfl

/-- Settles O43: the entry that CALL pushed is the one below the pointer it left. -/
theorem callReturnPair : Obligations.CallReturnPair := by
  unfold Obligations.CallReturnPair
  intro s t u ot target hs h ht hlt hcall husp hustack
  obtain ⟨-, -, hstack, -⟩ := hs
  rw [exec_call_of_lt h ht hlt] at hcall
  injection hcall with hcall
  subst hcall
  refine (returnPops u).1 s.sp (s.pc + 4) husp ?_
  rw [hustack, List.getElem?_set_self (by rw [hstack]; exact hlt)]

/-! ### Time (R309 to R311) -/

/-- Settles O44: the low 32 bits of T fill the 4 bytes of a u32. -/
theorem timeResult : Obligations.TimeResult := by
  unfold Obligations.TimeResult
  intro s ot dst h hd
  have hlow : toRaw .u32 (wrap 32 s.timeBase.toNat) % 256 ^ Ty.u32.width s.cfg =
      (s.timeBase.setWidth 32).toNat % 256 ^ Ty.u32.width s.cfg := by
    rw [show (32 : Nat) = bits .u32 from rfl, toRaw_wrap, toRaw_natCast, BitVec.toNat_setWidth]
  rw [exec, execTime, readTime_eq, turn_of_inputs_nil none s h, Res.bind_done, storeTyped_quiet h hd _ hlow,
    concludeAfter_done]
  rfl

/-- The elapsed time is the 32-bit difference of the low bits of T and the timestamp (R311). -/
theorem elapsedSince_eq (now : BitVec 64) (raw : Nat) :
    elapsedSince now.toNat raw = ((now.setWidth 32 - BitVec.ofNat 32 raw).toNat : Int) := by
  simp only [elapsedSince, wrap, BitVec.toNat_sub, BitVec.toNat_setWidth, BitVec.toNat_ofNat]
  omega

/-- Settles O45: both times are taken modulo 2^32, and the product with the scale is a natural number. -/
theorem compareTimeResult : Obligations.CompareTimeResult := by
  unfold Obligations.CompareTimeResult
  intro s ot addr timeout tElapsed tNotElapsed h ha
  rw [exec, execCompareTime, loadTyped_quiet h ha, Res.bind_done, readTime_eq, turn_of_inputs_nil none s h,
    Res.bind_done, conclude_done, ofRaw_int (by decide), elapsedSince_eq, compareTimeTarget]
  simp only [Nat.cast_le]

/-! ### The mapping table (R94 to R99, R330 to R332) -/

/-- A slot that the table has. -/
theorem slotOf_of_lt {id : BitVec 4} {s : State} (h : id.toNat < s.cfg.mapSlots) :
    slotOf id.toNat s = some ⟨id.toNat, id.isLt⟩ :=
  slotOf_eq_some.mpr ⟨rfl, h⟩

theorem slotOf_of_ge {id : Nat} {s : State} (h : s.cfg.mapSlots ≤ id) : slotOf id s = none :=
  slotOf_eq_none.mpr (.inl h)

theorem exec_urlmap_of_lt {s : State} {ot : Optype} {options : Byte} {value : Addr} {port : BitVec 16}
    {url resource : StrField} (h : s.inputs = []) (hid : ot.id.toNat < s.cfg.mapSlots) :
    exec (.urlmap ot options value port url resource) s = .next
      { setSlot ⟨ot.id.toNat, ot.id.isLt⟩ (urlmapEntry s.pc ot options value port url resource) s with
        pc := s.pc + BitVec.ofNat 16 (7 + url.length + resource.length) } := by
  rw [exec, execUrlmap, turn_of_inputs_nil none s h, mapEntry_of_some (slotOf_of_lt hid), concludeAfter_done]
  rfl

theorem exec_urlmapDelete_of_lt {s : State} {ot : Optype} (h : s.inputs = []) (hid : ot.id.toNat < s.cfg.mapSlots) :
    exec (.urlmapDelete ot) s = .next
      { setSlot ⟨ot.id.toNat, ot.id.isLt⟩ (MapSlot.unmapped s.cfg) s with pc := s.pc + 2 } := by
  rw [exec, execUrlmapDelete, turn_of_inputs_nil none s h, unmap_of_some (slotOf_of_lt hid), concludeAfter_done]
  rfl

/-- Settles O46: the entry written has the fields of the instruction, each string where it stands. -/
theorem urlmapResult : Obligations.UrlmapResult := by
  unfold Obligations.UrlmapResult
  intro s ot options value port url resource h
  refine ⟨fun hid => ?_, fun hid => ?_⟩
  · have hexec := exec_urlmap_of_lt (options := options) (value := value) (port := port) (url := url)
      (resource := resource) h hid
    refine ⟨_, hexec, rfl, fun k => ?_⟩
    show (setSlot _ _ s).map[k] = _
    rw [setSlot_get]
    simp only [Fin.ext_iff]
    rfl
  · rw [exec, execUrlmap, turn_of_inputs_nil none s h, mapEntry_of_none (slotOf_of_ge hid), concludeAfter_raised]
    rfl

/-- Settles O48: the slot is replaced by an unmapped one. -/
theorem urlmapDeleteResult : Obligations.UrlmapDeleteResult := by
  unfold Obligations.UrlmapDeleteResult
  intro s ot h
  refine ⟨fun hid => ?_, fun hid => ?_⟩
  · refine ⟨_, exec_urlmapDelete_of_lt h hid, rfl, fun k => ?_⟩
    show (setSlot _ _ s).map[k] = _
    rw [setSlot_get]
    simp only [Fin.ext_iff]
    rfl
  · rw [exec, execUrlmapDelete, turn_of_inputs_nil none s h, unmap_of_none (slotOf_of_ge hid), concludeAfter_raised]
    rfl

theorem active_iff (c : Config.Params) (m : MapSlot) :
    m.active c = true ↔ m.valueAddress ≠ c.noMapping ∧ m.urlAddress ≠ c.noMapping ∧
      m.resourceAddress ≠ c.noMapping ∧ m.status.getLsbD 7 = false := by
  simp [MapSlot.active, and_assoc]

theorem expires_iff (c : Config.Params) (m : MapSlot) :
    m.expires c = true ↔ m.active c = true ∧ m.status = 0x01 ∧ m.options.getLsbD 0 = true := by
  simp [MapSlot.expires, and_assoc]

/-- The table after a `checkMap` that deletes (R95). -/
def State.afterCheck (s : State) (id : SlotId) : State :=
  if s.map[id].expires s.cfg then setSlot id (MapSlot.unmapped s.cfg) s else s

theorem afterCheck_frame (s : State) (id : SlotId) :
    s.afterCheck id = { s with map := (s.afterCheck id).map } := by
  unfold State.afterCheck
  split <;> rfl

theorem afterCheck_get (s : State) (id k : SlotId) :
    (s.afterCheck id).map[k] =
      if k = id ∧ s.map[id].expires s.cfg = true then MapSlot.unmapped s.cfg else s.map[k] := by
  unfold State.afterCheck
  split
  next he => rw [setSlot_get]; simp only [he, and_true]
  next he => exact (if_neg fun h => he h.2).symm

/-- URLMAPCHECK on a slot that the table has, with nothing scheduled and a destination in bounds (R331). -/
theorem exec_urlmapCheck_of_lt {s : State} {ot : Optype} {dst : Addr} {id : SlotId} (h : s.inputs = [])
    (hd : dst.toNat < s.cfg.memCap) (hid : id.val = ot.id.toNat) (hlt : id.val < s.cfg.mapSlots) :
    exec (.urlmapCheck ot dst) s = .next { (s.withRaw .u8 dst.toNat (slotReport s.cfg s.map[id]).toNat).advance 4 with
      map := (s.afterCheck id).map } := by
  have hin : inBounds dst.toNat 1 s = true := (inBounds_iff ..).mpr hd
  have hcheck : checkMap ot.id.toNat true s = .done (slotReport s.cfg s.map[id]) (s.afterCheck id) :=
    checkMap_of_some (slotOf_eq_some.mpr ⟨hid, hid ▸ hlt⟩) true
  rw [exec, execUrlmapCheck, if_pos hin, turn_of_inputs_nil none s h, hcheck, Res.bind_done, afterCheck_frame,
    storeTyped_quiet (by exact h) (by exact hd) _ (toRaw_natCast_mod (by decide) ..), concludeAfter_done]
  rfl

/-- Settles O47: the check reports the status of an active slot and deletes one that expires. -/
theorem urlmapCheckResult : Obligations.UrlmapCheckResult := by
  unfold Obligations.UrlmapCheckResult
  intro s ot dst id h hd hid
  refine ⟨fun hlt => ?_, fun hge => ?_⟩
  · have hreport : (slotReport s.cfg s.map[id]).toNat =
        if s.map[id].active s.cfg = true then s.map[id].status.toNat else 0 := by
      unfold slotReport
      split <;> rfl
    refine ⟨_, exec_urlmapCheck_of_lt h hd hid hlt, ?_, active_iff .., fun k => ?_⟩
    · rw [hreport]
    · show (s.afterCheck id).map[k] = _
      simp only [afterCheck_get, expires_iff]
      rfl
  · have hin : inBounds dst.toNat 1 s = true := (inBounds_iff ..).mpr hd
    rw [exec, execUrlmapCheck, if_pos hin, turn_of_inputs_nil none s h, checkMap_of_none (slotOf_of_ge (hid ▸ hge)),
      Res.bind_raised, concludeAfter_raised]
    rfl

/-! ### HALT (R390) -/

/-- Settles O59: HALT writes `flags` and `pc` only. -/
theorem haltResult : Obligations.HaltResult := by
  unfold Obligations.HaltResult
  intro s
  rw [exec, execHalt, concludeAfter_done]
  rfl

end Sys2Proof.Machine

/-! PROOF. What `clear()`, `load` and RESET leave when no other agent is in the middle of anything (48_machine_control.md
R392; 60_exceptions.md R415; 70_reset_and_hazards.md R451): all three are `clearAll`, which is described once. -/

namespace Sys2Proof.Machine

/-! ### The common part -/

theorem quiet_setPid {s : State} (h : s.quiet) (i : PidId) (p : Pid) : (setPid i p s).quiet := h

/-- Clearing controllers of the bank writes nothing but these (R369). -/
theorem clearBank_quiet (l : List PidId) {s : State} (h : s.quiet) :
    clearBank l s = { s with pid := (clearBank l s).pid } ∧
      ∀ k : PidId, (clearBank l s).pid[k] = if k ∈ l then Pid.resetValue else s.pid[k] := by
  induction l generalizing s with
  | nil => exact ⟨rfl, fun _ => rfl⟩
  | cons i l ih =>
    have hbegin : acquire i (turn none s) = s := beginBank_of_quiet i s h
    rw [clearBank, hbegin]
    obtain ⟨hframe, hget⟩ := ih (quiet_setPid h i Pid.resetValue)
    refine ⟨hframe, fun k => (hget k).trans ?_⟩
    show (if k ∈ l then Pid.resetValue else (setPid i Pid.resetValue s).pid[k]) = _
    rw [setPid_get]
    by_cases hk : k ∈ l
    · rw [if_pos hk, if_pos (List.mem_cons_of_mem i hk)]
    · simp only [List.mem_cons, hk, or_false, if_false]

theorem mem_presentPids {s : State} {k : PidId} : k ∈ presentPids s ↔ k.val < s.cfg.nPid := by
  simp [presentPids]

/-- Memory, mapping table and return stack are at their reset values, and so are the controllers that exist; all else is
as it was. -/
theorem clearAll_quiet {s : State} (h : s.quiet) :
    clearAll s = { s with
      mem := []
      map := Vector.replicate Config.maxSlots (MapSlot.unmapped s.cfg)
      sp := 0
      stack := List.replicate s.cfg.stackDepth 0
      pid := (clearAll s).pid } ∧
    ∀ k : PidId, (clearAll s).pid[k] = if k.val < s.cfg.nPid then Pid.resetValue else s.pid[k] := by
  have hinputs : s.inputs = [] := h.1
  have hcleared : (clearStack (clearMap (clearMem s))).quiet := h
  have hall : clearAll s =
      clearBank (presentPids (clearStack (clearMap (clearMem s)))) (clearStack (clearMap (clearMem s))) := by
    rw [clearAll, turn_of_inputs_nil none s hinputs, turn_of_inputs_nil none (clearMem s) hinputs]
    rfl
  obtain ⟨hframe, hget⟩ := clearBank_quiet (presentPids (clearStack (clearMap (clearMem s)))) hcleared
  rw [← hall] at hframe
  refine ⟨hframe, fun k => ?_⟩
  have hk := hget k
  simp only [← hall, mem_presentPids] at hk
  exact hk

/-! ### `clear()` and `load` -/

/-- The state after `clear()` with nothing in progress: reset, but for what the clear keeps (R451; log 20). -/
theorem hostClear_quiet {s : State} (h : s.quiet) :
    hostClear s = { State.resetWith s.cfg with
      debug := s.debug
      timeBase := s.timeBase
      prog := s.prog
      pid := (hostClear s).pid
      netPending := s.netPending } ∧
    ∀ k : PidId, (hostClear s).pid[k] = if k.val < s.cfg.nPid then Pid.resetValue else s.pid[k] := by
  obtain ⟨hframe, hget⟩ := clearAll_quiet h
  obtain ⟨hinputs, hseq, hhost⟩ := h
  refine ⟨?_, hget⟩
  rw [hostClear, hframe, restart, State.resetWith, hinputs, hseq, hhost]

theorem step_control {s : State} {c : Control} {rest : List Input} (h : s.inputs = .control c :: rest) :
    step s = .next (controlAct c { s with inputs := rest }) := by
  rw [step, h]

/-- Settles O17: `clear()` is `hostClear` behind a schedule that is used up. -/
theorem clearRestarts : Obligations.ClearRestarts := by
  unfold Obligations.ClearRestarts
  intro s hinputs hseq hhost
  have hquiet : ({ s with inputs := [] } : State).quiet := ⟨rfl, hseq, hhost⟩
  obtain ⟨hframe, hget⟩ := hostClear_quiet hquiet
  exact ⟨_, step_control hinputs, hframe, hget⟩

theorem loadedProgram_read (bytes : List Byte) (k : Nat) : (loadedProgram bytes).read k = bytes.getD k 0 := by
  have hfit : 0 + bytes.length ≤ bytes.length := by omega
  rw [loadedProgram, Memory.read_writeBytes (Memory.wf_nil bytes.length) hfit]
  split
  · rfl
  next hk => rw [List.getD_eq_default _ _ (by omega)]; rfl

/-- Settles O18: a load that fits writes the store and is `hostClear` from there. -/
theorem loadReplacesProgram : Obligations.LoadReplacesProgram := by
  unfold Obligations.LoadReplacesProgram
  intro s bytes hinputs hseq hhost
  have hstep := step_control hinputs
  refine ⟨fun hlong => ?_, fun hfit => ?_⟩
  · rw [hstep, controlAct, hostLoad, if_pos hlong]
  · have hquiet : ({ s with inputs := [], prog := loadedProgram bytes } : State).quiet := ⟨rfl, hseq, hhost⟩
    obtain ⟨hframe, hget⟩ := hostClear_quiet hquiet
    rw [controlAct, hostLoad, if_neg (Nat.not_lt.mpr hfit)] at hstep
    have hprog := congrArg State.prog hframe
    refine ⟨_, hstep, fun k => ?_, ?_, hget⟩
    · rw [hprog]
      exact loadedProgram_read bytes k
    · rw [hprog]
      exact hframe

/-! ### RESET -/

/-- Settles O60: RESET is `clearAll` and then the fault entry with code 9. -/
theorem resetInstructionResult : Obligations.ResetInstructionResult := by
  unfold Obligations.ResetInstructionResult
  intro s h
  obtain ⟨hframe, hget⟩ := clearAll_quiet h
  obtain ⟨hinputs, hseq, hhost⟩ := h
  refine ⟨haltWith .resetRequested s.pc (clearAll s), rfl, ?_, hget⟩
  rw [haltWith, hframe, State.resetWith, hinputs, hseq, hhost]
  rfl

end Sys2Proof.Machine

/-! PROOF. What the other agents write (60_exceptions.md R407, R412 to R421), and two of their runs: the race of R107
and the network port's `writeValue` (R417). The sequencer and the host work on the bank and store at a controller's
output cell (`BankFrame`); the network actor works on the mapping table and stores at its pending access
(`NetFrame`). -/

namespace Sys2Proof.Machine

/-! ### The sequencer and the host's bank operations -/

/-- What a move on the bank leaves alone, where it stores to no other bytes of data memory than those of `spans`. -/
structure BankFrame (spans : List (Nat × Nat)) (s t : State) : Prop where
  cfg : t.cfg = s.cfg
  map : t.map = s.map
  debug : t.debug = s.debug
  timeBase : t.timeBase = s.timeBase
  netPending : t.netPending = s.netPending
  inputs : t.inputs = s.inputs
  outAddr : ∀ k : PidId, t.pid[k].outAddr = s.pid[k].outAddr
  mem : ∀ a, (∀ p ∈ spans, a < p.1 ∨ p.1 + p.2 ≤ a) → t.mem.read a = s.mem.read a

theorem BankFrame.refl (spans : List (Nat × Nat)) (s : State) : BankFrame spans s s :=
  ⟨rfl, rfl, rfl, rfl, rfl, rfl, fun _ => rfl, fun _ _ => rfl⟩

section
variable {spans : List (Nat × Nat)} {s t : State} (h : BankFrame spans s t)
include h

theorem BankFrame.mono {spans' : List (Nat × Nat)} (hsub : spans ⊆ spans') : BankFrame spans' s t :=
  { h with mem := fun a ha => h.mem a fun p hp => ha p (hsub hp) }

theorem BankFrame.trans {u : State} (h' : BankFrame spans t u) : BankFrame spans s u where
  cfg := h'.cfg.trans h.cfg
  map := h'.map.trans h.map
  debug := Eq.trans h'.debug h.debug
  timeBase := h'.timeBase.trans h.timeBase
  netPending := h'.netPending.trans h.netPending
  inputs := h'.inputs.trans h.inputs
  outAddr k := (h'.outAddr k).trans (h.outAddr k)
  mem a ha := (h'.mem a ha).trans (h.mem a ha)

theorem BankFrame.seq (q : Sequencer) : BankFrame spans s { t with seq := q } := { h with }

theorem BankFrame.hostPending (p : Option LimitStore) : BankFrame spans s { t with hostPending := p } := { h with }

theorem BankFrame.pid {i : PidId} {p : Pid} (hp : p.outAddr = t.pid[i].outAddr) : BankFrame spans s (setPid i p t) :=
  { h with
    outAddr := fun k => by
      rw [setPid_get]
      split
      next hk => subst hk; exact hp.trans (h.outAddr k)
      next => exact h.outAddr k }

end

/-- A store within one of the spans. -/
theorem BankFrame.storeRat {spans : List (Nat × Nat)} {s t : State} {a : Addr} {v : Word}
    (ha : (a.toNat, s.cfg.ratBytes) ∈ spans) (h : storeRat a v s = some t) : BankFrame spans s t := by
  obtain ⟨-, rfl⟩ := memWrite_eq_some h
  exact { BankFrame.refl spans s with
    mem := fun x hx => Memory.read_writeBytes_of_outside (by simpa using hx _ ha) }

theorem hostFinish_of_none {s : State} (h : s.hostPending = none) : hostFinish s = s := by
  rw [hostFinish, h]

theorem hostFinish_of_some {s : State} {l : LimitStore} (h : s.hostPending = some l) :
    hostFinish s =
      setPid l.id { s.pid[l.id] with
          iSum := clampWord s.pid[l.id].iSum.toInt s.pid[l.id].outMin s.pid[l.id].outMax }
        { (Machine.storeRat s.pid[l.id].outAddr l.output s).getD s with hostPending := none } := by
  rw [hostFinish, h]

theorem hostFinish_frame (s : State) : BankFrame s.hostSpans s (hostFinish s) := by
  cases hp : s.hostPending with
  | none => rw [hostFinish_of_none hp]; exact .refl _ s
  | some l =>
    have hspan : (s.pid[l.id].outAddr.toNat, s.cfg.ratBytes) ∈ s.hostSpans := by simp [State.hostSpans, hp]
    rw [hostFinish_of_some hp]
    cases hs : Machine.storeRat s.pid[l.id].outAddr l.output s with
    | none => exact ((BankFrame.refl _ s).hostPending none).pid rfl
    | some u =>
      have hu := BankFrame.storeRat hspan hs
      exact (hu.hostPending none).pid (hu.outAddr l.id).symm

theorem hostFinish_seq (s : State) : (hostFinish s).seq = s.seq := by
  cases hp : s.hostPending with
  | none => rw [hostFinish_of_none hp]
  | some l =>
    rw [hostFinish_of_some hp]
    cases hs : Machine.storeRat s.pid[l.id].outAddr l.output s with
    | none => rfl
    | some u =>
      obtain ⟨-, rfl⟩ := memWrite_eq_some hs
      rfl

theorem hostFinish_hostPending (s : State) : (hostFinish s).hostPending = none := by
  cases hp : s.hostPending with
  | none => rw [hostFinish_of_none hp, hp]
  | some l => rw [hostFinish_of_some hp]; rfl

theorem finishHostOn_frame (i : PidId) (s : State) : BankFrame (s.hostSpansOn i) s (finishHostOn i s) := by
  unfold finishHostOn
  cases hp : s.hostPending with
  | none => exact .refl _ s
  | some l =>
    by_cases hl : l.id = i
    · have hspans : s.hostSpansOn i = s.hostSpans := by simp [State.hostSpansOn, State.hostSpans, hp, hl]
      simpa only [if_pos hl, hspans] using hostFinish_frame s
    · simpa only [if_neg hl] using BankFrame.refl _ s

theorem finishHostOn_seq (i : PidId) (s : State) : (finishHostOn i s).seq = s.seq := by
  unfold finishHostOn
  split
  · rfl
  · split
    · exact hostFinish_seq s
    · rfl

/-- Only the first move of a compute completes a store of the host, and only its last one stores (R371, R375). -/
theorem sequencerMove_frame (s : State) : BankFrame (AgentMove.sequencer.storeSpans s) s (sequencerMove s) := by
  unfold sequencerMove AgentMove.storeSpans
  cases hseq : s.seq with
  | idle => exact (BankFrame.refl _ s).seq _
  | mapGate i =>
    dsimp only
    split
    · exact (finishHostOn_frame i s).seq _
    · exact (finishHostOn_frame i s).seq _
  | timeGate i =>
    dsimp only
    split <;> exact (BankFrame.refl _ s).seq _
  | readInput i now =>
    dsimp only
    split <;> exact (BankFrame.refl _ s).seq _
  | readSetpoint i now input =>
    dsimp only
    split
    · exact (BankFrame.refl _ s).seq _
    · exact ((BankFrame.refl _ s).seq _).pid rfl
  | writeOutput i now input output =>
    dsimp only
    split
    · exact (BankFrame.refl _ s).seq _
    next u hu =>
      have hspan : (s.pid[i].outAddr.toNat, s.cfg.ratBytes) ∈ s.computeSpans i := by
        simp [State.computeSpans, hseq, Sequencer.holds]
      have hframe := BankFrame.storeRat hspan hu
      exact (hframe.seq _).pid (hframe.outAddr i).symm

theorem computeSpans_congr {s t : State} {i : PidId} (hseq : t.seq = s.seq) (hcfg : t.cfg = s.cfg)
    (hout : t.pid[i].outAddr = s.pid[i].outAddr) : t.computeSpans i = s.computeSpans i := by
  rw [State.computeSpans, State.computeSpans, hseq, hcfg, hout]

/-- Inside a compute of controller `i` the sequencer stores to no other bytes than `computeSpans`. -/
theorem sequencerMove_frame_of_holds {i : PidId} {s : State} (h : s.seq.holds i = true) :
    BankFrame (s.computeSpans i) s (sequencerMove s) := by
  refine (sequencerMove_frame s).mono ?_
  unfold AgentMove.storeSpans
  cases hseq : s.seq with
  | writeOutput j now input output =>
    obtain rfl : j = i := by simpa [hseq, Sequencer.holds] using h
    exact List.Subset.refl _
  | mapGate j => simp [hseq, Sequencer.holds] at h
  | _ => exact List.nil_subset _

theorem finishSequencerOn_frame (i : PidId) (n : Nat) (s : State) :
    BankFrame (s.computeSpans i) s (finishSequencerOn i n s) := by
  induction n generalizing s with
  | zero => exact .refl _ s
  | succ n ih =>
    unfold finishSequencerOn
    by_cases hholds : s.seq.holds i = true
    · rw [if_pos hholds]
      have hmove := sequencerMove_frame_of_holds hholds
      have hsub : (sequencerMove s).computeSpans i ⊆ s.computeSpans i := by
        rw [State.computeSpans, State.computeSpans, hmove.cfg, hmove.outAddr, if_pos hholds]
        split
        · exact List.Subset.refl _
        · exact List.nil_subset _
      exact hmove.trans ((ih _).mono hsub)
    · rw [if_neg hholds]
      exact .refl _ s

theorem acquire_frame (i : PidId) (s : State) : BankFrame (s.hostSpansOn i ++ s.computeSpans i) s (acquire i s) := by
  have hhost := finishHostOn_frame i s
  have hspans := computeSpans_congr (finishHostOn_seq i s) hhost.cfg (hhost.outAddr i)
  refine (hhost.mono (List.subset_append_left ..)).trans ?_
  refine (finishSequencerOn_frame i 4 _).mono ?_
  rw [hspans]
  exact List.subset_append_right ..

/-- With neither transaction in progress on the controller, beginning one changes nothing. -/
theorem acquire_of_free {i : PidId} {s : State} (hseq : s.seq.holds i = false)
    (hhost : ∀ l, s.hostPending = some l → l.id ≠ i) : acquire i s = s := by
  have hfinish : finishHostOn i s = s := by
    unfold finishHostOn
    split
    · rfl
    next l hl => exact if_neg (hhost l hl)
  rw [acquire, hfinish, finishSequencerOn, hseq]
  rfl

/-- A PID-configuration operation first completes the host's own store on any controller (log 24). -/
theorem acquire_hostFinish_frame (i : PidId) (s : State) :
    BankFrame (s.hostSpans ++ s.computeSpans i) s (acquire i (hostFinish s)) := by
  have hhost := hostFinish_frame s
  have hspans : (hostFinish s).hostSpansOn i ++ (hostFinish s).computeSpans i = s.computeSpans i := by
    rw [computeSpans_congr (hostFinish_seq s) hhost.cfg (hhost.outAddr i), State.hostSpansOn, hostFinish_hostPending]
    rfl
  refine (hhost.mono (List.subset_append_left ..)).trans ?_
  refine (acquire_frame i _).mono ?_
  rw [hspans]
  exact List.subset_append_right ..

theorem setOutputLimits_frame (spans : List (Nat × Nat)) (i : PidId) (lo hi : Word) (s : State) :
    BankFrame spans s (setOutputLimits i lo hi s) := by
  unfold setOutputLimits
  dsimp only
  split
  · exact .refl _ s
  · split
    · split
      · exact (BankFrame.refl _ s).pid rfl
      · split
        · exact (BankFrame.refl _ s).pid rfl
        · exact ((BankFrame.refl _ s).pid (i := i) (p := { s.pid[i] with outMin := lo, outMax := hi }) rfl).hostPending _
    · exact (BankFrame.refl _ s).pid rfl

theorem setControllerDirection_frame (spans : List (Nat × Nat)) (i : PidId) (dir : Direction) (s : State) :
    BankFrame spans s (setControllerDirection i dir s) := by
  unfold setControllerDirection
  refine (BankFrame.refl _ s).pid ?_
  split <;> rfl

/-! ### The network actor -/

/-- What a network operation leaves alone: of the mapping table it may write only `status`. -/
structure NetFrame (s t : State) : Prop where
  pid : t.pid = s.pid
  debug : t.debug = s.debug
  timeBase : t.timeBase = s.timeBase
  seq : t.seq = s.seq
  hostPending : t.hostPending = s.hostPending
  inputs : t.inputs = s.inputs
  mem : ∀ a, (∀ p ∈ s.netSpans, a < p.1 ∨ p.1 + p.2 ≤ a) → t.mem.read a = s.mem.read a

theorem NetFrame.refl (s : State) : NetFrame s s := ⟨rfl, rfl, rfl, rfl, rfl, rfl, fun _ _ => rfl⟩

theorem netFinish_of_read {s : State} {x : NetAccess} (h : s.netPending = some x) (hv : x.value = none) :
    netFinish s = { s with netPending := none } := by
  rw [netFinish, h]
  simp only [hv]

theorem netFinish_of_write {s : State} {x : NetAccess} {v : Word} (h : s.netPending = some x) (hv : x.value = some v) :
    netFinish s =
      { (memWrite x.addr.toNat (x.ty.width s.cfg) v.toNat s).getD s with netPending := none } := by
  rw [netFinish, h]
  simp only [hv]

theorem netFinish_frame (s : State) : NetFrame s (netFinish s) ∧ (netFinish s).map = s.map := by
  cases hp : s.netPending with
  | none => rw [netFinish_of_none hp]; exact ⟨.refl s, rfl⟩
  | some x =>
    obtain ⟨addr, ty, value⟩ := x
    cases value with
    | none => rw [netFinish_of_read hp rfl]; exact ⟨{ NetFrame.refl s with }, rfl⟩
    | some v =>
      rw [netFinish_of_write hp rfl]
      cases hw : memWrite addr.toNat (ty.width s.cfg) v.toNat s with
      | none => exact ⟨{ NetFrame.refl s with }, rfl⟩
      | some u =>
        obtain ⟨-, rfl⟩ := memWrite_eq_some hw
        have hspan : (addr.toNat, ty.width s.cfg) ∈ s.netSpans := by simp [State.netSpans, hp]
        exact ⟨{ NetFrame.refl s with
          mem := fun a ha => Memory.read_writeBytes_of_outside (by simpa using ha _ hspan) }, rfl⟩

/-- A report changes the table only, and of a slot only its status (R96, R97). -/
theorem netBegin_mapError_status (id : Nat) (code : Byte) (s : State) (k : SlotId) :
    (netBegin (.mapError id code) s).map[k] =
      { s.map[k] with status := (netBegin (.mapError id code) s).map[k].status } := by
  rw [netBegin_mapError_get]
  split <;> rfl

theorem netBegin_frame (op : NetOp) (s : State) : NetFrame s (netBegin op s) := by
  cases op with
  | readEntry id => exact .refl s
  | readString id which k => exact .refl s
  | readValue id => exact { NetFrame.refl s with }
  | writeValue id v => exact { NetFrame.refl s with }
  | mapDone id =>
    rw [netBegin_mapDone, netBegin_mapError_frame]
    exact { NetFrame.refl s with }
  | mapError id code =>
    rw [netBegin_mapError_frame]
    exact { NetFrame.refl s with }

theorem netBegin_mem (op : NetOp) (s : State) : (netBegin op s).mem = s.mem := by
  cases op with
  | mapDone id => rw [netBegin_mapDone, netBegin_mapError_frame]
  | mapError id code => rw [netBegin_mapError_frame]
  | _ => rfl

theorem netBegin_status (op : NetOp) (s : State) (k : SlotId) :
    (netBegin op s).map[k] = { s.map[k] with status := (netBegin op s).map[k].status } := by
  cases op with
  | mapDone id => rw [netBegin_mapDone]; exact netBegin_mapError_status id 0 s k
  | mapError id code => exact netBegin_mapError_status id code s k
  | _ => rfl

theorem netAct_frame (op : NetOp) (s : State) : NetFrame s (netAct op s) ∧
    ∀ k : SlotId, (netAct op s).map[k] = { s.map[k] with status := (netAct op s).map[k].status } := by
  obtain ⟨hfinish, hmap⟩ := netFinish_frame s
  have hbegin := netBegin_frame op (netFinish s)
  refine ⟨?_, fun k => ?_⟩
  · exact {
      pid := hbegin.pid.trans hfinish.pid
      debug := Eq.trans hbegin.debug hfinish.debug
      timeBase := hbegin.timeBase.trans hfinish.timeBase
      seq := hbegin.seq.trans hfinish.seq
      hostPending := hbegin.hostPending.trans hfinish.hostPending
      inputs := hbegin.inputs.trans hfinish.inputs
      mem := fun a ha => by
        rw [netAct, netBegin_mem]
        exact hfinish.mem a ha }
  · have hk := netBegin_status op (netFinish s) k
    simp only [hmap] at hk
    exact hk

/-! ### Every move (R421) -/

/-- The host's operations, each with the bytes that it may store to. -/
theorem hostAct_frame (op : HostOp) (s : State) (hop : ∀ b, op ≠ .writeDebug b) :
    BankFrame ((AgentMove.host op).storeSpans s) s (hostAct op s) := by
  unfold AgentMove.storeSpans hostAct
  cases op with
  | writeDebug b => exact absurd rfl (hop b)
  | dumpPid id =>
    dsimp only
    cases pidOf id s with
    | none => exact .refl _ s
    | some i => exact acquire_frame i s
  | setOutputLimits id lo hi =>
    dsimp only
    cases pidOf id s with
    | none => exact .refl _ s
    | some i => exact (acquire_hostFinish_frame i s).trans (setOutputLimits_frame _ i lo hi _)
  | setControllerDirection id dir =>
    dsimp only
    cases pidOf id s with
    | none => exact .refl _ s
    | some i => exact (acquire_hostFinish_frame i s).trans (setControllerDirection_frame _ i dir _)
  | _ => exact .refl _ s

/-- No move touches the schedule, or data memory outside the bytes it may store to. -/
theorem agentMove_inputs_mem (m : AgentMove) (s : State) : (agentMove m s).inputs = s.inputs ∧
    ∀ a, (∀ p ∈ m.storeSpans s, a < p.1 ∨ p.1 + p.2 ≤ a) → (agentMove m s).mem.read a = s.mem.read a := by
  cases m with
  | elapse us => exact ⟨rfl, fun _ _ => rfl⟩
  | sequencer => exact ⟨(sequencerMove_frame s).inputs, (sequencerMove_frame s).mem⟩
  | net op =>
    obtain ⟨hframe, -⟩ := netAct_frame op s
    exact ⟨hframe.inputs, hframe.mem⟩
  | netFinish =>
    obtain ⟨hframe, -⟩ := netFinish_frame s
    exact ⟨hframe.inputs, hframe.mem⟩
  | hostFinish => exact ⟨(hostFinish_frame s).inputs, (hostFinish_frame s).mem⟩
  | host op =>
    by_cases hop : ∃ b, op = .writeDebug b
    · obtain ⟨b, rfl⟩ := hop
      exact ⟨rfl, fun _ _ => rfl⟩
    · have hframe := hostAct_frame op s fun b hb => hop ⟨b, hb⟩
      exact ⟨hframe.inputs, hframe.mem⟩

theorem pidOf_of_ge {id : Nat} {s : State} (h : s.cfg.nPid ≤ id) : pidOf id s = none := pidOf_eq_none.mpr (.inl h)

/-- A dump waits for the transactions on its own controller only (R378; log 8, log 25). -/
theorem hostAct_dumpPid_of_free {id : Nat} {s : State}
    (h : ∀ i : PidId, i.val = id → id < s.cfg.nPid →
      s.seq.holds i = false ∧ ∀ l, s.hostPending = some l → l.id ≠ i) :
    hostAct (.dumpPid id) s = s := by
  cases hid : pidOf id s with
  | none => simp only [hostAct, hid]
  | some i =>
    obtain ⟨hi, hlt⟩ := pidOf_eq_some.mp hid
    obtain ⟨hseq, hhost⟩ := h i hi hlt
    simp only [hostAct, hid, acquire_of_free hseq hhost]

theorem step_agent {s : State} {m : AgentMove} {rest : List Input} (h : s.inputs = .agent m :: rest) :
    step s = .next (agentMove m { s with inputs := rest }) := by
  rw [step, h]

/-- The stores of a move do not depend on the schedule. -/
theorem storeSpans_inputs (m : AgentMove) (s : State) (rest : List Input) :
    m.storeSpans { s with inputs := rest } = m.storeSpans s := by
  cases m with
  | host op => cases op <;> rfl
  | _ => rfl

/-- Settles O20: the engine's own state by `AgentEffect`, all else by the frame of the agent's kind of move. -/
theorem agentWrites : Obligations.AgentWrites := by
  unfold Obligations.AgentWrites
  intro s t m rest hsched h
  rw [step_agent hsched] at h
  injection h with h
  subst h
  obtain ⟨hinputs, hmem⟩ := agentMove_inputs_mem m { s with inputs := rest }
  rw [storeSpans_inputs] at hmem
  refine ⟨agentMove_sameEngine m { s with inputs := rest }, hinputs, hmem, ?_⟩
  cases m with
  | elapse us => rfl
  | sequencer =>
    have hframe := sequencerMove_frame { s with inputs := rest }
    exact ⟨hframe.map, hframe.debug, hframe.timeBase, hframe.netPending⟩
  | net op =>
    obtain ⟨hframe, hslots⟩ := netAct_frame op { s with inputs := rest }
    exact ⟨hframe.pid, hframe.debug, hframe.timeBase, hframe.seq, hframe.hostPending, hslots⟩
  | netFinish =>
    obtain ⟨hframe, hmap⟩ := netFinish_frame { s with inputs := rest }
    exact ⟨hframe.pid, hmap, hframe.debug, hframe.timeBase, hframe.seq, hframe.hostPending⟩
  | hostFinish =>
    have hframe := hostFinish_frame { s with inputs := rest }
    exact ⟨hframe.map, hframe.debug, hframe.timeBase, hframe.netPending, hostFinish_seq _⟩
  | host op =>
    cases op with
    | dumpPid id =>
      have hframe := hostAct_frame (.dumpPid id) { s with inputs := rest } fun _ => by simp
      exact ⟨hframe.map, hframe.timeBase, hframe.netPending, hframe.debug, fun hfree => hostAct_dumpPid_of_free hfree⟩
    | setOutputLimits id lo hi =>
      have hframe := hostAct_frame (.setOutputLimits id lo hi) { s with inputs := rest } fun _ => by simp
      refine ⟨hframe.map, hframe.timeBase, hframe.netPending, hframe.debug, fun hge => ?_⟩
      rw [agentMove, hostAct, pidOf_of_ge (by exact hge)]
    | setControllerDirection id dir =>
      have hframe := hostAct_frame (.setControllerDirection id dir) { s with inputs := rest } fun _ => by simp
      refine ⟨hframe.map, hframe.timeBase, hframe.netPending, hframe.debug, fun hge => ?_⟩
      rw [agentMove, hostAct, pidOf_of_ge (by exact hge)]
    | _ => exact ⟨rfl, rfl, rfl, rfl⟩

/-! ### The race of R107 -/

theorem turn_of_proceed {s : State} {held : Option PidId} {rest : List Input} (h : s.inputs = .proceed :: rest) :
    turn held s = { s with inputs := rest } := by
  rw [turn, h, runMoves]

/-- A turn in which one move stands, with no controller held. -/
theorem turn_of_agent {s : State} {m : AgentMove} (h : s.inputs = [.agent m]) :
    turn none s = { agentMove m s with inputs := [] } := by
  rw [turn, h, runMoves, if_neg (by simp [blocked]), runMoves]

theorem netFinish_of_write_inBounds {s : State} {a : Addr} {ty : Ty} {v : Word}
    (h : s.netPending = some ⟨a, ty, some v⟩) (hb : a.toNat + ty.width s.cfg ≤ s.cfg.memCap) :
    netFinish s = { s.withRaw ty a.toNat v.toNat with netPending := none } := by
  rw [netFinish_of_write h rfl, memWrite_of_inBounds ((inBounds_iff ..).mpr hb)]
  rfl

theorem rawAt_u8 (s : State) (a : Nat) : s.rawAt .u8 a = (s.mem.read a).toNat := by
  simp [State.rawAt, Ty.width, Memory.readBytes, leValue]

/-- The byte that an ADD of type u8 stores is the sum modulo 256 (R230). -/
theorem u8_sum (old : Byte) (raw : Word) :
    BitVec.ofNat 8 (toRaw .u8 (addResult .u8 (ofRaw .u8 old.toNat) (ofRaw .u8 raw.toNat))) =
      old + BitVec.setWidth 8 raw := by
  rw [toRaw_addResult, toRaw_eq_ofInt, BitVec.ofInt_add, ofInt_ofRaw, ofInt_ofRaw]
  show BitVec.ofNat 8 (BitVec.ofNat 8 old.toNat + BitVec.ofNat 8 raw.toNat).toNat = _
  rw [BitVec.ofNat_toNat, BitVec.ofNat_toNat, BitVec.ofNat_toNat, BitVec.setWidth_eq, BitVec.setWidth_eq]

/-- The ADD of the race: the destination is read, the network actor's write is made, and the sum is stored over it. -/
theorem exec_add_race {s : State} {id : BitVec 4} {m2 : Mode} {dst : Addr} {raw w : Word}
    (hd : dst.toNat < s.cfg.memCap) (hpending : s.netPending = some ⟨dst, .u8, some w⟩)
    (hi : s.inputs = [.proceed, .agent .netFinish]) :
    exec (.add ⟨id, m2, .u8, .literal⟩ dst (.lit raw)) s = .next { s with
      mem := (s.mem.writeBytes dst.toNat [BitVec.ofNat 8 w.toNat]).writeBytes dst.toNat
        [s.mem.read dst.toNat + BitVec.setWidth 8 raw]
      netPending := none
      inputs := []
      pc := s.pc + 5 } := by
  have hin : inBounds dst.toNat (Ty.u8.width s.cfg) s = true := (inBounds_iff ..).mpr hd
  have hload : loadTyped none .u8 dst.toNat s =
      .done (ofRaw .u8 (s.mem.read dst.toNat).toNat) { s with inputs := [.agent .netFinish] } := by
    rw [loadTyped_eq, turn_of_proceed hi, if_pos (by exact hin), ← rawAt_u8]
    rfl
  have hturn : turn none { s with inputs := [.agent .netFinish] } =
      { s.withRaw .u8 dst.toNat w.toNat with netPending := none, inputs := [] } := by
    rw [turn_of_agent rfl, agentMove, netFinish_of_write_inBounds (by exact hpending) (by exact hd)]
    rfl
  have hstore : ∀ v : Int, storeTyped .u8 dst.toNat v { s with inputs := [.agent .netFinish] } =
      .done () { s with
        mem := (s.mem.writeBytes dst.toNat [BitVec.ofNat 8 w.toNat]).writeBytes dst.toNat
          [BitVec.ofNat 8 (toRaw .u8 v)]
        netPending := none
        inputs := [] } := by
    intro v
    rw [storeTyped_eq, hturn, if_pos (by exact hin)]
    rfl
  rw [exec, execAdd, inPlace, evalOperand_lit, Res.bind_done, hload, Res.bind_done, Res.bind_done, hstore, u8_sum,
    concludeAfter_done]
  rfl

/-- Settles O21: the second of two stores to a cell is the one that stays. -/
theorem addLosesUpdate : Obligations.AddLosesUpdate := by
  unfold Obligations.AddLosesUpdate
  intro s id m2 dst raw w hs hd hpending hi
  obtain ⟨hmem, -⟩ := hs
  refine ⟨_, exec_add_race hd hpending hi, rfl, rfl, ?_, fun a ha => ?_⟩
  · have hwf : (s.mem.writeBytes dst.toNat [BitVec.ofNat 8 w.toNat]).wf s.cfg.memCap = true :=
      Memory.wf_write hmem hd
    show (Memory.writeBytes _ _ _).read _ = _
    rw [Memory.read_writeBytes hwf (by simpa using hd), if_pos (by simp)]
    simp
  · have hout : a < dst.toNat ∨ dst.toNat + 1 ≤ a := by omega
    show (Memory.writeBytes _ _ _).read _ = _
    rw [Memory.read_writeBytes_of_outside hout, Memory.read_writeBytes_of_outside hout]

/-! ### `writeValue` of the network port (R417) -/

theorem run_succ (M : Host.Core) (k : Nat) {s t : M.State} (h : M.step s = .next t) :
    M.run (k + 1) s = M.run k t := by
  rw [Host.Core.run, h]

theorem run_zero (s : State) : Host.Core.run Sys2Proof.core 0 s = .next s := rfl

/-- A run whose next transition is another agent's move. -/
theorem run_agent {s : State} {m : AgentMove} {rest : List Input} (h : s.inputs = .agent m :: rest) (k : Nat) :
    Host.Core.run Sys2Proof.core (k + 1) s =
      Host.Core.run Sys2Proof.core k (agentMove m { s with inputs := rest }) :=
  run_succ Sys2Proof.core k (step_agent h)

/-- The snapshot of an entry, where the operation is not refused. -/
theorem valueAccess_of_allowed {id : Nat} {v : Option Word} {s : State} {k : SlotId} (hk : k.val = id)
    (hid : id < s.cfg.mapSlots) (hactive : s.map[k].active s.cfg = true)
    (hb : s.map[k].valueAddress.toNat + s.map[k].ty.width s.cfg ≤ s.cfg.memCap) :
    valueAccess id v s = some ⟨s.map[k].valueAddress, s.map[k].ty, v⟩ := by
  have hin := (inBounds_iff _ _ s).mpr hb
  rw [valueAccess, slotOf_eq_some.mpr ⟨hk, hid⟩]
  simp only [hactive, hin, Bool.and_self, if_true]

theorem valueAccess_of_refused {id : Nat} {v : Option Word} {s : State}
    (h : ∀ k : SlotId, k.val = id → s.cfg.mapSlots ≤ id ∨ s.map[k].active s.cfg = false ∨
      s.cfg.memCap < s.map[k].valueAddress.toNat + s.map[k].ty.width s.cfg) :
    valueAccess id v s = none := by
  unfold valueAccess
  split
  · rfl
  next k hslot =>
    obtain ⟨hk, hid⟩ := slotOf_eq_some.mp hslot
    refine if_neg fun hand => ?_
    obtain ⟨hactive, hin⟩ := Bool.and_eq_true_iff.mp hand
    rw [inBounds_iff] at hin
    rcases h k hk with hge | hinactive | hout
    · omega
    · rw [hactive] at hinactive
      cases hinactive
    · omega

/-- The two moves of a `writeValue`: the snapshot, and the data access that it leaves pending. -/
theorem run_writeValue {s : State} {id : Nat} {v : Word}
    (hi : s.inputs = [.agent (.net (.writeValue id v)), .agent .netFinish]) (hpending : s.netPending = none) :
    Host.Core.run Sys2Proof.core 2 s =
      .next (netFinish { s with inputs := [], netPending := valueAccess id (some v) s }) := by
  have hbegin : agentMove (.net (.writeValue id v)) { s with inputs := [.agent .netFinish] } =
      { s with inputs := [.agent .netFinish], netPending := valueAccess id (some v) s } := by
    rw [agentMove, netAct, netFinish_of_none (by exact hpending)]
    rfl
  rw [run_agent hi, hbegin, run_agent rfl, run_zero]
  rfl

/-- Settles O23: the pending access is the whole effect, or there is none. -/
theorem networkWritesValue : Obligations.NetworkWritesValue := by
  unfold Obligations.NetworkWritesValue
  intro s id v hi hpending
  rw [run_writeValue hi hpending]
  refine ⟨fun k hk hid hactive hb => ?_, fun hrefused => ?_⟩
  · rw [valueAccess_of_allowed hk hid hactive hb, netFinish_of_write_inBounds rfl (by exact hb), State.withRaw,
      State.withRaw, hpending]
  · rw [valueAccess_of_refused hrefused, netFinish_of_none rfl, ← hpending]

end Sys2Proof.Machine

/-! PROOF. The PID bank (47_pid.md): the faults of PIDINIT, PIDCLEAR, PIDSTOP and PIDRUN (R352 to R355, R360, R365,
R368), one compute as the run of its five moves (R370 to R376), and the host's configuration (R366, R367). Anti-windup
(R380) is a fact about the clamp alone; the bump-less start (R381) is a compute with no error and no change of input
from an accumulator that PIDRUN has seeded. -/

namespace Sys2Proof.Machine

/-! ### Words of data memory and clamped words (R202, R212, R213) -/

theorem signedValue_rat (raw : Nat) : signedValue .rat raw = (BitVec.ofNat 32 raw).toInt := if_pos rfl

/-- A rational that is loaded is kept as its raw pattern. -/
theorem ofInt_ofRaw_rat (raw : Nat) : BitVec.ofInt 32 (ofRaw .rat raw) = BitVec.ofNat 32 raw := ofInt_ofRaw .rat raw

theorem clampWord_toInt_eq (w lo hi : Word) :
    clampWord w.toInt lo hi = if hi.toInt < w.toInt then hi else if w.toInt < lo.toInt then lo else w := by
  unfold clampWord clamp
  split_ifs <;> exact BitVec.ofInt_toInt

theorem clampWord_of_within {w lo hi : Word} (hlo : lo.toInt ≤ w.toInt) (hhi : w.toInt ≤ hi.toInt) :
    clampWord w.toInt lo hi = w := by
  rw [clampWord_toInt_eq, if_neg (Int.not_lt.mpr hhi), if_neg (Int.not_lt.mpr hlo)]

/-- A clamped word lies within a proper pair of limits (R380). -/
theorem bounds_clampWord {p : Pid} {lo hi : Word} (hlo : p.outMin = lo) (hhi : p.outMax = hi) (x : Int) :
    p.bounds (clampWord x lo hi) := by
  subst hlo hhi
  intro hproper
  rw [clampWord_toInt]
  split_ifs <;> omega

/-! ### A controller and the others -/

theorem setPid_get_of_ne {i k : PidId} (h : k ≠ i) (p : Pid) (s : State) : (setPid i p s).pid[k] = s.pid[k] :=
  (setPid_get i k p s).trans (if_neg h)

/-- A change of one controller, as the statements give it: by the controller's number. -/
theorem setPid_get_update (g : Pid → Pid) (i k : PidId) (s : State) :
    (setPid i (g s.pid[i]) s).pid[k] = if k.val = i.val then g s.pid[k] else s.pid[k] := by
  rw [setPid_get]
  by_cases hk : k = i
  · rw [if_pos hk, if_pos (congrArg Fin.val hk), hk]
  · rw [if_neg hk, if_neg fun hval => hk (Fin.ext hval)]

theorem pidOf_of_val {id : Nat} {i : PidId} {s : State} (hi : id = i.val) (hlt : i.val < s.cfg.nPid) :
    pidOf id s = some i :=
  pidOf_eq_some.mpr ⟨hi.symm, hi ▸ hlt⟩

/-! ### PIDINIT, PIDCLEAR and PIDSTOP -/

/-- Settles O50: `init` tests the controller before it checks the addresses, and writes after both. -/
theorem pidInitFaults : Obligations.PidInitFaults := by
  unfold Obligations.PidInitFaults
  intro s ot f id hq hid hlt hkp hki hkd hlo hhi
  have hexec := exec_pidInit_readable hq.1 hid hlt hkp hki hkd hlo hhi
  refine ⟨fun hinit => ?_, fun hinit hout => ?_⟩
  · rw [hexec, initOp, beginBank_of_quiet id s hq, if_pos hinit, concludeAfter_raised]
    rfl
  · have hinvalid : ¬ boundAddressesValid f.inAddr f.outAddr f.spAddr s = true := by
      rw [boundAddressesValid_iff]
      omega
    have hraised : initOp id (s.pidInitArgs f) s = .raised .memoryAccessViolation s := by
      rw [initOp, beginBank_of_quiet id s hq, if_neg (hinit ▸ Bool.false_ne_true)]
      exact if_neg hinvalid
    rw [hexec, hraised, concludeAfter_raised]
    rfl

theorem exec_pidClear_quiet {s : State} {ot : Optype} {id : PidId} (hq : s.quiet) (hid : ot.id.toNat = id.val)
    (hlt : id.val < s.cfg.nPid) :
    exec (.pidClear ot) s =
      .next { setPid id { s.pid[id] with initialized := false } s with pc := s.pc + 2 } := by
  rw [exec, execPidClear, withPidId_of_some (pidOf_of_val hid hlt), beginBank_of_quiet id s hq, concludeAfter_done]
  rfl

theorem exec_pidStop_quiet {s : State} {ot : Optype} {id : PidId} (hq : s.quiet) (hid : ot.id.toNat = id.val)
    (hlt : id.val < s.cfg.nPid) :
    exec (.pidStop ot) s = .next { setPid id { s.pid[id] with mode := .manual } s with pc := s.pc + 2 } := by
  rw [exec, execPidStop, withPidId_of_some (pidOf_of_val hid hlt), setManual, beginBank_of_quiet id s hq,
    concludeAfter_done]
  rfl

/-- Settles O52: each replaces one field of the controller that it names. -/
theorem pidClearStopResult : Obligations.PidClearStopResult := by
  unfold Obligations.PidClearStopResult
  intro s ot hq hlt
  have hid16 : ot.id.toNat < Config.maxPid := ot.id.isLt
  constructor
  · refine ⟨_, exec_pidClear_quiet (id := ⟨ot.id.toNat, hid16⟩) hq rfl hlt, rfl, fun k => ?_⟩
    exact setPid_get_update (fun p => { p with initialized := false }) ⟨ot.id.toNat, hid16⟩ k s
  · refine ⟨_, exec_pidStop_quiet (id := ⟨ot.id.toNat, hid16⟩) hq rfl hlt, rfl, fun k => ?_⟩
    exact setPid_get_update (fun p => { p with mode := .manual }) ⟨ot.id.toNat, hid16⟩ k s

/-! ### PIDRUN (R355, R365) -/

/-- The raw patterns of the cells that a controller is bound to. -/
def State.inputWord (s : State) (id : PidId) : Word := BitVec.ofNat 32 (s.rawAt .rat s.pid[id].inAddr.toNat)

def State.setpointWord (s : State) (id : PidId) : Word := BitVec.ofNat 32 (s.rawAt .rat s.pid[id].spAddr.toNat)

def State.outputWord (s : State) (id : PidId) : Word := BitVec.ofNat 32 (s.rawAt .rat s.pid[id].outAddr.toNat)

section
variable {s : State} {ot : Optype} {id : PidId} (hq : s.quiet) (hid : ot.id.toNat = id.val) (hlt : id.val < s.cfg.nPid)
include hq hid hlt

/-- PIDRUN of a controller that is not both initialized and manual. -/
theorem exec_pidRun_plain (h : ¬ (s.pid[id].mode = .manual ∧ s.pid[id].initialized = true)) :
    exec (.pidRun ot) s = .next { setPid id { s.pid[id] with mode := .automatic } s with pc := s.pc + 2 } := by
  rw [exec, execPidRun, withPidId_of_some (pidOf_of_val hid hlt), setAutomatic, beginBank_of_quiet id s hq, if_neg h,
    concludeAfter_done]
  rfl

/-- PIDRUN of an initialized manual controller seeds it from its output cell and its input cell. -/
theorem exec_pidRun_seeds (hb : s.bankSound) (hinit : s.pid[id].initialized = true) (hmode : s.pid[id].mode = .manual) :
    exec (.pidRun ot) s = .next
      { setPid id { s.pid[id].seeded (s.outputWord id) (s.inputWord id) with mode := .automatic } s with
        pc := s.pc + 2 } := by
  obtain ⟨hin, hout, -⟩ := bankSound_bounds hb hinit
  have hloadOut : loadTyped (some id) .rat s.pid[id].outAddr.toNat s = _ := loadTyped_quiet hq.1 hout
  have hloadIn : loadTyped (some id) .rat s.pid[id].inAddr.toNat s = _ := loadTyped_quiet hq.1 hin
  rw [exec, execPidRun, withPidId_of_some (pidOf_of_val hid hlt), setAutomatic, beginBank_of_quiet id s hq,
    if_pos ⟨hmode, hinit⟩, hloadOut, Res.bind_done, hloadIn, Res.bind_done, ofInt_ofRaw_rat, ofInt_ofRaw_rat,
    concludeAfter_done]
  rfl

end

/-- Settles O53: the seeded accumulator is the clamped output cell. -/
theorem pidRunResult : Obligations.PidRunResult := by
  unfold Obligations.PidRunResult
  intro s ot id hq hb hid hlt
  by_cases hseed : s.pid[id].mode = .manual ∧ s.pid[id].initialized = true
  · obtain ⟨hmode, hinit⟩ := hseed
    refine ⟨_, exec_pidRun_seeds hq hid hlt hb hinit hmode, rfl, fun k hk => setPid_get_of_ne hk _ s,
      fun hnot => absurd ⟨hinit, hmode⟩ hnot, fun _ _ => ?_⟩
    show ((setPid id _ s).pid[id] = _) ∧ (setPid id _ s).pid[id].lastInput = _ ∧
      ∃ o : Int, _ ∧ (setPid id _ s).pid[id].iSum.toInt = _
    rw [setPid_self]
    refine ⟨rfl, rfl, _, rfl, ?_⟩
    rw [signedValue_rat]
    exact clampWord_toInt ..
  · refine ⟨_, exec_pidRun_plain hq hid hlt hseed, rfl, fun k hk => setPid_get_of_ne hk _ s,
      fun _ => setPid_self id _ s, fun hinit hmode => absurd ⟨hmode, hinit⟩ hseed⟩

/-! ### The gates of a compute (R370 to R372, R376) -/

theorem mapGateOpen_iff_of_some {p : Pid} {s : State} {k : SlotId} (hk : p.mapId = some k) :
    mapGateOpen p s = true ↔ s.map[k].active s.cfg = false ∨ s.map[k].status = 0 ∨ s.map[k].status = 1 := by
  simp only [mapGateOpen, hk]
  generalize s.map[k] = m
  unfold slotReport
  cases m.active s.cfg <;> simp [Config.statusDone]

theorem mapGateOpen_of_clean {p : Pid} {s : State}
    (h : ∀ k : SlotId, p.mapId = some k →
      s.map[k].active s.cfg = false ∨ s.map[k].status = 0 ∨ s.map[k].status = 1) :
    mapGateOpen p s = true := by
  cases hmap : p.mapId with
  | none => rw [mapGateOpen, hmap]
  | some k => exact (mapGateOpen_iff_of_some hmap).mpr (h k hmap)

theorem mapGateOpen_of_error {p : Pid} {s : State} {k : SlotId} (hk : p.mapId = some k)
    (hactive : s.map[k].active s.cfg = true) (herr : s.map[k].status &&& 0x7E ≠ 0) : mapGateOpen p s = false := by
  refine Bool.eq_false_iff.mpr fun hopen => ?_
  rcases (mapGateOpen_iff_of_some hk).mp hopen with hinactive | hzero | hdone
  · exact Bool.false_ne_true (hinactive.symm.trans hactive)
  · exact herr (by rw [hzero]; rfl)
  · exact herr (by rw [hdone]; rfl)

theorem live_iff (p : Pid) : p.live = true ↔ p.initialized = true ∧ p.mode = .automatic := by
  simp [Pid.live]

theorem live_eq_false {p : Pid} (h : p.initialized = false ∨ p.mode = .manual) : p.live = false := by
  rcases h with h | h <;> simp [Pid.live, h]

/-- The sweep goes on with the next controller, or ends (R376). -/
theorem sweepAfter_spec (id : PidId) (s : State) :
    (∀ next : PidId, next.val = id.val + 1 → next.val < s.cfg.nPid → sweepAfter id s = .mapGate next) ∧
      (s.cfg.nPid ≤ id.val + 1 → sweepAfter id s = .idle) := by
  refine ⟨fun next hnext hlt => ?_, fun hge => ?_⟩
  · rw [sweepAfter, pidOf_of_val hnext.symm hlt]
  · rw [sweepAfter, pidOf_of_ge hge]

/-- Settles O55: a gate that is closed moves the sweep on and writes nothing else. -/
theorem computeGated : Obligations.ComputeGated := by
  unfold Obligations.ComputeGated
  intro s id rest hhost hsched hgate
  suffices hmove : sequencerMove { s with inputs := rest } = { s with inputs := rest, seq := sweepAfter id s } from
    ⟨_, (step_agent hsched).trans (congrArg Host.Outcome.next hmove), rfl, sweepAfter_spec id s⟩
  rcases hgate with ⟨hseq, hclosed⟩ | ⟨hseq, hearly⟩
  · have hshut : (s.pid[id].live && mapGateOpen s.pid[id] s) = false := by
      rcases hclosed with hinit | hmode | ⟨k, hk, hactive, herr⟩
      · rw [live_eq_false (.inl hinit), Bool.false_and]
      · rw [live_eq_false (.inr hmode), Bool.false_and]
      · rw [mapGateOpen_of_error hk hactive herr, Bool.and_false]
    rw [sequencerMove_mapGate (by exact hseq) (by exact hhost)]
    exact if_neg (Bool.not_eq_true _ ▸ hshut)
  · have hshut : ¬ timeGateOpen s.pid[id] s.timeBase = true := by
      simpa [timeGateOpen] using hearly
    rw [sequencerMove_timeGate (by exact hseq)]
    exact if_neg hshut

/-! ### A compute that passes its gates (R373 to R375) -/

/-- The compute of controller `id` stands first, passes its gates, and is bound to valid addresses. -/
structure ComputeReady (s : State) (id : PidId) : Prop where
  seq : s.seq = .mapGate id
  hostPending : s.hostPending = none
  live : s.pid[id].live = true
  mapGate : mapGateOpen s.pid[id] s = true
  timeGate : timeGateOpen s.pid[id] s.timeBase = true
  inAddr : s.pid[id].inAddr.toNat + s.cfg.ratBytes ≤ s.cfg.memCap
  outAddr : s.pid[id].outAddr.toNat + s.cfg.ratBytes ≤ s.cfg.memCap
  spAddr : s.pid[id].spAddr.toNat + s.cfg.ratBytes ≤ s.cfg.memCap

/-- The accumulator that the compute leaves (R373). -/
def State.nextSum (s : State) (id : PidId) : Word :=
  nextISum s.cfg s.pid[id] (s.inputWord id) (s.setpointWord id)

/-- The output that the compute stores (R374). -/
def State.nextOut (s : State) (id : PidId) : Word :=
  nextOutput s.cfg s.pid[id] (s.nextSum id) (s.inputWord id) (s.setpointWord id)

/-- The state after the compute's last move. -/
def State.computed (s : State) (id : PidId) : State :=
  setPid id { s.pid[id] with iSum := s.nextSum id, lastInput := s.inputWord id, lastTime := s.timeBase }
    { s with
      mem := s.mem.writeBytes s.pid[id].outAddr.toNat (leBytes s.cfg.ratBytes (s.nextOut id).toNat)
      seq := sweepAfter id s
      inputs := [] }

/-- A run whose next transition is the sequencer's move. -/
theorem run_sequencer {s t : State} {k : Nat} (h : s.inputs = List.replicate (k + 1) (.agent .sequencer))
    (ht : sequencerMove { s with inputs := List.replicate k (.agent .sequencer) } = t) :
    Host.Core.run Sys2Proof.core (k + 1) s = Host.Core.run Sys2Proof.core k t := by
  rw [run_agent h, agentMove, ht]

/-- The last move of a compute: the store, and the controller as the compute leaves it. -/
theorem sequencerMove_last {s u : State} {id : PidId} (h : ComputeReady s id)
    (hu : u = setPid id { s.pid[id] with iSum := s.nextSum id }
      { s with seq := .writeOutput id s.timeBase (s.inputWord id) (s.nextOut id), inputs := [] }) :
    sequencerMove u = s.computed id := by
  have hpid : u.pid[id] = { s.pid[id] with iSum := s.nextSum id } := by rw [hu]; exact setPid_self ..
  have hseq : u.seq = .writeOutput id s.timeBase (s.inputWord id) (s.nextOut id) := by rw [hu]; rfl
  have hcfg : u.cfg = s.cfg := by rw [hu]; rfl
  rw [sequencerMove_writeOutput hseq (by rw [hpid, hcfg]; exact h.outAddr), hpid, hu]
  exact setPid_setPid id _ _
    { s with
      mem := s.mem.writeBytes s.pid[id].outAddr.toNat (leBytes s.cfg.ratBytes (s.nextOut id).toNat)
      seq := sweepAfter id s
      inputs := [] }

/-- The five moves of a compute, one after the other (log 11). -/
theorem run_compute {s : State} {id : PidId} (h : ComputeReady s id)
    (hsched : s.inputs = List.replicate 5 (.agent .sequencer)) :
    Host.Core.run Sys2Proof.core 5 s = .next (s.computed id) := by
  have hmap : sequencerMove { s with inputs := List.replicate 4 (.agent .sequencer) } =
      { s with seq := .timeGate id, inputs := List.replicate 4 (.agent .sequencer) } := by
    rw [sequencerMove_mapGate (by exact h.seq) (by exact h.hostPending)]
    exact if_pos (Bool.and_eq_true_iff.mpr ⟨h.live, h.mapGate⟩)
  have htime : sequencerMove { s with seq := .timeGate id, inputs := List.replicate 3 (.agent .sequencer) } =
      { s with seq := .readInput id s.timeBase, inputs := List.replicate 3 (.agent .sequencer) } := by
    rw [sequencerMove_timeGate rfl]
    exact if_pos h.timeGate
  have hinput : sequencerMove
        { s with seq := .readInput id s.timeBase, inputs := List.replicate 2 (.agent .sequencer) } =
      { s with
        seq := .readSetpoint id s.timeBase (s.inputWord id)
        inputs := List.replicate 2 (.agent .sequencer) } :=
    sequencerMove_readInput rfl h.inAddr
  have hsetpoint : sequencerMove
        { s with
          seq := .readSetpoint id s.timeBase (s.inputWord id)
          inputs := List.replicate 1 (.agent .sequencer) } =
      setPid id { s.pid[id] with iSum := s.nextSum id }
        { s with
          seq := .writeOutput id s.timeBase (s.inputWord id) (s.nextOut id)
          inputs := List.replicate 1 (.agent .sequencer) } :=
    sequencerMove_readSetpoint
      (s := { s with
        seq := .readSetpoint id s.timeBase (s.inputWord id)
        inputs := List.replicate 1 (.agent .sequencer) })
      rfl h.spAddr (s.setpointWord id) rfl
  rw [run_sequencer hsched hmap, run_sequencer rfl htime, run_sequencer rfl hinput, run_sequencer rfl hsetpoint,
    run_sequencer rfl (sequencerMove_last h rfl), run_zero]

theorem timeGateOpen_of_le {p : Pid} {now : BitVec 64} (h : p.sampleMs.toNat * 1000 ≤ (now - p.lastTime).toNat) :
    timeGateOpen p now = true := decide_eq_true h

theorem nextSum_toInt (s : State) (id : PidId) :
    (s.nextSum id).toInt =
      if s.pid[id].outMax.toInt < s.pid[id].iSum.toInt +
          s.pid[id].ki.toInt * ((s.setpointWord id).toInt - (s.inputWord id).toInt) / 2 ^ s.cfg.ratFrac then
        s.pid[id].outMax.toInt
      else if s.pid[id].iSum.toInt +
          s.pid[id].ki.toInt * ((s.setpointWord id).toInt - (s.inputWord id).toInt) / 2 ^ s.cfg.ratFrac <
            s.pid[id].outMin.toInt then s.pid[id].outMin.toInt
      else s.pid[id].iSum.toInt +
          s.pid[id].ki.toInt * ((s.setpointWord id).toInt - (s.inputWord id).toInt) / 2 ^ s.cfg.ratFrac := by
  rw [State.nextSum, nextISum, clampWord_toInt, qmul_ediv]

/-- Settles O54: the run of the five moves, with the clamps written out. -/
theorem computeWritesOutput : Obligations.ComputeWritesOutput := by
  unfold Obligations.ComputeWritesOutput
  intro s id hb hseq hhost hsched hinit hmode hmap htime
  obtain ⟨hin, hout, hsp⟩ := bankSound_bounds hb hinit
  have hready : ComputeReady s id := ⟨hseq, hhost, (live_iff _).mpr ⟨hinit, hmode⟩, mapGateOpen_of_clean hmap,
    timeGateOpen_of_le htime, hin, hout, hsp⟩
  have hself : (s.computed id).pid[id] =
      { s.pid[id] with iSum := s.nextSum id, lastInput := s.inputWord id, lastTime := s.timeBase } :=
    setPid_self ..
  refine ⟨_, run_compute hready hsched, ⟨rfl, rfl, rfl, rfl, rfl, rfl, rfl⟩, rfl,
    fun k hk => setPid_get_of_ne hk _ _, ?_, fun x => if s.pid[id].outMax.toInt < x then s.pid[id].outMax.toInt
      else if x < s.pid[id].outMin.toInt then s.pid[id].outMin.toInt else x, _, _, (s.nextOut id).toInt,
    fun _ => rfl, rfl, rfl, ?_, ?_, ?_⟩
  · rw [hself]
    rfl
  · rw [hself]
    simp only [signedValue_rat]
    exact nextSum_toInt s id
  · rw [hself]
    simp only [signedValue_rat]
    rw [State.nextOut, nextOutput, clampWord_toInt, qmul_ediv, qmul_ediv]
    rfl
  · rw [BitVec.ofInt_toInt]
    rfl

/-! ### The host's configuration (R366, R367) -/

section
variable {s : State} {id : PidId} {rest : List Input} (hseq : s.seq = .idle) (hhost : s.hostPending = none)
  (hlt : id.val < s.cfg.nPid)
include hseq hhost hlt

/-- A `setOutputLimits` that need not wait for a transaction in progress. -/
theorem agentMove_setOutputLimits (lo hi : Word) :
    agentMove (.host (.setOutputLimits id.val lo hi)) { s with inputs := rest } =
      setOutputLimits id lo hi { s with inputs := rest } := by
  have hid : pidOf id.val { s with inputs := rest } = some id := pidOf_of_val rfl hlt
  simp only [agentMove, hostAct, hid]
  rw [hostFinish_of_none (by exact hhost), acquire_of_quiet id _ (by exact hseq) (by exact hhost)]

theorem agentMove_setControllerDirection (dir : Direction) :
    agentMove (.host (.setControllerDirection id.val dir)) { s with inputs := rest } =
      setControllerDirection id dir { s with inputs := rest } := by
  have hid : pidOf id.val { s with inputs := rest } = some id := pidOf_of_val rfl hlt
  simp only [agentMove, hostAct, hid]
  rw [hostFinish_of_none (by exact hhost), acquire_of_quiet id _ (by exact hseq) (by exact hhost)]

end

theorem setOutputLimits_improper {i : PidId} {lo hi : Word} {s : State} (h : hi.toInt ≤ lo.toInt) :
    setOutputLimits i lo hi s = s := if_pos h

theorem setOutputLimits_of_not_live {i : PidId} {lo hi : Word} {s : State} (h : lo.toInt < hi.toInt)
    (hlive : s.pid[i].live = false) :
    setOutputLimits i lo hi s = setPid i { s.pid[i] with outMin := lo, outMax := hi } s := by
  rw [setOutputLimits, if_neg (Int.not_le.mpr h)]
  exact if_neg (by rw [Pid.live] at hlive ⊢; simpa using hlive)

/-- Data memory after a `setOutputLimits` of a computing controller: the output cell is stored only where the clamp
changes it (R366). -/
def State.limitedMem (s : State) (id : PidId) (lo hi : Word) : Memory :=
  if hi.toInt < (s.outputWord id).toInt then (s.withRaw .rat s.pid[id].outAddr.toNat hi.toNat).mem
  else if (s.outputWord id).toInt < lo.toInt then (s.withRaw .rat s.pid[id].outAddr.toNat lo.toNat).mem
  else s.mem

theorem limitedMem_of_within {s : State} {id : PidId} {lo hi : Word} (hproper : lo.toInt < hi.toInt)
    (h : clampWord (s.outputWord id).toInt lo hi = s.outputWord id) : s.limitedMem id lo hi = s.mem := by
  obtain ⟨hlo, hhi⟩ := h ▸ bounds_clampWord (p := { s.pid[id] with outMin := lo, outMax := hi }) rfl rfl _ hproper
  rw [State.limitedMem, if_neg (Int.not_lt.mpr hhi), if_neg (Int.not_lt.mpr hlo)]

theorem limitedMem_of_outside {s : State} {id : PidId} {lo hi : Word}
    (h : clampWord (s.outputWord id).toInt lo hi ≠ s.outputWord id) : s.limitedMem id lo hi =
      (s.withRaw .rat s.pid[id].outAddr.toNat (clampWord (s.outputWord id).toInt lo hi).toNat).mem := by
  rw [clampWord_toInt_eq] at h ⊢
  unfold State.limitedMem
  split_ifs at h ⊢
  · rfl
  · rfl
  · exact absurd rfl h

/-- The state after the two moves of a `setOutputLimits` of a computing controller. -/
def State.limited (s : State) (id : PidId) (lo hi : Word) : State :=
  setPid id { s.pid[id] with outMin := lo, outMax := hi, iSum := clampWord s.pid[id].iSum.toInt lo hi }
    { s with mem := s.limitedMem id lo hi, inputs := [] }

section
variable {s : State} {id : PidId} {lo hi : Word} (hproper : lo.toInt < hi.toInt) (hlive : s.pid[id].live = true)
  (hout : s.pid[id].outAddr.toNat + s.cfg.ratBytes ≤ s.cfg.memCap)
include hproper hlive hout

/-- The output cell lies within the new limits: nothing is left to store. -/
theorem setOutputLimits_of_within (hclamp : clampWord (s.outputWord id).toInt lo hi = s.outputWord id) :
    setOutputLimits id lo hi s =
      setPid id { s.pid[id] with outMin := lo, outMax := hi, iSum := clampWord s.pid[id].iSum.toInt lo hi } s := by
  have hload : loadRat s.pid[id].outAddr s = some (s.outputWord id) := loadRat_eq hout
  have hlive' : ({ s.pid[id] with outMin := lo, outMax := hi } : Pid).live = true := hlive
  simp only [setOutputLimits, if_neg (Int.not_le.mpr hproper), if_pos hlive', hload, if_pos hclamp]

/-- The clamp changes the output cell: its store is left pending (log 15). -/
theorem setOutputLimits_of_outside (hclamp : clampWord (s.outputWord id).toInt lo hi ≠ s.outputWord id) :
    setOutputLimits id lo hi s = { setPid id { s.pid[id] with outMin := lo, outMax := hi } s with
      hostPending := some ⟨id, clampWord (s.outputWord id).toInt lo hi⟩ } := by
  have hload : loadRat s.pid[id].outAddr s = some (s.outputWord id) := loadRat_eq hout
  have hlive' : ({ s.pid[id] with outMin := lo, outMax := hi } : Pid).live = true := hlive
  simp only [setOutputLimits, if_neg (Int.not_le.mpr hproper), if_pos hlive', hload, if_neg hclamp]

end

/-- The pending store of a `setOutputLimits`, and the clamp of the accumulator with it (R366). -/
theorem hostFinish_of_limits {s u : State} {id : PidId} {lo hi w : Word} (hhost : s.hostPending = none)
    (hout : s.pid[id].outAddr.toNat + s.cfg.ratBytes ≤ s.cfg.memCap)
    (hu : u = { setPid id { s.pid[id] with outMin := lo, outMax := hi } s with hostPending := some ⟨id, w⟩ }) :
    hostFinish u =
      setPid id { s.pid[id] with outMin := lo, outMax := hi, iSum := clampWord s.pid[id].iSum.toInt lo hi }
        { s with mem := (s.withRaw .rat s.pid[id].outAddr.toNat w.toNat).mem } := by
  have hpid : u.pid[id] = { s.pid[id] with outMin := lo, outMax := hi } := by rw [hu]; exact setPid_self ..
  have hcfg : u.cfg = s.cfg := by rw [hu]; rfl
  have hpending : u.hostPending = some ⟨id, w⟩ := by rw [hu]
  have hstore : storeRat u.pid[id].outAddr w u = some { u with
      mem := u.mem.writeBytes u.pid[id].outAddr.toNat (leBytes u.cfg.ratBytes w.toNat) } :=
    storeRat_eq (by rw [hpid, hcfg]; exact hout)
  rw [hostFinish_of_some hpending]
  simp only [hstore, Option.getD_some]
  simp only [hpid, hcfg]
  rw [hu, ← hhost]
  exact setPid_setPid id _ _ { s with mem := (s.withRaw .rat s.pid[id].outAddr.toNat w.toNat).mem }

/-- A `setOutputLimits` of a computing controller, with the move that makes its store. -/
theorem run_setOutputLimits {s : State} {id : PidId} {lo hi : Word} (hseq : s.seq = .idle)
    (hhost : s.hostPending = none) (hb : s.bankSound) (hlt : id.val < s.cfg.nPid)
    (hinit : s.pid[id].initialized = true) (hmode : s.pid[id].mode = .automatic) (hproper : lo.toInt < hi.toInt)
    (hsched : s.inputs = [.agent (.host (.setOutputLimits id.val lo hi)), .agent .hostFinish]) :
    Host.Core.run Sys2Proof.core 2 s = .next (s.limited id lo hi) := by
  obtain ⟨-, hout, -⟩ := bankSound_bounds hb hinit
  have hlive : s.pid[id].live = true := (live_iff _).mpr ⟨hinit, hmode⟩
  rw [run_agent hsched, agentMove_setOutputLimits hseq hhost hlt]
  by_cases hclamp : clampWord (s.outputWord id).toInt lo hi = s.outputWord id
  · rw [setOutputLimits_of_within hproper (by exact hlive) (by exact hout) (by exact hclamp), run_agent rfl, run_zero,
      agentMove, hostFinish_of_none (by exact hhost), State.limited, limitedMem_of_within hproper hclamp]
    rfl
  · have hfinish := hostFinish_of_limits (s := { s with inputs := [] }) (w := clampWord (s.outputWord id).toInt lo hi)
      (lo := lo) (hi := hi) (id := id) hhost hout rfl
    rw [setOutputLimits_of_outside hproper (by exact hlive) (by exact hout) (by exact hclamp), run_agent rfl, run_zero,
      State.limited, limitedMem_of_outside hclamp]
    exact congrArg Host.Outcome.next hfinish

/-- A gain that a change of direction negates: only the least word has no negation (R367). -/
theorem negated_gain_toInt (w : Word) : (satWord (-w.toInt)).toInt = min (-w.toInt) 2147483647 := by
  have hupper : w.toInt < 2 ^ 31 := w.toInt_lt
  rw [satWord_toInt]
  omega

theorem setControllerDirection_of_flip {i : PidId} {dir : Direction} {s : State} (hlive : s.pid[i].live = true)
    (hdir : dir ≠ s.pid[i].direction) :
    setControllerDirection i dir s = setPid i { s.pid[i] with
      kp := satWord (-s.pid[i].kp.toInt)
      ki := satWord (-s.pid[i].ki.toInt)
      kd := satWord (-s.pid[i].kd.toInt)
      direction := dir } s := by
  have hflip : (s.pid[i].live && dir != s.pid[i].direction) = true :=
    Bool.and_eq_true_iff.mpr ⟨hlive, bne_iff_ne.mpr hdir⟩
  rw [setControllerDirection, if_pos hflip]

theorem setControllerDirection_of_keep {i : PidId} {dir : Direction} {s : State}
    (h : ¬ (s.pid[i].live = true ∧ dir ≠ s.pid[i].direction)) :
    setControllerDirection i dir s = setPid i { s.pid[i] with direction := dir } s := by
  have hkeep : ¬ (s.pid[i].live && dir != s.pid[i].direction) = true := fun hand =>
    h ((Bool.and_eq_true_iff.mp hand).imp_right bne_iff_ne.mp)
  rw [setControllerDirection, if_neg hkeep]

/-- Settles O58: one case per way in which the controller takes the limits, and one per change of direction. -/
theorem bankConfiguration : Obligations.BankConfiguration := by
  unfold Obligations.BankConfiguration
  intro s id rest hseq hhost hlt
  refine ⟨fun lo hi hsched => ?_, fun lo hi hb hproper hinit hmode hsched => ?_, fun dir hsched => ?_⟩
  · rw [step_agent hsched, agentMove_setOutputLimits hseq hhost hlt]
    exact ⟨fun himproper => congrArg Host.Outcome.next (setOutputLimits_improper himproper),
      fun hproper hidle => congrArg Host.Outcome.next (setOutputLimits_of_not_live hproper (live_eq_false hidle))⟩
  · have hself : (s.limited id lo hi).pid[id] =
        { s.pid[id] with outMin := lo, outMax := hi, iSum := clampWord s.pid[id].iSum.toInt lo hi } := setPid_self ..
    refine ⟨_, run_setOutputLimits hseq hhost hb hlt hinit hmode hproper hsched, rfl,
      fun k hk => setPid_get_of_ne hk _ _, ?_, ?_, _, rfl, ?_⟩
    · rw [hself]
    · rw [hself]
      exact clampWord_toInt ..
    · rw [signedValue_rat]
      rfl
  · rw [step_agent hsched, agentMove_setControllerDirection hseq hhost hlt]
    refine ⟨_, rfl, ?_⟩
    by_cases hflip : s.pid[id].live = true ∧ dir ≠ s.pid[id].direction
    · have hcond := (live_iff _).mp hflip.1
      rw [setControllerDirection_of_flip (s := { s with inputs := rest }) hflip.1 hflip.2, setPid_self,
        if_pos ⟨hcond.1, hcond.2, hflip.2⟩]
      exact ⟨rfl, fun k hk => setPid_get_of_ne hk _ _, rfl, negated_gain_toInt _, negated_gain_toInt _,
        negated_gain_toInt _⟩
    · rw [setControllerDirection_of_keep (s := { s with inputs := rest }) hflip, setPid_self,
        if_neg fun h => hflip ⟨(live_iff _).mpr ⟨h.1, h.2.1⟩, h.2.2⟩]
      exact ⟨rfl, fun k hk => setPid_get_of_ne hk _ _, rfl, rfl, rfl, rfl⟩

/-! ### Anti-windup (R380) -/

/-- Settles O56: what each of the three leaves in the accumulator is a clamp to the controller's own limits. -/
theorem antiWindup : Obligations.AntiWindup := by
  unfold Obligations.AntiWindup
  refine ⟨fun s t id now input rest hsched hseq hsp hstep => ?_,
    fun s t ot id hq hb hid hlt hinit hmode hexec => ?_,
    fun s t id lo hi hseq hhost hb hlt hinit hmode hproper hsched hrun => ?_⟩
  · have hmove := sequencerMove_readSetpoint (s := { s with inputs := rest }) hseq hsp (s.setpointWord id) rfl
    obtain rfl := Host.Outcome.next.inj (((step_agent hsched).trans (congrArg Host.Outcome.next hmove)).symm.trans hstep)
    rw [setPid_self]
    exact ⟨bounds_clampWord rfl rfl _, _, rfl, bounds_clampWord rfl rfl _⟩
  · obtain rfl := Host.Outcome.next.inj ((exec_pidRun_seeds hq hid hlt hb hinit hmode).symm.trans hexec)
    show (setPid id _ s).pid[id].bounds (setPid id _ s).pid[id].iSum
    rw [setPid_self]
    exact bounds_clampWord rfl rfl _
  · obtain rfl := Host.Outcome.next.inj
      ((run_setOutputLimits hseq hhost hb hlt hinit hmode hproper hsched).symm.trans hrun)
    rw [State.limited, setPid_self]
    exact ⟨rfl, rfl, bounds_clampWord rfl rfl _⟩

/-! ### The bump-less start (R381) -/

/-- A compute with no error and no change of input keeps an accumulator that lies within the limits. -/
theorem nextSum_of_steady {s : State} {id : PidId} (hsp : s.setpointWord id = s.inputWord id)
    (hlo : s.pid[id].outMin.toInt ≤ s.pid[id].iSum.toInt) (hhi : s.pid[id].iSum.toInt ≤ s.pid[id].outMax.toInt) :
    s.nextSum id = s.pid[id].iSum := by
  rw [State.nextSum, nextISum, hsp, Int.sub_self, qmul_ediv, Int.mul_zero, Int.zero_ediv, Int.add_zero]
  exact clampWord_of_within hlo hhi

/-- … and that accumulator is what it stores. -/
theorem nextOut_of_steady {s : State} {id : PidId} (hsp : s.setpointWord id = s.inputWord id)
    (hlast : s.pid[id].lastInput = s.inputWord id) (hlo : s.pid[id].outMin.toInt ≤ s.pid[id].iSum.toInt)
    (hhi : s.pid[id].iSum.toInt ≤ s.pid[id].outMax.toInt) : s.nextOut id = s.pid[id].iSum := by
  rw [State.nextOut, nextOutput, nextSum_of_steady hsp hlo hhi, hsp, hlast, Int.sub_self, qmul_ediv, qmul_ediv,
    Int.mul_zero, Int.mul_zero, Int.zero_ediv, Int.zero_add, Int.sub_zero]
  exact clampWord_of_within hlo hhi

/-- The output cell after a compute holds the output that it stored. -/
theorem computed_rawAt_out {s : State} {id : PidId} (hcanon : s.storesCanonical) (h4 : s.cfg.ratBytes = 4)
    (hout : s.pid[id].outAddr.toNat + s.cfg.ratBytes ≤ s.cfg.memCap) :
    (s.computed id).rawAt .rat s.pid[id].outAddr.toNat = (s.nextOut id).toNat := by
  have hread : (s.mem.writeBytes s.pid[id].outAddr.toNat (leBytes s.cfg.ratBytes (s.nextOut id).toNat)).readBytes
      s.pid[id].outAddr.toNat s.cfg.ratBytes = leBytes s.cfg.ratBytes (s.nextOut id).toNat := by
    have h := Memory.readBytes_writeBytes (bs := leBytes s.cfg.ratBytes (s.nextOut id).toNat) hcanon.1
      (by rwa [leBytes_length])
    rwa [leBytes_length] at h
  calc (s.computed id).rawAt .rat s.pid[id].outAddr.toNat
      = leValue (leBytes s.cfg.ratBytes (s.nextOut id).toNat) := congrArg leValue hread
    _ = (s.nextOut id).toNat := by
      rw [leValue_leBytes, h4]
      exact Nat.mod_eq_of_lt (s.nextOut id).isLt

/-- PIDRUN has seeded controller `id`, and its compute is about to begin. -/
def State.seededStart (s : State) (id : PidId) : State :=
  { setPid id { s.pid[id].seeded (s.outputWord id) (s.inputWord id) with mode := .automatic } s with
    pc := s.pc + 2
    seq := .mapGate id
    inputs := List.replicate 5 (.agent .sequencer) }

theorem seededStart_pid (s : State) (id : PidId) : (s.seededStart id).pid[id] =
    { s.pid[id].seeded (s.outputWord id) (s.inputWord id) with mode := .automatic } :=
  setPid_self ..

/-- The seeding leaves the cells and the bound addresses as they are. -/
theorem seededStart_words (s : State) (id : PidId) : (s.seededStart id).inputWord id = s.inputWord id ∧
    (s.seededStart id).setpointWord id = s.setpointWord id ∧
    (s.seededStart id).pid[id].outAddr = s.pid[id].outAddr := by
  rw [State.inputWord, State.setpointWord, seededStart_pid]
  exact ⟨rfl, rfl, rfl⟩

/-- An output cell that lies within the limits is the seeded accumulator. -/
theorem seededStart_iSum {s : State} {id : PidId} (hlo : s.pid[id].outMin.toInt ≤ (s.outputWord id).toInt)
    (hhi : (s.outputWord id).toInt ≤ s.pid[id].outMax.toInt) : (s.seededStart id).pid[id].iSum = s.outputWord id := by
  rw [seededStart_pid]
  exact clampWord_of_within hlo hhi

theorem seededStart_ready {s : State} {id : PidId} (hb : s.bankSound) (hhost : s.hostPending = none)
    (hinit : s.pid[id].initialized = true) (hmap : mapGateOpen s.pid[id] s = true)
    (htime : timeGateOpen s.pid[id] s.timeBase = true) : ComputeReady (s.seededStart id) id := by
  obtain ⟨hin, hout, hsp⟩ := bankSound_bounds hb hinit
  refine ⟨rfl, hhost, ?_, ?_, ?_, ?_, ?_, ?_⟩ <;> rw [seededStart_pid]
  · exact (live_iff _).mpr ⟨hinit, rfl⟩
  · exact hmap
  · exact htime
  · exact hin
  · exact hout
  · exact hsp

/-- Settles O57: PIDRUN makes the accumulator the output cell's value, and the compute has nothing to add to it. -/
theorem bumplessStart : Obligations.BumplessStart := by
  unfold Obligations.BumplessStart
  intro s t ot id hlegal hq hb hcanon hid hlt hinit hmode hmap htime hspIn hlo hhi hexec
  obtain rfl := Host.Outcome.next.inj ((exec_pidRun_seeds hq hid hlt hb hinit hmode).symm.trans hexec)
  have hready : ComputeReady (s.seededStart id) id :=
    seededStart_ready hb hq.2.2 hinit (mapGateOpen_of_clean hmap) (timeGateOpen_of_le htime)
  obtain ⟨hinput, hsetpoint, houtAddr⟩ := seededStart_words s id
  rw [signedValue_rat] at hlo hhi
  have hsum : (s.seededStart id).pid[id].iSum = s.outputWord id := seededStart_iSum hlo hhi
  have hout : (s.seededStart id).nextOut id = s.outputWord id := by
    rw [nextOut_of_steady, hsum]
    · rw [hinput, hsetpoint]
      exact congrArg (BitVec.ofNat 32) hspIn
    · rw [hinput, seededStart_pid]
      rfl
    · rw [hsum, seededStart_pid]
      exact hlo
    · rw [hsum, seededStart_pid]
      exact hhi
  have hlt32 : s.rawAt .rat s.pid[id].outAddr.toNat < 2 ^ 32 :=
    operandRaw_lt hlegal .rat (.addr s.pid[id].outAddr)
  obtain ⟨-, -, -, -, -, hratBytes, -⟩ := hlegal
  refine ⟨(s.seededStart id).computed id, run_compute hready rfl, rfl, ?_, ?_⟩
  · rw [State.computed, setPid_self]
    rfl
  · rw [← houtAddr, computed_rawAt_out (s := s.seededStart id) hcanon hratBytes hready.outAddr, hout,
      houtAddr]
    exact Nat.mod_eq_of_lt hlt32

end Sys2Proof.Machine
